-- ==== Sys2Proof/Word.lean ====
section
/-! DEFINITION. The word types of the link-codec block (00_scope.md section 6: every integer is unsigned, a byte is
an unsigned integer in 0..255). -/

namespace Sys2Proof

/-- A byte: "an unsigned integer in `0..255`" (00_scope.md section 6). -/
abbrev Byte := BitVec 8

/-- An input window or a message: a finite byte sequence of any length, 0 included (30_encoding.md R72, R73). -/
abbrev Window := List Byte

/-- `DELIM = 0x00`, the byte that ends every frame (00_scope.md R9, 30_encoding.md R60). -/
abbrev delim : Byte := 0x00#8

/-- `MAX_RUN = 254`, where a run is cut (00_scope.md R9). -/
abbrev maxRun : Nat := 254

end Sys2Proof
end

