-- ==== Sys2Proof/Config.lean ====
section
/-! DEFINITION. What an implementation fixes (00_scope.md R8) and the free values of the model: values the spec leaves
unspecified, opaque constants that no proof can see through. -/

namespace Sys2Proof

/-- The model parameters of 00_scope.md R8. "None has a value in the source"; they are fixed for the life of the
model (10_state.md R28). The state carries them and no step writes them, so a claim about every state is a claim about
every value of them (assumption log 1). -/
structure Params where
  /-- `CRC16_POLY_R`: CRC-16 polynomial, reflected (30_encoding.md R66). -/
  crc16Poly : BitVec 16
  /-- `CRC16_SEED`: what `CRC16.INIT` loads. -/
  crc16Seed : BitVec 16
  /-- `CRC16_XOROUT`: what `CRC16.FINAL` XORs onto the accumulator. -/
  crc16Xorout : BitVec 16
  /-- `CRC32_POLY_R`: CRC-32 polynomial, reflected. -/
  crc32Poly : BitVec 32
  /-- `CRC32_SEED`: what `CRC32.INIT` loads. -/
  crc32Seed : BitVec 32
  /-- `CRC32_XOROUT`: what `CRC32.FINAL` XORs onto the accumulator. -/
  crc32Xorout : BitVec 32
  /-- `RX_CAP`: number of byte slots of the receive ring, at least 2. -/
  rxCap : Nat
  /-- `TX_CAP`: number of byte slots of the transmit ring, at least 2. -/
  txCap : Nat
deriving DecidableEq, Repr

/-- A configuration of the block: each ring has at least 2 slots. "A value below 2 is not a configuration of the
block" (93_implementation_defined.md U10, 00_scope.md R8). -/
abbrev Params.valid (p : Params) : Prop := 2 ≤ p.rxCap ∧ 2 ≤ p.txCap

/-- The defaults of 00_scope.md R8 for the six CRC parameters (D1, D2). R8 gives `RX_CAP` and `TX_CAP` no default:
8 each is a DESIGN CHOICE (the capacity most vectors of 95_test_vectors.md use; assumption log 1), unsafe. -/
def Params.default : Params where
  crc16Poly := 0x8408#16
  crc16Seed := 0xFFFF#16
  crc16Xorout := 0xFFFF#16
  crc32Poly := 0xEDB88320#32
  crc32Seed := 0xFFFFFFFF#32
  crc32Xorout := 0xFFFFFFFF#32
  rxCap := 8
  txCap := 8

/-- Free value (assumption log 8): the write cursor an overrun receive ring holds, before it is reduced to
`0..RX_CAP-1` (93_implementation_defined.md U3). The argument is the state's counter `tick`. -/
opaque Config.freeRxCursor : Nat → Nat

/-- Free value (assumption log 8): the byte an overrun receive ring's slot holds (U3); counter, then slot. -/
opaque Config.freeRxSlot : Nat → Nat → Byte

/-- Free value (assumption log 8): the `base` that `RXR.WINDOW` returns while `RXR.ovr` is 1 (U3). -/
opaque Config.freeRxBase : Nat → Nat

/-- Free value (assumption log 8): the `len` that `RXR.WINDOW` returns while `RXR.ovr` is 1 (U3). -/
opaque Config.freeRxLen : Nat → Nat

/-- Free value (assumption log 8): the `bytes` that `RXR.WINDOW` returns while `RXR.ovr` is 1 (U3). -/
opaque Config.freeRxBytes : Nat → List Byte

/-- Free value (assumption log 8): the bytes that `RXR.DECODE` returns when `RXR.ovr` is 1 at its return, before they
are cut to the caller's capacity (U3). -/
opaque Config.freeRxOut : Nat → List Byte

end Sys2Proof
end

