-- ==== Sys2Proof/Syntax.lean ====
section
/-! DEFINITION. The 24 operations (30_encoding.md R71), the request by which `HOST` issues one (R70, R72) and the
statuses (R74). -/

namespace Sys2Proof

/-- The operations of the opcode map, 30_encoding.md R71, one constructor per row of `opcode_table.json`, with the
operands of the row's format (R72) in the row's order. A capacity or count is a natural number with no upper bound
(R73); `last` is the 1-bit flag. -/
inductive Instr where
  | crc16Init
  | crc16Updb (b : Byte)
  | crc16Upd (inp : Window)
  | crc16Final
  | crc32Init
  | crc32Updb (b : Byte)
  | crc32Upd (inp : Window)
  | crc32Final
  | encReset
  | encStep (inp : Window) (last : Bool) (cap : Nat)
  | encStep2 (in0 in1 : Window) (last : Bool) (cap0 cap1 : Nat)
  | encOneshot (inp : Window) (cap : Nat)
  | decReset
  | decStep (inp : Window) (cap : Nat)
  | decStep2 (in0 in1 : Window) (cap0 cap1 : Nat)
  | decOneshot (inp : Window) (cap : Nat)
  | rxrReset
  | rxrWindow
  | rxrCommit (n : Nat)
  | rxrDecode (cap : Nat)
  | txrReset
  | txrWindow
  | txrCommit (inp : Window)
  | txrEncode (inp : Window) (last : Bool)
deriving DecidableEq, Repr

/-- The operand formats of 30_encoding.md R72. -/
inductive Format where
  | n | b | w | c | wc | wl | wlc | wwcc | wwlcc
deriving DecidableEq, Repr

/-- The operands "presented beside" the operation word (30_encoding.md R70): one place for each operand any format
has. An operation looks at the places its format names and at no other (assumption log 9). -/
structure Operands where
  /-- the byte `b` of format B -/
  byte : Byte
  /-- the window `in`, or `in0` -/
  win0 : Window
  /-- the second window `in1` of the split formats -/
  win1 : Window
  /-- the flag `last` -/
  last : Bool
  /-- the count or capacity `n`, `cap` or `cap0` -/
  num0 : Nat
  /-- the second capacity `cap1` of the split formats -/
  num1 : Nat
deriving DecidableEq, Repr

/-- Every place empty or zero. -/
def Operands.idle : Operands := ⟨0x00#8, [], [], false, 0, 0⟩

/-- An operation as `HOST` issues it: the 8-bit operation word and the operands beside it (30_encoding.md R70). -/
structure Request where
  word : Byte
  operands : Operands
deriving DecidableEq, Repr

/-- The statuses of 30_encoding.md R74. -/
inductive Status where
  | ok
  | moreInput
  | moreOutput
  | frameComplete
  | errOutOverflow
  | errTruncated
  | errStrayZero
  | errRange
  | errIllegalOp
deriving DecidableEq, Repr

end Sys2Proof
end

