-- ==== Sys2Proof/Machine/State.lean ====
section
/-! DEFINITION. The state of the block (10_state.md R10: "The block's whole state is the tuple below"), the model's own
fields beside it, the reasons a step can stop, and the state after global reset (70_reset_and_hazards.md R280). -/

namespace Sys2Proof.Machine

open Sys2Proof

/-! ## Ring storage (20_memory.md R40) -/

/-- The storage of one ring: the slots that hold something other than what an unlisted slot reads as, by slot index,
indices strictly rising. -/
abbrev Memory := List Host.Cell

/-- What an unlisted slot reads as. The contents of storage that nothing has written are unspecified and unobservable
(10_state.md R34, 93_implementation_defined.md U2: "A model may initialise them to anything; no proof may depend on
it"). DESIGN CHOICE `0x00` (assumption log 7), unsafe. -/
abbrev Memory.unlisted : Byte := 0x00#8

/-- The canonical form: slot indices strictly rising and no entry equal to what an unlisted slot reads as, so that
equal memories are equal lists. -/
abbrev Memory.wf (m : Memory) : Prop :=
  (m.map Prod.fst).Pairwise (· < ·) ∧ ∀ c ∈ m, c.2 ≠ Memory.unlisted

/-- A ring: storage and the two cursors (10_state.md R20). Its capacity is a parameter, not a register. The
cursors are natural numbers, their range an invariant (assumption log 15). -/
structure Ring where
  /-- the byte slots -/
  storage : Memory
  /-- `read_cursor`: index of the oldest unread byte -/
  rd : Nat
  /-- `write_cursor`: index of the next slot to be written -/
  wr : Nat
deriving DecidableEq, Repr

/-- The two rings, and the two address spaces of 20_memory.md R40. -/
inductive RingId where
  | rxr
  | txr
deriving DecidableEq, Repr

/-! ## Codec units (10_state.md R14, R17) -/

/-- `ENC.e_phase`: what the encoder does next (10_state.md R14). -/
inductive Phase where
  /-- `ACCUM`: take input -/
  | accum
  /-- `CODE`: emit the code byte -/
  | code
  /-- `DATA`: emit the run's data bytes -/
  | data
  /-- `DELIM`: emit the delimiter -/
  | delim
deriving DecidableEq, Repr

/-- `ENC.e_mode` and `DEC.d_mode` (10_state.md R14, R17). -/
inductive RunMode where
  | plain
  | reduced
deriving DecidableEq, Repr

/-- The encoder's registers (10_state.md R14). The buffer is its 254 bytes in order; the counters are natural numbers,
their ranges invariants (assumption log 15). -/
structure Enc where
  /-- `ENC.e_phase` -/
  phase : Phase
  /-- `ENC.e_buf[0..253]`: the run being accumulated, then being emitted -/
  buf : List Byte
  /-- `ENC.e_len`: number of valid bytes in `e_buf`, `0..254` -/
  len : Nat
  /-- `ENC.e_code`: the code byte of the run being emitted -/
  code : Byte
  /-- `ENC.e_n`: number of bytes of `e_buf` to emit after the code byte, `0..254` -/
  n : Nat
  /-- `ENC.e_pos`: number of those bytes already emitted, `0..254` -/
  pos : Nat
  /-- `ENC.e_final`: the run being emitted is the last of the message -/
  final : Bool
  /-- `ENC.e_mode`: `REDUCED` exactly while the run being emitted is a reduced final run -/
  mode : RunMode
deriving DecidableEq, Repr

/-- The decoder's registers (10_state.md R17; assumption log 15). -/
structure Dec where
  /-- `DEC.d_code`: the code byte of the current run; `0x00`: no code byte has been read in this frame -/
  code : Byte
  /-- `DEC.d_run`: number of data bytes of the current run still to be copied, `0..254` -/
  run : Nat
  /-- `DEC.d_mode`: `REDUCED`: the delimiter came inside a run and has been consumed; `d_code` is owed -/
  mode : RunMode
deriving DecidableEq, Repr

/-! ## What an operation returns, and what an observer sees -/

/-- The results of an operation, in the order of the `results` column of 30_encoding.md R71. A result is no state:
"no later operation reads an earlier operation's status" (10_state.md R27). -/
inductive Response where
  /-- operations with a status and nothing else -/
  | status (st : Status)
  /-- `CRC16.FINAL` -/
  | crc16 (crc : BitVec 16) (st : Status)
  /-- `CRC32.FINAL` -/
  | crc32 (crc : BitVec 32) (st : Status)
  /-- `ENC.STEP`, `DEC.STEP` -/
  | step (consumed : Nat) (out : Window) (st : Status)
  /-- `ENC.STEP2`, `DEC.STEP2` -/
  | step2 (consumed : Nat) (out0 out1 : Window) (st : Status)
  /-- `ENC.ONESHOT`, `DEC.ONESHOT`, `RXR.DECODE` -/
  | out (out : Window) (st : Status)
  /-- `RXR.WINDOW` -/
  | rxWindow (base len : Nat) (bytes : Window) (ovr : Bool) (st : Status)
  /-- `TXR.WINDOW` -/
  | txWindow (base len : Nat) (st : Status)
  /-- `TXR.ENCODE` -/
  | consumed (consumed : Nat) (st : Status)
deriving DecidableEq, Repr

/-- What an observer of the block sees happen: an operation returning to `HOST`, or the event `tx_complete`, "a label
on a transition, visible to an observer of the trace" (60_exceptions.md R258). -/
inductive Event where
  | returned (r : Response)
  | txComplete
deriving DecidableEq, Repr

/-- One entry of the schedule: whose turn it is, with the free inputs of an engine step (00_scope.md R6,
93_implementation_defined.md U7, U8). -/
inductive Turn where
  /-- `HOST` takes its next primitive step -/
  | host
  /-- `RXENG.PUT v`: the wire delivers the byte `v` -/
  | rxeng (v : Byte)
  /-- `TXENG.TAKE k` -/
  | txeng (k : Nat)
deriving DecidableEq, Repr

/-- An engine's turn, not `HOST`'s. -/
def Turn.isEngine : Turn → Bool
  | .host => false
  | .rxeng _ => true
  | .txeng _ => true

/-! ## The state -/

/-- The state: the spec's tuple (10_state.md R10), the wire's history (R30), the configuration (00_scope.md R8, written
by no step), and the model's own fields. Plain data throughout. -/
structure State where
  /-- the parameters of 00_scope.md R8 (assumption log 1) -/
  params : Params
  /-- `CRC16.acc`, 16 bits; absent until `CRC16.INIT` (10_state.md R11, R31; U1; assumption log 5) -/
  crc16 : Option (BitVec 16)
  /-- `CRC32.acc`, 32 bits; absent until `CRC32.INIT` (10_state.md R12, R31; U1; assumption log 5) -/
  crc32 : Option (BitVec 32)
  /-- `ENC.*` (10_state.md R14) -/
  enc : Enc
  /-- `DEC.*` (10_state.md R17) -/
  dec : Dec
  /-- `RXR.storage`, `RXR.rd`, `RXR.wr` (10_state.md R20) -/
  rxr : Ring
  /-- `RXR.ovr`, the sticky overrun flag (10_state.md R24) -/
  rxrOvr : Bool
  /-- `TXR.storage`, `TXR.rd`, `TXR.wr` (10_state.md R20) -/
  txr : Ring
  /-- `WIRE_TX`, the bytes `TXENG` has put on the wire so far; no operation reads it (10_state.md R30) -/
  wireTx : List Byte
  /-- MODEL: the operations `HOST` will issue, in order (10_state.md R26; assumption log 2) -/
  requests : List Request
  /-- MODEL: whose turn is next; with nothing listed it is `HOST`'s (20_memory.md R51). Filled from outside the machine
  only (assumption log 3) -/
  sched : List Turn
  /-- MODEL: what an observer has seen, oldest first (assumption log 10) -/
  trace : List Event
  /-- MODEL: numbers the free values of an overrun receive ring (U3; assumption log 8) -/
  tick : Nat
deriving DecidableEq, Repr

/-! ## Why a step can stop -/

/-- Why the machine stops with a fault. -/
inductive Fault where
  /-- `CRC16.UPDB`, `CRC16.UPD` or `CRC16.FINAL` with no `CRC16.INIT` since global reset: the `fault` that 10_state.md
  R31 and 93_implementation_defined.md U1 order. Raised by those three meanings. Safe: nothing follows about the run. -/
  | crc16BeforeInit
  /-- The same for `CRC32.UPDB`, `CRC32.UPD`, `CRC32.FINAL` (R31, U1). Safe. -/
  | crc32BeforeInit
  /-- An access to a slot that a ring does not have: "An index outside `0..CAP-1` never occurs" (20_memory.md R41).
  Raised by `memRead` and `memWrite`, in states that no run reaches (assumption log 11). Safe. -/
  | noSuchSlot (ring : RingId) (index : Nat)
deriving DecidableEq, Repr

/-- Why the machine refuses to step. -/
inductive Refusal where
  /-- An instruction whose meaning is not written. Raised by `exec`'s arms only; no arm of this model raises it. Safe. -/
  | notModelled (mnemonic : String)
  /-- A ring capacity below 2 "is not a configuration of the block" (93_implementation_defined.md U10: `refuse` to
  instantiate). Raised by `step` (assumption log 12). Safe. -/
  | noConfiguration
deriving DecidableEq, Repr

/-! ## Reset (10_state.md section 7) -/

/-- The encoder after global reset (10_state.md R32). The bytes of `e_buf` are "unspecified and unobservable": 254
zeros are a DESIGN CHOICE (assumption log 6), unsafe. -/
def Enc.atReset : Enc where
  phase := .accum
  buf := List.replicate 254 0x00#8
  len := 0
  code := 0x00#8
  n := 0
  pos := 0
  final := false
  mode := .plain

/-- The decoder after global reset (10_state.md R33). -/
def Dec.atReset : Dec where
  code := 0x00#8
  run := 0
  mode := .plain

/-- A ring after global reset: empty, nothing listed in storage (10_state.md R34). -/
def Ring.atReset : Ring where
  storage := []
  rd := 0
  wr := 0

/-- The block after global reset, for any value of the parameters (70_reset_and_hazards.md R280, 10_state.md R31 to
R35): "both CRC accumulators unspecified, encoder and decoder in their reset states, all four cursors 0,
`RXR.ovr = 0`, both storages unspecified, `WIRE_TX = ⟨⟩`". The model's own `requests` and `sched` are empty, DESIGN
CHOICE: which operations `HOST` issues and when the engines move are free (00_scope.md R6, U7, U8), and both lists are
filled from outside the machine. No step adds to them, so until turns are placed no engine moves (assumption logs 2
and 3). -/
def State.resetWith (p : Params) : State where
  params := p
  crc16 := none
  crc32 := none
  enc := Enc.atReset
  dec := Dec.atReset
  rxr := Ring.atReset
  rxrOvr := false
  txr := Ring.atReset
  wireTx := []
  requests := []
  sched := []
  trace := []
  tick := 0

/-- The block after global reset, at the default parameters. -/
def State.reset : State := State.resetWith Params.default

end Sys2Proof.Machine
end

