-- ==== Sys2Proof/Machine/Ops.lean ====
section
/-! DEFINITION. The named operations over the state: ring storage, cursors, windows, the two engine steps, the engine
turns that fall inside a composite, and returning results to `HOST`. The block has no trap to take and none to return
from (60_exceptions.md R251): what stands in an exception's place is a returned status. -/

namespace Sys2Proof.Machine

open Sys2Proof

/-- The outcome of a meaning. -/
abbrev Out := Host.Outcome State Fault Refusal

/-! ## Returning to `HOST` -/

/-- The operation returns its results to `HOST`; they become the newest entry of the trace. -/
def State.reply (s : State) (r : Response) : State :=
  { s with trace := s.trace ++ [.returned r] }

/-- An operation that ends in state `s` with results `r`. -/
def done (r : Response) (s : State) : Out := .next (s.reply r)

/-- Go on with a result, or stop with the fault met on the way. -/
def orFault {α : Type} (x : Except Fault α) (k : α → Out) : Out :=
  match x with
  | .ok a => k a
  | .error f => .fault f

/-! ## Storage of one ring (20_memory.md R41) -/

/-- The byte a slot holds. -/
def Memory.read : Memory → Nat → Byte
  | [], _ => Memory.unlisted
  | (b, w) :: rest, a => if a = b then w else Memory.read rest a

/-- Storing a byte in a slot, in canonical form: a byte equal to what an unlisted slot reads as is not listed. -/
def Memory.write : Memory → Nat → Byte → Memory
  | [], a, v => if v = Memory.unlisted then [] else [(a, v)]
  | (b, w) :: rest, a, v =>
    if a < b then
      if v = Memory.unlisted then (b, w) :: rest else (a, v) :: (b, w) :: rest
    else if a = b then
      if v = Memory.unlisted then rest else (a, v) :: rest
    else (b, w) :: Memory.write rest a v

/-- One of the two rings. -/
def State.ring (s : State) : RingId → Ring
  | .rxr => s.rxr
  | .txr => s.txr

/-- The capacity `CAP` of one of the two rings, a parameter (10_state.md R20). -/
def State.cap (s : State) : RingId → Nat
  | .rxr => s.params.rxCap
  | .txr => s.params.txCap

/-- Putting a ring back. -/
def State.setRing (s : State) (id : RingId) (r : Ring) : State :=
  match id with
  | .rxr => { s with rxr := r }
  | .txr => { s with txr := r }

/-- `MemRead(ring, i, 1)` (20_memory.md R41). The index is never reduced; a slot the ring does not have faults
(assumption log 11). -/
def memRead (s : State) (id : RingId) (i : Nat) : Except Fault Byte :=
  if i < s.cap id then .ok ((s.ring id).storage.read i) else .error (.noSuchSlot id i)

/-- `MemWrite(ring, i, 1, v)` (20_memory.md R41). -/
def memWrite (s : State) (id : RingId) (i : Nat) (v : Byte) : Except Fault State :=
  if i < s.cap id then
    .ok (s.setRing id { s.ring id with storage := (s.ring id).storage.write i v })
  else .error (.noSuchSlot id i)

/-- `⟨ MemRead(ring, base + j, 1) for j = 0 .. len - 1 ⟩`, in increasing order (20_memory.md R43, R46). -/
def memReads (s : State) (id : RingId) (base : Nat) : Nat → Except Fault (List Byte)
  | 0 => .ok []
  | len + 1 => do
    let v ← memRead s id base
    let vs ← memReads s id (base + 1) len
    return v :: vs

/-- `for j = 0 .. |in| - 1: MemWrite(ring, base + j, 1, in[j])`, in increasing order (20_memory.md R43, R46). -/
def memWrites (s : State) (id : RingId) (base : Nat) : List Byte → Except Fault State
  | [] => .ok s
  | v :: vs => do
    let s' ← memWrite s id base v
    memWrites s' id (base + 1) vs

/-! ## Ring arithmetic (43_transport_adapter.md section 1) -/

/-- Advancing a cursor `p` by `n`: `(p + n) mod CAP` (43_transport_adapter.md R200). -/
def advance (cap p n : Nat) : Nat := (p + n) % cap

/-- `occupied = (wr - rd) mod CAP` (10_state.md R21), for cursors in `0..CAP-1`. -/
def occupied (cap rd wr : Nat) : Nat := (wr + cap - rd) % cap

/-- `free = CAP - 1 - occupied` (10_state.md R21). -/
def freeSlots (cap rd wr : Nat) : Nat := cap - 1 - occupied cap rd wr

/-- A ring is full exactly when `(wr + 1) mod CAP = rd` (10_state.md R21). -/
abbrev ringFull (cap rd wr : Nat) : Prop := (wr + 1) % cap = rd

/-- The length of `W1`, the first window of the occupied region for a sampled write cursor `w`
(43_transport_adapter.md R201). Its base is `rd`. -/
def occLen (cap rd w : Nat) : Nat := if w ≥ rd then w - rd else cap - rd

/-- The length of `W2`, the rest of the occupied region, from slot 0 (43_transport_adapter.md R201). -/
def occLen2 (rd w : Nat) : Nat := if w ≥ rd then 0 else w

/-- The length of `F1`, the first window of the free region for a sampled read cursor `r`
(43_transport_adapter.md R202). Its base is `wr`. -/
def freeLen (cap wr r : Nat) : Nat :=
  if r > wr then r - wr - 1 else cap - wr - (if r = 0 then 1 else 0)

/-- The length of `F2`, the rest of the free region, from slot 0 (43_transport_adapter.md R202). -/
def freeLen2 (wr r : Nat) : Nat := if r > wr then 0 else max (r - 1) 0

/-- `RXR.remaining = RX_CAP - RXR.wr`, the read-only view of the receive engine's cursor (10_state.md R23). "every
rule uses `RXR.wr`": no operation uses the view. -/
def rxrRemaining (s : State) : Nat := s.params.rxCap - s.rxr.wr

/-! ## The receive ring when it has overrun (93_implementation_defined.md U3) -/

/-- A storage of `cap` slots whose bytes are free values. -/
def freeStorage (tick : Nat) : Nat → Memory
  | 0 => []
  | n + 1 => (freeStorage tick n).write n (Config.freeRxSlot tick n)

/-- "`RXR.storage` and `RXR.wr` are unspecified": they take free values, `wr` kept in `0..RX_CAP-1`
(43_transport_adapter.md R216, U3; assumption log 8). -/
def rxrUnspecified (s : State) : State :=
  { s with
    rxr := { s.rxr with
      storage := freeStorage s.tick s.params.rxCap
      wr := Config.freeRxCursor s.tick % s.params.rxCap }
    tick := s.tick + 1 }

/-! ## Engine steps -/

/-- `RXENG.PUT v` (43_transport_adapter.md R216): on a full ring the overrun flag is set and storage and `wr` become
unspecified; otherwise the byte is stored at `wr` and then `wr` advances (20_memory.md R52). While the flag is set a
further `PUT` leaves the flag as it is (60_exceptions.md R259) and what is unspecified unspecified. -/
def rxengPut (v : Byte) (s : State) : Except Fault State :=
  if s.rxrOvr then .ok (rxrUnspecified s)
  else if ringFull s.params.rxCap s.rxr.rd s.rxr.wr then
    .ok (rxrUnspecified { s with rxrOvr := true })
  else do
    let s' ← memWrite s .rxr s.rxr.wr v
    return { s' with rxr := { s'.rxr with wr := advance s.params.rxCap s.rxr.wr 1 } }

/-- `TXENG.TAKE k` is enabled: `1 <= k <= c`, `c` the contiguous occupied length (43_transport_adapter.md R226). -/
abbrev takeEnabled (k : Nat) (s : State) : Prop :=
  1 ≤ k ∧ k ≤ occLen s.params.txCap s.txr.rd s.txr.wr

/-- `TXENG.TAKE k` (43_transport_adapter.md R226): the bytes go to the wire, then `rd` advances (20_memory.md R53),
and `tx_complete` is signalled. A turn that asks for a `TAKE` that is not enabled is no step of the engine: nothing
happens (assumption log 3). -/
def txengTake (k : Nat) (s : State) : Except Fault State :=
  if takeEnabled k s then do
    let sent ← memReads s .txr s.txr.rd k
    return { s with
      wireTx := s.wireTx ++ sent
      txr := { s.txr with rd := advance s.params.txCap s.txr.rd k }
      trace := s.trace ++ [.txComplete] }
  else .ok s

/-- The engine steps that fall at one point between two primitives of a composite: the engine turns at the head of
the schedule, up to and including the turn that hands `HOST` its next primitive (20_memory.md R51; assumption log 4).
Nothing listed: nothing falls here. -/
def runEngines : List Turn → State → Except Fault State
  | [], s => .ok { s with sched := [] }
  | .host :: rest, s => .ok { s with sched := rest }
  | .rxeng v :: rest, s => do
    let s' ← rxengPut v s
    runEngines rest s'
  | .txeng k :: rest, s => do
    let s' ← txengTake k s
    runEngines rest s'

/-- Between two primitives of a composite: "engine steps may fall between any two primitives of the sequence"
(43_transport_adapter.md section 4). -/
def interlude (s : State) : Except Fault State := runEngines s.sched s

end Sys2Proof.Machine
end

