-- ==== Sys2Proof/Machine/Crc.lean ====
section
/-! DEFINITION. The CRC-16 and CRC-32 accumulators (40_crc.md). -/

namespace Sys2Proof.Machine

open Sys2Proof

/-! ## The update (40_crc.md section 1) -/

/-- One division step: `if c[0] = 1 then (c >> 1) xor POLY_R else c >> 1` (40_crc.md R90, R92). -/
def crcShift {w : Nat} (poly c : BitVec w) : BitVec w :=
  if c.getLsbD 0 then (c >>> 1) ^^^ poly else c >>> 1

/-- The division step repeated. -/
def crcShifts {w : Nat} (poly : BitVec w) : Nat → BitVec w → BitVec w
  | 0, c => c
  | n + 1, c => crcShifts poly n (crcShift poly c)

/-- Entry `T[k]` of the lookup table: 8 division steps from `zext_w(k)` (40_crc.md R90). The table is a constant of the
parameters, not state (10_state.md section 2). -/
def crcTable {w : Nat} (poly : BitVec w) (k : Byte) : BitVec w := crcShifts poly 8 (k.setWidth w)

/-- `upd1(a, b) = (a >> 8) xor T[(a xor zext_w(b))[7:0]]` (40_crc.md R91). -/
def crcUpd1 {w : Nat} (poly a : BitVec w) (b : Byte) : BitVec w :=
  (a >>> 8) ^^^ crcTable poly ((a ^^^ b.setWidth w).setWidth 8)

/-- The bit-serial form of the byte update (40_crc.md R92). -/
def crcUpd1Serial {w : Nat} (poly a : BitVec w) (b : Byte) : BitVec w :=
  crcShifts poly 8 (a ^^^ b.setWidth w)

/-- `upd(a, s)`: the left fold of `upd1` over the bytes in index order (40_crc.md R101). -/
def crcUpd {w : Nat} (poly : BitVec w) : BitVec w → Window → BitVec w
  | a, [] => a
  | a, b :: s => crcUpd poly (crcUpd1 poly a b) s

/-- `crc16(s) = upd16(CRC16_SEED, s) xor CRC16_XOROUT` (40_crc.md R104). -/
def crc16Of (p : Params) (s : Window) : BitVec 16 := crcUpd p.crc16Poly p.crc16Seed s ^^^ p.crc16Xorout

/-- `crc32(s) = upd32(CRC32_SEED, s) xor CRC32_XOROUT` (40_crc.md R105). -/
def crc32Of (p : Params) (s : Window) : BitVec 32 := crcUpd p.crc32Poly p.crc32Seed s ^^^ p.crc32Xorout

/-! ## An accumulator that no `INIT` has written (10_state.md R31, U1)

"`fault` (the model stops the run in a distinguished failed state from which no claim follows)"
(93_implementation_defined.md section 1). -/

/-- `k` on the CRC-16 accumulator; before the engine's first `INIT` the fault that 10_state.md R31 and
93_implementation_defined.md U1 order (assumption log 5). -/
def withCrc16 (s : State) (k : BitVec 16 → Out) : Out :=
  match s.crc16 with
  | some a => k a
  | none => .fault .crc16BeforeInit

/-- `k` on the CRC-32 accumulator; before the engine's first `INIT` the fault that 10_state.md R31 and
93_implementation_defined.md U1 order (assumption log 5). -/
def withCrc32 (s : State) (k : BitVec 32 → Out) : Out :=
  match s.crc32 with
  | some a => k a
  | none => .fault .crc32BeforeInit

/-! ## CRC-16 operations -/

/-- `CRC16.INIT` (40_crc.md R93). -/
def execCrc16Init (s : State) : Out := done (.status .ok) { s with crc16 := some s.params.crc16Seed }

/-- `CRC16.UPDB b` (40_crc.md R94). -/
def execCrc16Updb (b : Byte) (s : State) : Out :=
  withCrc16 s fun a => done (.status .ok) { s with crc16 := some (crcUpd1 s.params.crc16Poly a b) }

/-- `CRC16.UPD in` (40_crc.md R95). -/
def execCrc16Upd (inp : Window) (s : State) : Out :=
  withCrc16 s fun a => done (.status .ok) { s with crc16 := some (crcUpd s.params.crc16Poly a inp) }

/-- `CRC16.FINAL` (40_crc.md R96). The accumulator is not changed (D4). -/
def execCrc16Final (s : State) : Out :=
  withCrc16 s fun a => done (.crc16 (a ^^^ s.params.crc16Xorout) .ok) s

/-! ## CRC-32 operations -/

/-- `CRC32.INIT` (40_crc.md R97). -/
def execCrc32Init (s : State) : Out := done (.status .ok) { s with crc32 := some s.params.crc32Seed }

/-- `CRC32.UPDB b` (40_crc.md R98). -/
def execCrc32Updb (b : Byte) (s : State) : Out :=
  withCrc32 s fun a => done (.status .ok) { s with crc32 := some (crcUpd1 s.params.crc32Poly a b) }

/-- `CRC32.UPD in` (40_crc.md R99). -/
def execCrc32Upd (inp : Window) (s : State) : Out :=
  withCrc32 s fun a => done (.status .ok) { s with crc32 := some (crcUpd s.params.crc32Poly a inp) }

/-- `CRC32.FINAL` (40_crc.md R100). The accumulator is not changed (D4). -/
def execCrc32Final (s : State) : Out :=
  withCrc32 s fun a => done (.crc32 (a ^^^ s.params.crc32Xorout) .ok) s

end Sys2Proof.Machine
end

