-- ==== Sys2Proof/Machine/Flags.lean ====
section
/-! DEFINITION. The block has no flags (10_state.md R27); an operation's outcome is its status. Here is what the spec
computes about statuses: their numbers (30_encoding.md R74) and the statuses of the one-shots. -/

namespace Sys2Proof.Machine

open Sys2Proof

/-- The numeric value of a status (30_encoding.md R74). -/
def statusCode : Status → Nat
  | .ok => 0
  | .moreInput => 1
  | .moreOutput => 2
  | .frameComplete => 3
  | .errOutOverflow => 4
  | .errTruncated => 5
  | .errStrayZero => 6
  | .errRange => 7
  | .errIllegalOp => 8

/-- The status of `ENC.ONESHOT` from that of the inner step: `FRAME_COMPLETE` to `OK`, anything else to
`ERR_OUT_OVERFLOW` (41_cobsr_encoder.md R142). -/
def encOneshotStatus (st : Status) : Status :=
  if st = .frameComplete then .ok else .errOutOverflow

/-- The status of `DEC.ONESHOT` from that of the inner step and whether it took the whole buffer
(42_cobsr_decoder.md R179). The last line is the inner step's `MORE_OUTPUT`, its only other status (R171). -/
def decOneshotStatus (st : Status) (consumed size : Nat) : Status :=
  if st = .frameComplete then
    if consumed = size then .ok else .errStrayZero
  else if st = .moreInput then .errTruncated
  else .errOutOverflow

end Sys2Proof.Machine
end

