-- ==== Sys2Proof/Machine/Operands.lean ====
section
/-! DEFINITION. What an operation does with its operands before and after it runs. No operand is assembled from bits
(30_encoding.md R73); the forms that need work are the split windows of 41_cobsr_encoder.md R141 and
42_cobsr_decoder.md R178. -/

namespace Sys2Proof.Machine

open Sys2Proof

/-- Two input windows are read as one: "all of the first window comes before any of the second" (20_memory.md R46). -/
def joinWindows (in0 in1 : Window) : Window := in0 ++ in1

/-- `k <- min(|out|, cap0)` (41_cobsr_encoder.md R141, 42_cobsr_decoder.md R178). -/
def splitPoint (out : Window) (cap0 : Nat) : Nat := min out.length cap0

/-- `out[0..k)`: what goes to the first output window. -/
def firstOut (out : Window) (cap0 : Nat) : Window := out.take (splitPoint out cap0)

/-- `out[k..|out|)`: what goes to the second, used only when the first is full. -/
def secondOut (out : Window) (cap0 : Nat) : Window := out.drop (splitPoint out cap0)

end Sys2Proof.Machine
end

