-- ==== Sys2Proof/Machine/Decoder.lean ====
section
/-! DEFINITION. The streaming COBS/R decoder and its operations (42_cobsr_decoder.md sections 2 and 4). -/

namespace Sys2Proof.Machine

open Sys2Proof

/-- `DEC.d_code <- 00 ; DEC.d_run <- 0 ; DEC.d_mode <- PLAIN` (42_cobsr_decoder.md R164, 10_state.md R33). -/
def decReset (_ : Dec) : Dec := { code := 0x00#8, run := 0, mode := .plain }

/-- What a call of `DEC.STEP` leaves and returns. -/
structure DecResult where
  dec : Dec
  consumed : Nat
  out : Window
  status : Status
deriving DecidableEq, Repr

/-- Arm `REDUCED`: the delimiter came inside a run and has been consumed; the code byte is owed as the last data byte
(42_cobsr_decoder.md R167). It needs no input. -/
def decArmReduced (d : Dec) (taken : Nat) (out : Window) (room : Nat) : DecResult :=
  if room = 0 then ⟨d, taken, out, .moreOutput⟩
  else ⟨decReset d, taken, out ++ [d.code], .frameComplete⟩

/-- A run came before this code, and it was not a full one, so a zero is owed (42_cobsr_decoder.md R170). -/
abbrev zeroOwed (d : Dec) : Prop := d.code ≠ 0x00#8 ∧ d.code ≠ 0xFF#8

/-- `DEC.d_code <- b ; DEC.d_run <- b - 1` (42_cobsr_decoder.md R170). -/
def decTakeCode (d : Dec) (b : Byte) : Dec := { d with code := b, run := b.toNat - 1 }

/-- The loop of `DEC.STEP` (42_cobsr_decoder.md R166) over the input not consumed yet; `taken` is `i`, `room` is
`cap - |out|`. "each repetition that does not return consumes a byte". -/
def decLoop (d : Dec) (taken : Nat) (out : Window) (room : Nat) : Window → DecResult
  | [] =>
    if d.mode = .reduced then decArmReduced d taken out room
    -- R168: input used up
    else ⟨d, taken, out, .moreInput⟩
  | b :: rest =>
    if d.mode = .reduced then decArmReduced d taken out room
    else if d.run > 0 then
      -- R169: inside a run
      if b = 0x00#8 then decLoop { d with mode := .reduced } (taken + 1) out room rest
      else if room = 0 then ⟨d, taken, out, .moreOutput⟩
      else decLoop { d with run := d.run - 1 } (taken + 1) (out ++ [b]) (room - 1) rest
    else
      -- R170: expecting a code
      if b = 0x00#8 then ⟨decReset d, taken + 1, out, .frameComplete⟩
      else if zeroOwed d then
        if room = 0 then ⟨d, taken, out, .moreOutput⟩
        else decLoop (decTakeCode d b) (taken + 1) (out ++ [0x00#8]) (room - 1) rest
      else decLoop (decTakeCode d b) (taken + 1) out room rest

/-- One call of `DEC.STEP in, cap` on the decoder registers (42_cobsr_decoder.md R166). -/
def decStep (d : Dec) (inp : Window) (cap : Nat) : DecResult := decLoop d 0 [] cap inp

/-! ## Operations -/

/-- `DEC.RESET` (42_cobsr_decoder.md R164). -/
def execDecReset (s : State) : Out := done (.status .ok) { s with dec := decReset s.dec }

/-- `DEC.STEP in, cap` (42_cobsr_decoder.md R166). -/
def execDecStep (inp : Window) (cap : Nat) (s : State) : Out :=
  let r := decStep s.dec inp cap
  done (.step r.consumed r.out r.status) { s with dec := r.dec }

/-- `DEC.STEP2 in0, in1, cap0, cap1` (42_cobsr_decoder.md R178). -/
def execDecStep2 (in0 in1 : Window) (cap0 cap1 : Nat) (s : State) : Out :=
  let r := decStep s.dec (joinWindows in0 in1) (cap0 + cap1)
  done (.step2 r.consumed (firstOut r.out cap0) (secondOut r.out cap0) r.status) { s with dec := r.dec }

/-- `DEC.ONESHOT in, cap` (42_cobsr_decoder.md R179): reset, one step over the whole frame, reset. -/
def execDecOneshot (inp : Window) (cap : Nat) (s : State) : Out :=
  let r := decStep (decReset s.dec) inp cap
  done (.out r.out (decOneshotStatus r.status r.consumed inp.length)) { s with dec := decReset r.dec }

end Sys2Proof.Machine
end

