-- ==== Sys2Proof/Machine/Receive.lean ====
section
/-! DEFINITION. The receive ring's operations and the decoder run over it (43_transport_adapter.md sections 2 and 4). -/

namespace Sys2Proof.Machine

open Sys2Proof

/-- What `RXR.WINDOW` returns beside its status (43_transport_adapter.md R212). -/
structure RxWindow where
  base : Nat
  len : Nat
  bytes : Window
  ovr : Bool
deriving DecidableEq, Repr

/-- The primitive `RXR.WINDOW` (43_transport_adapter.md R212): `W1` of R201 and its bytes. It changes no state
(20_memory.md R45). "When the returned `ovr` is 1 the other results are unspecified": they are free values, and the
counter of free values moves on (U3; assumption log 8). -/
def rxrWindow (s : State) : Except Fault (RxWindow × State) :=
  if s.rxrOvr then
    .ok (⟨Config.freeRxBase s.tick, Config.freeRxLen s.tick, Config.freeRxBytes s.tick, true⟩,
      { s with tick := s.tick + 1 })
  else do
    let len := occLen s.params.rxCap s.rxr.rd s.rxr.wr
    let bytes ← memReads s .rxr s.rxr.rd len
    return (⟨s.rxr.rd, len, bytes, false⟩, s)

/-- The primitive `RXR.COMMIT n` (43_transport_adapter.md R213): the status, and the state after. -/
def rxrCommit (n : Nat) (s : State) : Status × State :=
  if n > occLen s.params.rxCap s.rxr.rd s.rxr.wr then (.errRange, s)
  else (.ok, { s with rxr := { s.rxr with rd := advance s.params.rxCap s.rxr.rd n } })

/-- What one pass, or the whole, of `RXR.DECODE` gives. -/
structure RxDecoded where
  out : Window
  status : Status
  state : State
deriving DecidableEq, Repr

/-- One pass of `RXR.DECODE` with `cap` output slots left: `WINDOW`, `DEC.STEP`, `COMMIT`, with the engine steps that
fall between them (43_transport_adapter.md R230). -/
def rxrDecodePass (cap : Nat) (s : State) : Except Fault RxDecoded := do
  let (w, s1) ← rxrWindow s
  let s2 ← interlude s1
  let r := decStep s2.dec w.bytes cap
  let s3 ← interlude { s2 with dec := r.dec }
  return ⟨r.out, r.status, (rxrCommit r.consumed s3).2⟩

/-- The passes of `RXR.DECODE cap`: the second pass runs only when the first returned `MORE_INPUT`, and samples
`RXR.wr` afresh (43_transport_adapter.md R230). -/
def rxrDecode (cap : Nat) (s : State) : Except Fault RxDecoded := do
  let p1 ← rxrDecodePass cap s
  if p1.status ≠ .moreInput then
    return p1
  let s' ← interlude p1.state
  let p2 ← rxrDecodePass (cap - p1.out.length) s'
  return { p2 with out := p1.out ++ p2.out }

/-- What `RXR.DECODE` returns: what its passes gave, unless `RXR.ovr` is 1 by then. "While it is 1, ... the bytes any
`RXR` operation returns are unspecified" (10_state.md R24, U3): then `out` is a free value, of at most `cap` bytes
still (43_transport_adapter.md R230), and the counter of free values moves on (assumption log 8). The status and the
rest of the state are as the passes gave them (60_exceptions.md R257). -/
def rxrDecodeReturn (cap : Nat) (p : RxDecoded) : RxDecoded :=
  if p.state.rxrOvr then
    { p with
      out := (Config.freeRxOut p.state.tick).take cap
      state := { p.state with tick := p.state.tick + 1 } }
  else p

/-! ## Operations -/

/-- `RXR.RESET` (43_transport_adapter.md R211): `storage` is not changed. -/
def execRxrReset (s : State) : Out :=
  done (.status .ok) { s with rxr := { s.rxr with rd := 0, wr := 0 }, rxrOvr := false }

/-- `RXR.WINDOW` (43_transport_adapter.md R212). -/
def execRxrWindow (s : State) : Out :=
  orFault (rxrWindow s) fun (w, s') => done (.rxWindow w.base w.len w.bytes w.ovr .ok) s'

/-- `RXR.COMMIT n` (43_transport_adapter.md R213). -/
def execRxrCommit (n : Nat) (s : State) : Out :=
  done (.status (rxrCommit n s).1) (rxrCommit n s).2

/-- `RXR.DECODE cap` (43_transport_adapter.md R230). -/
def execRxrDecode (cap : Nat) (s : State) : Out :=
  orFault (rxrDecode cap s) fun p =>
    done (.out (rxrDecodeReturn cap p).out p.status) (rxrDecodeReturn cap p).state

end Sys2Proof.Machine
end

