-- ==== Sys2Proof/Machine/Encoder.lean ====
section
/-! DEFINITION. The streaming COBS/R encoder and its operations (41_cobsr_encoder.md sections 2 and 4). -/

namespace Sys2Proof.Machine

open Sys2Proof

/-! ## Registers -/

/-- Set the encoder registers to the values of 10_state.md R32; `e_buf` is left as it is (70_reset_and_hazards.md
R281, R282). -/
def encReset (e : Enc) : Enc :=
  { e with phase := .accum, len := 0, code := 0x00#8, n := 0, pos := 0, final := false, mode := .plain }

/-- `ENC.e_buf[i]`. An index outside the buffer is read by no rule. -/
def encBufAt (e : Enc) (i : Nat) : Byte := e.buf.getD i 0x00#8

/-- `start_flush(code, n, final, mode)`: it does not touch `e_buf` or `e_len` (41_cobsr_encoder.md R132). -/
def startFlush (e : Enc) (code : Byte) (n : Nat) (final : Bool) (mode : RunMode) : Enc :=
  { e with code := code, n := n, pos := 0, final := final, mode := mode, phase := .code }

/-! ## The loop of `ENC.STEP` (41_cobsr_encoder.md R127) -/

/-- The locals of one call of `ENC.STEP`, beside the registers: the input not consumed yet, how many bytes were
consumed (`i`), the bytes produced (`out`), and the output slots left (`cap - |out|`). -/
structure EncLoop where
  enc : Enc
  rest : Window
  taken : Nat
  out : Window
  room : Nat
deriving DecidableEq, Repr

/-- What a call of `ENC.STEP` leaves and returns. -/
structure EncResult where
  enc : Enc
  consumed : Nat
  out : Window
  status : Status
deriving DecidableEq, Repr

/-- "an arm either changes state and falls through to the next repetition, or executes `return (i, out, status)`"
(41_cobsr_encoder.md R127). -/
inductive EncTurn where
  | again (c : EncLoop)
  | ret (r : EncResult)
deriving DecidableEq, Repr

/-- `return (i, out, status)`. -/
def encReturn (c : EncLoop) (st : Status) : EncTurn := .ret ⟨c.enc, c.taken, c.out, st⟩

/-- `emit(v)`, and the registers become `e`. -/
def encEmit (c : EncLoop) (v : Byte) (e : Enc) : EncLoop :=
  { c with enc := e, out := c.out ++ [v], room := c.room - 1 }

/-- Arm `CODE`: the code byte of the run is owed (41_cobsr_encoder.md R128). -/
def encArmCode (c : EncLoop) : EncTurn :=
  if c.room = 0 then encReturn c .moreOutput
  else .again (encEmit c c.enc.code { c.enc with pos := 0, phase := .data })

/-- The run's last byte has gone out: close it (41_cobsr_encoder.md R129, the `else` branch). -/
def encCloseRun (e : Enc) : Enc :=
  if e.final then { e with len := 0, phase := .delim }
  else { e with len := 0, phase := .accum, code := 0x00#8, n := 0, pos := 0, mode := .plain }

/-- Arm `DATA`: the run's bytes are owed (41_cobsr_encoder.md R129). -/
def encArmData (c : EncLoop) : EncTurn :=
  if c.enc.pos < c.enc.n then
    if c.room = 0 then encReturn c .moreOutput
    else .again (encEmit c (encBufAt c.enc c.enc.pos) { c.enc with pos := c.enc.pos + 1 })
  else .again { c with enc := encCloseRun c.enc }

/-- Arm `DELIM`: the delimiter is owed (41_cobsr_encoder.md R130). -/
def encArmDelim (c : EncLoop) : EncTurn :=
  if c.room = 0 then encReturn c .moreOutput
  else encReturn (encEmit c delim (encReset c.enc)) .frameComplete

/-- Case (d) of arm `ACCUM`, the end of the message: the final run, reduced when its last byte is at least the code
that would normally be emitted, otherwise plain (41_cobsr_encoder.md R131 (d), R122; 90_conflicts.md C2). -/
def encFinalFlush (e : Enc) : Enc :=
  if e.len ≥ 1 ∧ (encBufAt e (e.len - 1)).toNat ≥ e.len + 1 then
    startFlush e (encBufAt e (e.len - 1)) (e.len - 1) true .reduced
  else startFlush e (BitVec.ofNat 8 (e.len + 1)) e.len true .plain

/-- Arm `ACCUM`: taking message bytes, the cases in the order of 41_cobsr_encoder.md R131. -/
def encArmAccum (last : Bool) (c : EncLoop) : EncTurn :=
  match c.rest with
  | b :: rest =>
    -- (a) the run is full and more input follows; nothing is consumed
    if c.enc.len = maxRun then .again { c with enc := startFlush c.enc 0xFF#8 maxRun false .plain }
    -- (b) a zero ends the run; it is consumed, never stored
    else if b = 0x00#8 then
      .again { c with
        enc := startFlush c.enc (BitVec.ofNat 8 (c.enc.len + 1)) c.enc.len false .plain
        rest := rest, taken := c.taken + 1 }
    -- (c) a non-zero byte joins the run
    else
      .again { c with
        enc := { c.enc with buf := c.enc.buf.set c.enc.len b, len := c.enc.len + 1 }
        rest := rest, taken := c.taken + 1 }
  | [] =>
    -- (d) the end of the message
    if last then .again { c with enc := encFinalFlush c.enc }
    -- (e) the window is used up, the message is not over
    else encReturn c .moreInput

/-- One repetition: the arm for `ENC.e_phase` (41_cobsr_encoder.md R127). -/
def encArm (last : Bool) (c : EncLoop) : EncTurn :=
  match c.enc.phase with
  | .code => encArmCode c
  | .data => encArmData c
  | .delim => encArmDelim c
  | .accum => encArmAccum last c

/-- "repeat forever" (41_cobsr_encoder.md R127), cut off after the given number of repetitions. `encStep` gives it
more than the loop can take (`Laws/Encoder.lean`, `encLoop_fuel`), so the cut-off value is never returned
(assumption log 13). -/
def encLoop (last : Bool) : Nat → EncLoop → EncResult
  | 0, c => ⟨c.enc, c.taken, c.out, .moreOutput⟩
  | fuel + 1, c =>
    match encArm last c with
    | .again c' => encLoop last fuel c'
    | .ret r => r

/-- More repetitions than one call can take: each emits a byte, consumes a byte or changes phase
(41_cobsr_encoder.md R127: "The loop always ends"). -/
def encFuel (size cap : Nat) : Nat := 3 * cap + size + 3

/-- One call of `ENC.STEP in, last, cap` on the encoder registers (41_cobsr_encoder.md R127). -/
def encStep (e : Enc) (inp : Window) (last : Bool) (cap : Nat) : EncResult :=
  encLoop last (encFuel inp.length cap) ⟨e, inp, 0, [], cap⟩

/-! ## Operations -/

/-- `ENC.RESET` (41_cobsr_encoder.md R126). -/
def execEncReset (s : State) : Out := done (.status .ok) { s with enc := encReset s.enc }

/-- `ENC.STEP in, last, cap` (41_cobsr_encoder.md R127). -/
def execEncStep (inp : Window) (last : Bool) (cap : Nat) (s : State) : Out :=
  let r := encStep s.enc inp last cap
  done (.step r.consumed r.out r.status) { s with enc := r.enc }

/-- `ENC.STEP2 in0, in1, last, cap0, cap1` (41_cobsr_encoder.md R141). -/
def execEncStep2 (in0 in1 : Window) (last : Bool) (cap0 cap1 : Nat) (s : State) : Out :=
  let r := encStep s.enc (joinWindows in0 in1) last (cap0 + cap1)
  done (.step2 r.consumed (firstOut r.out cap0) (secondOut r.out cap0) r.status) { s with enc := r.enc }

/-- `ENC.ONESHOT in, cap` (41_cobsr_encoder.md R142): reset, one step over the whole message, reset. -/
def execEncOneshot (inp : Window) (cap : Nat) (s : State) : Out :=
  let r := encStep (encReset s.enc) inp true cap
  done (.out r.out (encOneshotStatus r.status)) { s with enc := encReset r.enc }

end Sys2Proof.Machine
end

