-- ==== Sys2Proof/Machine/Transmit.lean ====
section
/-! DEFINITION. The transmit ring's operations and the encoder run over it (43_transport_adapter.md sections 3 and 4). -/

namespace Sys2Proof.Machine

open Sys2Proof

/-- The length that `TXR.WINDOW` returns for a fresh sample of `TXR.rd`: `F1` of R202 (43_transport_adapter.md R222).
Its base is `TXR.wr`. -/
def txrWindowLen (s : State) : Nat := freeLen s.params.txCap s.txr.wr s.txr.rd

/-- The primitive `TXR.COMMIT in` (43_transport_adapter.md R223): the status and the state after; the bytes are stored
before `wr` publishes them (20_memory.md R52). -/
def txrCommit (inp : Window) (s : State) : Except Fault (Status × State) :=
  if inp.length > txrWindowLen s then .ok (.errRange, s)
  else do
    let s' ← memWrites s .txr s.txr.wr inp
    return (.ok, { s' with txr := { s'.txr with wr := advance s.params.txCap s.txr.wr inp.length } })

/-- What one pass, or the whole, of `TXR.ENCODE` gives. -/
structure TxEncoded where
  consumed : Nat
  status : Status
  state : State
deriving DecidableEq, Repr

/-- One pass of `TXR.ENCODE` on the message bytes not consumed yet: `WINDOW`, `ENC.STEP`, `COMMIT`, with the engine
steps that fall between them (43_transport_adapter.md R233). -/
def txrEncodePass (inp : Window) (last : Bool) (s : State) : Except Fault TxEncoded := do
  let len := txrWindowLen s
  let s1 ← interlude s
  let r := encStep s1.enc inp last len
  let s2 ← interlude { s1 with enc := r.enc }
  let (_, s3) ← txrCommit r.out s2
  return ⟨r.consumed, r.status, s3⟩

/-- `TXR.ENCODE in, last` up to its return: the second pass runs only when the first filled its window, and samples
`TXR.rd` afresh (43_transport_adapter.md R233). -/
def txrEncode (inp : Window) (last : Bool) (s : State) : Except Fault TxEncoded := do
  let p1 ← txrEncodePass inp last s
  if p1.status ≠ .moreOutput then
    return p1
  let s' ← interlude p1.state
  let p2 ← txrEncodePass (inp.drop p1.consumed) last s'
  return { p2 with consumed := p1.consumed + p2.consumed }

/-! ## Operations -/

/-- `TXR.RESET` (43_transport_adapter.md R221): `storage` is not changed. -/
def execTxrReset (s : State) : Out :=
  done (.status .ok) { s with txr := { s.txr with rd := 0, wr := 0 } }

/-- `TXR.WINDOW` (43_transport_adapter.md R222). -/
def execTxrWindow (s : State) : Out := done (.txWindow s.txr.wr (txrWindowLen s) .ok) s

/-- `TXR.COMMIT in` (43_transport_adapter.md R223). -/
def execTxrCommit (inp : Window) (s : State) : Out :=
  orFault (txrCommit inp s) fun (st, s') => done (.status st) s'

/-- `TXR.ENCODE in, last` (43_transport_adapter.md R233). -/
def execTxrEncode (inp : Window) (last : Bool) (s : State) : Out :=
  orFault (txrEncode inp last s) fun p => done (.consumed p.consumed p.status) p.state

end Sys2Proof.Machine
end

