-- ==== Sys2Proof/Machine/Dispatch.lean ====
section
/-! DEFINITION. One arm per operation of 30_encoding.md R71. -/

namespace Sys2Proof.Machine

open Sys2Proof

/-- What an operation does when `HOST` issues it (30_encoding.md R71, the `rule` column). -/
def exec (i : Instr) (s : State) : Host.Outcome State Fault Refusal :=
  match i with
  | .crc16Init => Sys2Proof.Machine.execCrc16Init s
  | .crc16Updb b => Sys2Proof.Machine.execCrc16Updb b s
  | .crc16Upd inp => Sys2Proof.Machine.execCrc16Upd inp s
  | .crc16Final => Sys2Proof.Machine.execCrc16Final s
  | .crc32Init => Sys2Proof.Machine.execCrc32Init s
  | .crc32Updb b => Sys2Proof.Machine.execCrc32Updb b s
  | .crc32Upd inp => Sys2Proof.Machine.execCrc32Upd inp s
  | .crc32Final => Sys2Proof.Machine.execCrc32Final s
  | .encReset => Sys2Proof.Machine.execEncReset s
  | .encStep inp last cap => Sys2Proof.Machine.execEncStep inp last cap s
  | .encStep2 in0 in1 last cap0 cap1 => Sys2Proof.Machine.execEncStep2 in0 in1 last cap0 cap1 s
  | .encOneshot inp cap => Sys2Proof.Machine.execEncOneshot inp cap s
  | .decReset => Sys2Proof.Machine.execDecReset s
  | .decStep inp cap => Sys2Proof.Machine.execDecStep inp cap s
  | .decStep2 in0 in1 cap0 cap1 => Sys2Proof.Machine.execDecStep2 in0 in1 cap0 cap1 s
  | .decOneshot inp cap => Sys2Proof.Machine.execDecOneshot inp cap s
  | .rxrReset => Sys2Proof.Machine.execRxrReset s
  | .rxrWindow => Sys2Proof.Machine.execRxrWindow s
  | .rxrCommit n => Sys2Proof.Machine.execRxrCommit n s
  | .rxrDecode cap => Sys2Proof.Machine.execRxrDecode cap s
  | .txrReset => Sys2Proof.Machine.execTxrReset s
  | .txrWindow => Sys2Proof.Machine.execTxrWindow s
  | .txrCommit inp => Sys2Proof.Machine.execTxrCommit inp s
  | .txrEncode inp last => Sys2Proof.Machine.execTxrEncode inp last s

end Sys2Proof.Machine
end

