-- ==== Sys2Proof/WellFormed.lean ====
section
/-! DEFINITION. Which operations and which requests are well formed. -/

namespace Sys2Proof

/-- Every operation is well formed with every operand: each "is a deterministic total function of the block's state
and the operation's operands" (00_scope.md R6), no operand has a bound (30_encoding.md R73), and the width of a byte
operand is in its type. -/
abbrev Instr.wellFormed (_ : Instr) : Prop := True

/-- `op[7:4]`, the unit of an operation word (30_encoding.md R70). -/
def unitField (w : Byte) : Nat := w.toNat / 16

/-- `op[3:0]`, the function within the unit (30_encoding.md R70). -/
def fnField (w : Byte) : Nat := w.toNat % 16

/-- The assigned operation words: units 0 to 5, functions 0 to 3; every other word is reserved (30_encoding.md R71,
R75). -/
abbrev assignedWord (w : Byte) : Prop := unitField w ≤ 5 ∧ fnField w ≤ 3

/-- The operand format of an assigned word, the `format` column of 30_encoding.md R71; a reserved word has none. -/
def wordFormat (w : Byte) : Option Format :=
  match unitField w, fnField w with
  | 0, 0 => some .n
  | 0, 1 => some .b
  | 0, 2 => some .w
  | 0, 3 => some .n
  | 1, 0 => some .n
  | 1, 1 => some .b
  | 1, 2 => some .w
  | 1, 3 => some .n
  | 2, 0 => some .n
  | 2, 1 => some .wlc
  | 2, 2 => some .wwlcc
  | 2, 3 => some .wc
  | 3, 0 => some .n
  | 3, 1 => some .wc
  | 3, 2 => some .wwcc
  | 3, 3 => some .wc
  | 4, 0 => some .n
  | 4, 1 => some .n
  | 4, 2 => some .c
  | 4, 3 => some .c
  | 5, 0 => some .n
  | 5, 1 => some .n
  | 5, 2 => some .w
  | 5, 3 => some .wl
  | _, _ => none

/-- The operand places a format does not name, all idle (30_encoding.md R72). -/
def Operands.onlyUses (o : Operands) : Format → Bool
  | .n => o == .idle
  | .b => o == { Operands.idle with byte := o.byte }
  | .w => o == { Operands.idle with win0 := o.win0 }
  | .c => o == { Operands.idle with num0 := o.num0 }
  | .wc => o == { Operands.idle with win0 := o.win0, num0 := o.num0 }
  | .wl => o == { Operands.idle with win0 := o.win0, last := o.last }
  | .wlc => o == { Operands.idle with win0 := o.win0, last := o.last, num0 := o.num0 }
  | .wwcc => o == { Operands.idle with win0 := o.win0, win1 := o.win1, num0 := o.num0, num1 := o.num1 }
  | .wwlcc => o == { o with byte := 0x00#8 }

/-- A well-formed request: its word is assigned, and it presents operands in the places its format names and
nowhere else. A request that is not so is still answered by the block (30_encoding.md R75, assumption log 9); this
says which requests are the one written form of an operation. -/
def Request.wellFormed (r : Request) : Bool :=
  match wordFormat r.word with
  | some f => r.operands.onlyUses f
  | none => false

end Sys2Proof
end

