-- ==== Sys2Proof/Decode.lean ====
section
/-! DEFINITION. From an operation word and the operands beside it to an operation, and back (30_encoding.md part B). -/

namespace Sys2Proof

/-- Why a word is no operation. Both are the reserved words of 30_encoding.md R75, by which field is reserved. -/
inductive Reject where
  /-- `unit` in `6..15`, with any `fn`. -/
  | reservedUnit (unit fn : Nat)
  /-- `fn` in `4..15` within units 0 to 5. -/
  | reservedFn (unit fn : Nat)
deriving DecidableEq, Repr

/-- The decoder: the opcode map of 30_encoding.md R71 on `unit` and `fn`, the operands taken from the places the
row's format names (R72). Total; a reserved word is rejected by name (R75). "The operation word is decoded first: a
reserved word returns `ERR_ILLEGAL_OP` whatever operands accompany it" (60_exceptions.md R252). -/
def decode (r : Request) : Except Reject Instr :=
  let o := r.operands
  match unitField r.word, fnField r.word with
  | 0, 0 => .ok .crc16Init
  | 0, 1 => .ok (.crc16Updb o.byte)
  | 0, 2 => .ok (.crc16Upd o.win0)
  | 0, 3 => .ok .crc16Final
  | 1, 0 => .ok .crc32Init
  | 1, 1 => .ok (.crc32Updb o.byte)
  | 1, 2 => .ok (.crc32Upd o.win0)
  | 1, 3 => .ok .crc32Final
  | 2, 0 => .ok .encReset
  | 2, 1 => .ok (.encStep o.win0 o.last o.num0)
  | 2, 2 => .ok (.encStep2 o.win0 o.win1 o.last o.num0 o.num1)
  | 2, 3 => .ok (.encOneshot o.win0 o.num0)
  | 3, 0 => .ok .decReset
  | 3, 1 => .ok (.decStep o.win0 o.num0)
  | 3, 2 => .ok (.decStep2 o.win0 o.win1 o.num0 o.num1)
  | 3, 3 => .ok (.decOneshot o.win0 o.num0)
  | 4, 0 => .ok .rxrReset
  | 4, 1 => .ok .rxrWindow
  | 4, 2 => .ok (.rxrCommit o.num0)
  | 4, 3 => .ok (.rxrDecode o.num0)
  | 5, 0 => .ok .txrReset
  | 5, 1 => .ok .txrWindow
  | 5, 2 => .ok (.txrCommit o.win0)
  | 5, 3 => .ok (.txrEncode o.win0 o.last)
  | u, f => if u ≤ 5 then .error (.reservedFn u f) else .error (.reservedUnit u f)

/-- The operation word of an operation, the `op` column of 30_encoding.md R71. -/
def opWord : Instr → Byte
  | .crc16Init => 0x00#8
  | .crc16Updb _ => 0x01#8
  | .crc16Upd _ => 0x02#8
  | .crc16Final => 0x03#8
  | .crc32Init => 0x10#8
  | .crc32Updb _ => 0x11#8
  | .crc32Upd _ => 0x12#8
  | .crc32Final => 0x13#8
  | .encReset => 0x20#8
  | .encStep _ _ _ => 0x21#8
  | .encStep2 _ _ _ _ _ => 0x22#8
  | .encOneshot _ _ => 0x23#8
  | .decReset => 0x30#8
  | .decStep _ _ => 0x31#8
  | .decStep2 _ _ _ _ => 0x32#8
  | .decOneshot _ _ => 0x33#8
  | .rxrReset => 0x40#8
  | .rxrWindow => 0x41#8
  | .rxrCommit _ => 0x42#8
  | .rxrDecode _ => 0x43#8
  | .txrReset => 0x50#8
  | .txrWindow => 0x51#8
  | .txrCommit _ => 0x52#8
  | .txrEncode _ _ => 0x53#8

/-- The operands of an operation in their places, every other place idle (30_encoding.md R72). -/
def opOperands : Instr → Operands
  | .crc16Init | .crc16Final | .crc32Init | .crc32Final => .idle
  | .encReset | .decReset | .rxrReset | .rxrWindow | .txrReset | .txrWindow => .idle
  | .crc16Updb b | .crc32Updb b => { Operands.idle with byte := b }
  | .crc16Upd w | .crc32Upd w | .txrCommit w => { Operands.idle with win0 := w }
  | .encStep w l c => { Operands.idle with win0 := w, last := l, num0 := c }
  | .encStep2 w v l c d => ⟨0x00#8, w, v, l, c, d⟩
  | .encOneshot w c | .decStep w c | .decOneshot w c => { Operands.idle with win0 := w, num0 := c }
  | .decStep2 w v c d => { Operands.idle with win0 := w, win1 := v, num0 := c, num1 := d }
  | .rxrCommit n | .rxrDecode n => { Operands.idle with num0 := n }
  | .txrEncode w l => { Operands.idle with win0 := w, last := l }

/-- The encoder: the request by which `HOST` issues an operation. -/
def encode (i : Instr) : Request := ⟨opWord i, opOperands i⟩

/-- The request whose word is the low 8 bits of `w`, every operand place idle: the one-word image of a table row. -/
def tableRequest (w : Nat) : Request := ⟨BitVec.ofNat 8 w, .idle⟩

/-- The operation the decoder reads from a word of `nbits` bits, operands idle. An operation word has one length, 8
bits (30_encoding.md R76); no other length is one. -/
def decodeTableWord (nbits w : Nat) : Option Instr :=
  if nbits = 8 then
    match decode (tableRequest w) with
    | .ok i => some i
    | .error _ => none
  else none

end Sys2Proof
end

