-- ==== Sys2Proof/Machine/Issue.lean ====
section
/-! DEFINITION. How an operation comes from `HOST`, and what the machine answers around one (30_encoding.md R70, R75). -/

namespace Sys2Proof.Machine

open Sys2Proof

/-- The next operation `HOST` issues, and the state with it taken off the list; none when `HOST` has none
(10_state.md R26; assumption log 2). -/
def fetchRequest (s : State) : Option (Request × State) :=
  match s.requests with
  | [] => none
  | r :: rest => some (r, { s with requests := rest })

/-- A reserved operation word: status `ERR_ILLEGAL_OP`, no state change (30_encoding.md R75, U4). -/
def illegalOp (s : State) : Out := done (.status .errIllegalOp) s

/-- An engine's turn, taken alone. -/
def engineTurn (x : Except Fault State) : Out := orFault x fun s => .next s

end Sys2Proof.Machine
end

