-- ==== Sys2Proof/Machine/Step.lean ====
section
/-! DEFINITION. One step of the machine: a step of the agent whose turn it is (20_memory.md R51, 00_scope.md R5). -/

namespace Sys2Proof.Machine

open Sys2Proof

/-- `HOST`'s turn: it issues the next operation it has, if any. A reserved word "changes no state and returns
`ERR_ILLEGAL_OP`" (30_encoding.md R75); with nothing to issue `HOST` does nothing (assumption log 2). -/
def hostTurn (s : State) : Host.Outcome State Fault Refusal :=
  match fetchRequest s with
  | none => .next s
  | some (r, s') =>
    match decode r with
    | .ok i => exec i s'
    | .error _ => illegalOp s'

/-- One step: of the engine at the head of the schedule, or of `HOST`. A state whose parameters are no configuration
of the block is refused (93_implementation_defined.md U10; assumption log 12). -/
def step (s : State) : Host.Outcome State Fault Refusal :=
  if s.params.valid then
    match s.sched with
    | .rxeng v :: rest => engineTurn (rxengPut v { s with sched := rest })
    | .txeng k :: rest => engineTurn (txengTake k { s with sched := rest })
    | .host :: rest => hostTurn { s with sched := rest }
    | [] => hostTurn s
  else .refused .noConfiguration

/-- The word `w`, operands idle, as the operation `HOST` issues at the very next step: at the head of `requests`, and
the next turn `HOST`'s. Nothing else changes (assumption log 2). An operation word has 8 bits (30_encoding.md R76). -/
def State.withFetchWord (s : State) (_nbits w : Nat) : State :=
  { s with requests := tableRequest w :: s.requests, sched := .host :: s.sched }

end Sys2Proof.Machine
end

