-- ==== Sys2Proof/Machine/Pseudo.lean ====
section
/-! DEFINITION. The pseudo-operations of 30_encoding.md R78, "each an abbreviation for a sequence of real operations". -/

namespace Sys2Proof.Machine

open Sys2Proof

/-- `CRC16.CALC s` (30_encoding.md R78). -/
def crc16Calc (s : Window) : List Instr := [.crc16Init, .crc16Upd s, .crc16Final]

/-- `CRC32.CALC s` (30_encoding.md R78). -/
def crc32Calc (s : Window) : List Instr := [.crc32Init, .crc32Upd s, .crc32Final]

/-- `ENC.FRAME x`: `cap = n + ceil(n / 254) + 2`, `n` being the length of `x` (30_encoding.md R78). -/
def encFrame (x : Window) : List Instr := [.encOneshot x (x.length + (x.length + 253) / 254 + 2)]

/-- Operations issued one after the other; a stop ends the sequence. -/
def execAll : List Instr → State → Out
  | [], s => .next s
  | i :: rest, s =>
    match exec i s with
    | .next t => execAll rest t
    | .fault f => .fault f
    | .refused r => .refused r

end Sys2Proof.Machine
end

