-- ==== Sys2Proof/Machine/Cobsr.lean ====
section
/-! DEFINITION. The COBS/R frame as a pure function of the message, and the message as a pure function of the body
(41_cobsr_encoder.md section 1, 42_cobsr_decoder.md section 1). No operation calls these: they say what the codec is
to compute. -/

namespace Sys2Proof.Machine

open Sys2Proof

/-- A sequence with no `0x00` in it: a body (30_encoding.md R61, R64). -/
abbrev zeroFree (s : Window) : Prop := ∀ b ∈ s, b ≠ 0x00#8

/-- The code "(run length + 1)" of a run (30_encoding.md R62). -/
def runCode (r : Window) : Byte := BitVec.ofNat 8 (r.length + 1)

/-- The last byte of a run, when it is at least the code that would normally be emitted (41_cobsr_encoder.md R122). -/
def reducedCode (r : Window) : Option Byte :=
  match r.getLast? with
  | some v => if v.toNat ≥ r.length + 1 then some v else none
  | none => none

/-- `final(r)` (41_cobsr_encoder.md R120): the final run, reduced or plain. -/
def finalBlock (r : Window) : Window :=
  match reducedCode r with
  | some v => v :: r.dropLast
  | none => runCode r :: r

/-- `encrun(r, x)` (41_cobsr_encoder.md R120). In the second case, where R120 goes on with `encrun(⟨⟩, x)` and `x` not
empty, that call's own case is written out, so that each call takes a byte. -/
def encRun : Window → Window → Window
  | r, [] => finalBlock r
  | r, b :: x =>
    if r.length = maxRun then
      0xFF#8 :: r ++ (if b = 0x00#8 then runCode [] :: encRun [] x else encRun [b] x)
    else if b = 0x00#8 then runCode r :: r ++ encRun [] x
    else encRun (r ++ [b]) x

/-- `enc(x)`, the canonical body of a message (41_cobsr_encoder.md R120). -/
def encBody (x : Window) : Window := encRun [] x

/-- `frame(x) = enc(x) ‖ ⟨00⟩` (41_cobsr_encoder.md R121). -/
def frameOf (x : Window) : Window := encBody x ++ [delim]

/-- `dec` of 42_cobsr_decoder.md R160, cut off after the given number of blocks. -/
def decBlocks : Nat → Window → Window
  | 0, _ => []
  | _ + 1, [] => []
  | fuel + 1, c :: t =>
    if c.toNat - 1 > t.length then t ++ [c]
    else if c.toNat - 1 = t.length then t
    else if c = 0xFF#8 then t.take maxRun ++ decBlocks fuel (t.drop maxRun)
    else t.take (c.toNat - 1) ++ 0x00#8 :: decBlocks fuel (t.drop (c.toNat - 1))

/-- `dec(s)`, the meaning of a body (42_cobsr_decoder.md R160). A body of `n` bytes has at most `n` blocks. -/
def decBody (s : Window) : Window := decBlocks s.length s

end Sys2Proof.Machine
end

