-- ==== Sys2Proof/Safety.lean ====
section
/-! DEFINITION. The terms in which claims about the machine are stated: the state invariant, what a ring holds, what a
codec unit still owes, and sequences of calls. -/

namespace Sys2Proof.Machine

open Sys2Proof

/-! ## The invariant -/

/-- The run held in the encoder's buffer: `e_buf[0..e_len)`. -/
def encRunHeld (e : Enc) : Window := e.buf.take e.len

/-- The encoder invariants of 10_state.md R15, and the ranges of R14 in every phase (in phase `DELIM` R15 itself asks
nothing of `e_n` and `e_pos`). `e_n = e_len - 1` is read over the integers
(assumption log 14), so it is written `e_n + 1 = e_len`. -/
structure EncInv (e : Enc) : Prop where
  buf_size : e.buf.length = 254
  len_le : e.len ≤ 254
  n_le : e.n ≤ 254
  pos_le : e.pos ≤ 254
  held_nonzero : zeroFree (encRunHeld e)
  in_accum : e.phase = .accum → e.n = 0 ∧ e.pos = 0 ∧ e.final = false ∧ e.mode = .plain ∧ e.code = 0x00#8
  in_run : e.phase = .code ∨ e.phase = .data → e.pos ≤ e.n ∧ e.n ≤ e.len ∧ e.code ≠ 0x00#8 ∧
    (e.mode = .reduced ↔ e.n + 1 = e.len ∧ e.final = true ∧ e.code = encBufAt e (e.len - 1))
  in_delim : e.phase = .delim → e.final = true

/-- The decoder invariants of 10_state.md R18. -/
structure DecInv (d : Dec) : Prop where
  run_le : d.run ≤ 254
  run_lt_code : d.code ≠ 0x00#8 → d.run ≤ d.code.toNat - 1
  at_start : d.code = 0x00#8 → d.run = 0 ∧ d.mode = .plain
  in_reduced : d.mode = .reduced → d.code ≠ 0x00#8 ∧ 1 ≤ d.run

/-- A ring of capacity `cap`: cursors in `0..CAP-1` (10_state.md R20, 43_transport_adapter.md R200), storage in
canonical form with no slot outside `0..CAP-1` (20_memory.md R40). -/
structure RingInv (cap : Nat) (r : Ring) : Prop where
  rd_lt : r.rd < cap
  wr_lt : r.wr < cap
  storage_wf : r.storage.wf
  slots_lt : ∀ c ∈ r.storage, c.1 < cap

/-- The invariant of the block's state. -/
structure Inv (s : State) : Prop where
  params : s.params.valid
  enc : EncInv s.enc
  dec : DecInv s.dec
  rxr : RingInv s.params.rxCap s.rxr
  txr : RingInv s.params.txCap s.txr

/-! ## Turns -/

/-- No engine step falls anywhere: every turn listed is `HOST`'s. -/
abbrev quiet (turns : List Turn) : Prop := ∀ t ∈ turns, t.isEngine = false

/-- The bytes that `RXENG` receives in a stretch of turns, in order. -/
def arrivals (turns : List Turn) : Window :=
  turns.filterMap fun
    | .rxeng v => some v
    | _ => none

/-! ## What a ring holds -/

/-- The `n` bytes of storage from slot `base` on. -/
def slotBytes (m : Memory) (base : Nat) : Nat → Window
  | 0 => []
  | n + 1 => m.read base :: slotBytes m (base + 1) n

/-- The bytes of the occupied region in arrival order: those of `W1`, then those of `W2` (43_transport_adapter.md
R201). -/
def pending (cap : Nat) (r : Ring) : Window :=
  slotBytes r.storage r.rd (occLen cap r.rd r.wr) ++ slotBytes r.storage 0 (occLen2 r.rd r.wr)

/-- Received bytes that `HOST` has not released yet. -/
def rxPending (s : State) : Window := pending s.params.rxCap s.rxr

/-- Committed bytes that `TXENG` has not taken yet. -/
def txPending (s : State) : Window := pending s.params.txCap s.txr

/-! ## What a codec unit owes -/

/-- What the encoder puts out, from its registers on, when the rest of the message is `x`: the bytes still owed of the
run being emitted, then the rest of the frame (41_cobsr_encoder.md R120, R128 to R131). -/
def encOwes (e : Enc) (x : Window) : Window :=
  match e.phase with
  | .accum => encRun (encRunHeld e) x ++ [delim]
  | .delim => [delim]
  | .code => e.code :: e.buf.take e.n ++ afterRun
  | .data => (e.buf.take e.n).drop e.pos ++ afterRun
where
  /-- what follows the run being emitted -/
  afterRun : Window := if e.final then [delim] else encRun [] x ++ [delim]

/-- What follows a block with code `c` when the rest of the body is `t`: nothing at the end of the body; otherwise the
zero the block boundary stands for, unless the block was a full one, and then the rest (30_encoding.md R63). -/
def decAfterBlock (c : Byte) (t : Window) : Window :=
  if t = [] then []
  else if c ≠ 0x00#8 ∧ c ≠ 0xFF#8 then 0x00#8 :: decBody t
  else decBody t

/-- What the decoder puts out, from its registers on, up to the end of the frame, when the stream goes on with
`stream`: every `0x00` of the stream is a delimiter (42_cobsr_decoder.md R160, R165). -/
def decOwes (d : Dec) (stream : Window) : Window :=
  if d.mode = .reduced then [d.code]
  else
    let body := stream.takeWhile (· ≠ 0x00#8)
    if d.run > body.length then body ++ [d.code]
    else body.take d.run ++ decAfterBlock d.code (body.drop d.run)

/-! ## Bytes that no rule reads -/

/-- Two states alike in everything but bytes that no rule reads while `RXR.ovr` is 0: slots outside the occupied regions, and `e_buf[j]`
for `j >= e_len` (10_state.md R32, R34; 93_implementation_defined.md U2). -/
structure AgreeOnRead (s t : State) : Prop where
  rest : t = { s with
    enc := { s.enc with buf := t.enc.buf }
    rxr := { s.rxr with storage := t.rxr.storage }
    txr := { s.txr with storage := t.txr.storage } }
  held : encRunHeld t.enc = encRunHeld s.enc
  rx : rxPending t = rxPending s
  tx : txPending t = txPending s

/-! ## Sequences of calls -/

/-- The results of the newest entry of the trace, if it is one of a streaming step. -/
def lastStep (s : State) : Option (Nat × Window × Status) :=
  match s.trace.getLast? with
  | some (.returned (.step c o st)) => some (c, o, st)
  | _ => none

/-- A sequence of `ENC.STEP` calls that spell the message `x` (41_cobsr_encoder.md R137): call by call a window length
and a capacity; the window is the front of what is left of `x`, `last = 1` when it reaches the end. The calls stop at
`FRAME_COMPLETE`: then the outputs, concatenated, and the state. None when no call returns it, or one is not
answered. -/
def encodeCalls (s : State) (x : Window) : List (Nat × Nat) → Option (Window × State)
  | [] => none
  | (n, cap) :: calls =>
    match exec (.encStep (x.take n) (decide (x.length ≤ n)) cap) s with
    | .next t =>
      match lastStep t with
      | some (c, o, st) =>
        if st = .frameComplete then some (o, t)
        else (encodeCalls t (x.drop c) calls).map fun (os, u) => (o ++ os, u)
      | none => none
    | _ => none

/-- A sequence of `DEC.STEP` calls over a stream (42_cobsr_decoder.md R174), windows cut anywhere, each next window
starting after the bytes the previous call consumed. At `FRAME_COMPLETE`: the outputs concatenated, the number of bytes
consumed in all, and the state. -/
def decodeCalls (s : State) (stream : Window) : List (Nat × Nat) → Option (Window × Nat × State)
  | [] => none
  | (n, cap) :: calls =>
    match exec (.decStep (stream.take n) cap) s with
    | .next t =>
      match lastStep t with
      | some (c, o, st) =>
        if st = .frameComplete then some (o, c, t)
        else (decodeCalls t (stream.drop c) calls).map fun (os, k, u) => (o ++ os, c + k, u)
      | none => none
    | _ => none

/-! ## Runs -/

/-- The state with turns and operations added from outside, each after those already listed (assumption logs 2, 3). -/
def fed (s : State) (turns : List Turn) (ops : List Request) : State :=
  { s with sched := s.sched ++ turns, requests := s.requests ++ ops }

/-- An endless run of the block: step after step, with turns and operations added from outside before any of them. -/
def IsRun (run : Nat → State) : Prop :=
  ∀ n, ∃ turns ops, step (fed (run n) turns ops) = .next (run (n + 1))

/-- `TXENG` is weakly fair in a run: "a transmit ring that stays non-empty is eventually taken from"
(70_reset_and_hazards.md R301). A `TXENG.TAKE`, taken alone or inside a composite, is what makes the wire's history
longer (10_state.md R30). Nothing is asked of `RXENG`, and no claim about single steps needs this. -/
def TxengWeaklyFair (run : Nat → State) : Prop :=
  ∀ n, (∀ m, n ≤ m → (run m).txr.rd ≠ (run m).txr.wr) →
    ∃ m, n ≤ m ∧ (run m).wireTx.length < (run (m + 1)).wireTx.length

end Sys2Proof.Machine
end

