-- ==== Sys2Proof/Certificates/Slice0/Obligations.lean ====
section
/-! DEFINITION. What is to be proved of the machine: one `Prop` per entry of OBLIGATIONS.json. -/

open Sys2Proof Sys2Proof.Machine

/-! ## Encoding (30_encoding.md part B) -/

/-- R71, R72, R75: every operation has a well-formed request, which decodes to it; a well-formed request that decodes
is the one written form of what it decodes to; no word decodes but the assigned ones. That an assigned word decodes
also when a place its format does not name is filled is the model's choice (assumption log 9). -/
def Obligations.RequestRoundTrip : Prop :=
  (∀ i : Instr, i.wellFormed → (encode i).wellFormed = true ∧ decode (encode i) = .ok i) ∧
  (∀ (r : Request) (i : Instr), r.wellFormed = true → decode r = .ok i → encode i = r) ∧
  (∀ r : Request, (∃ i, decode r = .ok i) ↔ assignedWord r.word)

/-- R71: one word of every unit, with the operands its format names. That what stands in the other places does not
matter is the model's choice (assumption log 9). -/
def Obligations.SampleWordsDecode : Prop :=
  ∀ o : Operands,
    decode ⟨0x02#8, o⟩ = .ok (.crc16Upd o.win0) ∧
    decode ⟨0x11#8, o⟩ = .ok (.crc32Updb o.byte) ∧
    decode ⟨0x22#8, o⟩ = .ok (.encStep2 o.win0 o.win1 o.last o.num0 o.num1) ∧
    decode ⟨0x31#8, o⟩ = .ok (.decStep o.win0 o.num0) ∧
    decode ⟨0x42#8, o⟩ = .ok (.rxrCommit o.num0) ∧
    decode ⟨0x53#8, o⟩ = .ok (.txrEncode o.win0 o.last)

/-- R75, R252: a reserved word, whatever operands accompany it, changes nothing of the block and returns
`ERR_ILLEGAL_OP`. (`requests`, `sched` and `trace` are the model's own fields.) -/
def Obligations.ReservedWordChangesNothing : Prop :=
  ∀ (s : State) (r : Request) (rest : List Request),
    s.params.valid → (s.sched = [] ∨ ∃ turns, s.sched = .host :: turns) → s.requests = r :: rest →
    ¬ assignedWord r.word →
    step s = .next ({ s with requests := rest, sched := s.sched.tail }.reply (.status .errIllegalOp))

/-- A step at `HOST`'s turn runs the operation that the next request decodes to, with the request taken off `HOST`'s
list and the turn off the schedule. -/
def Obligations.StepRunsDecodedOperation : Prop :=
  ∀ (s : State) (r : Request) (rest : List Request) (i : Instr),
    s.params.valid → (s.sched = [] ∨ ∃ turns, s.sched = .host :: turns) → s.requests = r :: rest →
    decode r = .ok i → i.wellFormed →
    step s = exec i { s with requests := rest, sched := s.sched.tail }

/-! ## CRC accumulators (40_crc.md) -/

/-- R93, R97, R281: `INIT` loads the seed and touches nothing else; at the default parameters the all-ones seeds. -/
def Obligations.CrcInitLoadsSeed : Prop :=
  ∀ s : State,
    exec .crc16Init s = .next ({ s with crc16 := some s.params.crc16Seed }.reply (.status .ok)) ∧
    exec .crc32Init s = .next ({ s with crc32 := some s.params.crc32Seed }.reply (.status .ok)) ∧
    (s.params = Params.default → s.params.crc16Seed = 0xFFFF#16 ∧ s.params.crc32Seed = 0xFFFFFFFF#32)

/-- R92, R94, R98: the table-driven byte update is the bit-serial one, and touches nothing but its accumulator. -/
def Obligations.CrcByteUpdateIsBitSerial : Prop :=
  ∀ (s : State) (b : Byte),
    (∀ a, s.crc16 = some a → exec (.crc16Updb b) s =
      .next ({ s with crc16 := some (crcShifts s.params.crc16Poly 8 (a ^^^ b.setWidth 16)) }.reply (.status .ok))) ∧
    (∀ a, s.crc32 = some a → exec (.crc32Updb b) s =
      .next ({ s with crc32 := some (crcShifts s.params.crc32Poly 8 (a ^^^ b.setWidth 32)) }.reply (.status .ok)))

/-- R95, R99, R101, R92: the bulk update is the left fold of the byte update in index order, and touches nothing but
its accumulator. -/
def Obligations.CrcBulkUpdateFoldsBytes : Prop :=
  ∀ (s : State) (inp : Window),
    (∀ a, s.crc16 = some a → exec (.crc16Upd inp) s =
      .next ({ s with crc16 := some (inp.foldl (crcUpd1Serial s.params.crc16Poly) a) }.reply (.status .ok))) ∧
    (∀ a, s.crc32 = some a → exec (.crc32Upd inp) s =
      .next ({ s with crc32 := some (inp.foldl (crcUpd1Serial s.params.crc32Poly) a) }.reply (.status .ok)))

/-- R96, R100: `FINAL` returns the accumulator XORed with `XOROUT` and changes nothing. -/
def Obligations.CrcFinalReturnsXor : Prop :=
  ∀ s : State,
    (∀ a, s.crc16 = some a → exec .crc16Final s = .next (s.reply (.crc16 (a ^^^ s.params.crc16Xorout) .ok))) ∧
    (∀ a, s.crc32 = some a → exec .crc32Final s = .next (s.reply (.crc32 (a ^^^ s.params.crc32Xorout) .ok)))

/-- R31 (with U1): update or final on an accumulator that no `INIT` has written is the model's fault. -/
def Obligations.CrcBeforeInitFaults : Prop :=
  ∀ (s : State) (b : Byte) (inp : Window),
    (s.crc16 = none → exec (.crc16Updb b) s = .fault .crc16BeforeInit ∧
      exec (.crc16Upd inp) s = .fault .crc16BeforeInit ∧ exec .crc16Final s = .fault .crc16BeforeInit) ∧
    (s.crc32 = none → exec (.crc32Updb b) s = .fault .crc32BeforeInit ∧
      exec (.crc32Upd inp) s = .fault .crc32BeforeInit ∧ exec .crc32Final s = .fault .crc32BeforeInit)

/-- R107, R101, R104, R105: a sum over fragments is the sum over the whole, from any state. -/
def Obligations.CrcOfFragments : Prop :=
  ∀ (s : State) (u v : Window),
    (∃ t, execAll [.crc16Init, .crc16Upd u, .crc16Upd v, .crc16Final] s = .next t ∧
      t = { s with
        crc16 := some (crcUpd s.params.crc16Poly s.params.crc16Seed (u ++ v))
        trace := s.trace ++ [.returned (.status .ok), .returned (.status .ok), .returned (.status .ok),
          .returned (.crc16 (crc16Of s.params (u ++ v)) .ok)] }) ∧
    (∃ t, execAll [.crc32Init, .crc32Upd u, .crc32Upd v, .crc32Final] s = .next t ∧
      t = { s with
        crc32 := some (crcUpd s.params.crc32Poly s.params.crc32Seed (u ++ v))
        trace := s.trace ++ [.returned (.status .ok), .returned (.status .ok), .returned (.status .ok),
          .returned (.crc32 (crc32Of s.params (u ++ v)) .ok)] })

/-- R107: for a polynomial whose top bit is set, the byte update is a bijection on accumulator values. -/
def Obligations.CrcByteUpdateBijective : Prop :=
  (∀ (poly : BitVec 16) (b : Byte), poly.getLsbD 15 = true → Function.Bijective fun a => crcUpd1 poly a b) ∧
  (∀ (poly : BitVec 32) (b : Byte), poly.getLsbD 31 = true → Function.Bijective fun a => crcUpd1 poly a b)

/-- R13: an operation of another unit neither reads nor writes a CRC engine's accumulator: it leaves it as it is, and
does the same whatever it holds. Unit 0 is `CRC16`, unit 1 `CRC32`. (Where the receive ring has overrun, both sides draw
the same free values: by R13 they do not depend on an accumulator, assumption log 8.) -/
def Obligations.CrcEnginesIndependent : Prop :=
  ∀ (i : Instr) (s t : State), exec i s = .next t →
    (unitField (opWord i) ≠ 0 → t.crc16 = s.crc16 ∧
      ∀ x, exec i { s with crc16 := x } = .next { t with crc16 := x }) ∧
    (unitField (opWord i) ≠ 1 → t.crc32 = s.crc32 ∧
      ∀ x, exec i { s with crc32 := x } = .next { t with crc32 := x })

/-! ## Encoder (41_cobsr_encoder.md) -/

/-- R126, R32, R281: `ENC.RESET` restores every encoder register but `e_buf`, and touches nothing else. -/
def Obligations.EncResetRestores : Prop :=
  ∀ s : State, exec .encReset s =
    .next ({ s with enc := ⟨.accum, s.enc.buf, 0, 0x00#8, 0, 0, false, .plain⟩ }.reply (.status .ok))

/-- One call of `ENC.STEP` from any state that meets the encoder invariants, whatever the windows: it touches only the
encoder, keeps the invariants, and what it puts out is the front of what the encoder owed, the rest being owed by the
registers it leaves (or nothing, when the frame is complete). `y` is the message after this window. -/
def Obligations.EncStepPaysWhatIsOwed : Prop :=
  ∀ (s : State) (inp y : Window) (last : Bool) (cap : Nat),
    EncInv s.enc → (last = true → y = []) →
    ∃ e c o st, exec (.encStep inp last cap) s = .next ({ s with enc := e }.reply (.step c o st)) ∧
      EncInv e ∧ c ≤ inp.length ∧ o.length ≤ cap ∧
      encOwes s.enc (inp ++ y) = o ++ (if st = .frameComplete then [] else encOwes e (inp.drop c ++ y))

/-- R133: the three statuses of `ENC.STEP` and what each says of the registers, the input and the output. -/
def Obligations.EncStepStatuses : Prop :=
  ∀ (s : State) (inp : Window) (last : Bool) (cap : Nat),
    ∃ e c o st, exec (.encStep inp last cap) s = .next ({ s with enc := e }.reply (.step c o st)) ∧
      ((st = .moreInput ∧ e.phase = .accum ∧ c = inp.length ∧ last = false) ∨
       (st = .moreOutput ∧ o.length = cap ∧
        (e.phase = .code ∨ (e.phase = .data ∧ e.pos < e.n) ∨ e.phase = .delim)) ∨
       (st = .frameComplete ∧ e = encReset e ∧ o.getLast? = some delim))

/-- R141, R134: a window cut in two. When the first part ends in `MORE_INPUT`, going on with the second gives what one
call on both gives. -/
def Obligations.EncStepResumesInput : Prop :=
  ∀ (s t0 t1 : State) (in0 in1 : Window) (last : Bool) (cap c0 c1 : Nat) (o0 o1 : Window) (st : Status),
    exec (.encStep in0 false cap) s = .next t0 → lastStep t0 = some (c0, o0, .moreInput) →
    exec (.encStep in1 last (cap - o0.length)) t0 = .next t1 → lastStep t1 = some (c1, o1, st) →
    ∃ t, exec (.encStep (in0 ++ in1) last cap) s = .next t ∧ t.enc = t1.enc ∧
      lastStep t = some (c0 + c1, o0 ++ o1, st)

/-- R134, R139: an output window cut in two. After `MORE_OUTPUT`, going on with the input not consumed and fresh space
gives what one call with all the space gives. -/
def Obligations.EncStepResumesOutput : Prop :=
  ∀ (s t0 t1 : State) (inp : Window) (last : Bool) (cap0 cap1 c0 c1 : Nat) (o0 o1 : Window) (st : Status),
    exec (.encStep inp last cap0) s = .next t0 → lastStep t0 = some (c0, o0, .moreOutput) →
    exec (.encStep (inp.drop c0) last cap1) t0 = .next t1 → lastStep t1 = some (c1, o1, st) →
    ∃ t, exec (.encStep inp last (cap0 + cap1)) s = .next t ∧ t.enc = t1.enc ∧
      lastStep t = some (c0 + c1, o0 ++ o1, st)

/-- R137: any sequence of `ENC.STEP` calls that spells `x` and ends in `FRAME_COMPLETE` puts out `frame(x)`, whatever
the windows and capacities, and leaves the encoder reset and all else as it was. -/
def Obligations.EncodeCallsSpellFrame : Prop :=
  ∀ (s t : State) (x out : Window) (calls : List (Nat × Nat)),
    EncInv s.enc → s.enc = encReset s.enc → encodeCalls s x calls = some (out, t) →
    out = frameOf x ∧ t.enc = encReset t.enc ∧ t = { s with enc := t.enc, trace := t.trace }

/-- R135: once the final flush has begun, neither the input nor `last` is looked at, and nothing is consumed. -/
def Obligations.EncFinalFlushIgnoresInput : Prop :=
  ∀ (s : State) (inp : Window) (last : Bool) (cap : Nat), EncInv s.enc → s.enc.final = true →
    ∃ e o st, exec (.encStep inp last cap) s = .next ({ s with enc := e }.reply (.step 0 o st)) ∧
      exec (.encStep [] true cap) s = .next ({ s with enc := e }.reply (.step 0 o st)) ∧ st ≠ .moreInput

/-- R138: at the end of the message every call with space puts a byte out; and the only calls that change nothing are
the two R138 names. -/
def Obligations.EncStepProgress : Prop :=
  ∀ (s : State) (inp : Window) (last : Bool) (cap : Nat), EncInv s.enc →
    ∃ e c o st, exec (.encStep inp last cap) s = .next ({ s with enc := e }.reply (.step c o st)) ∧
      (last = true → 1 ≤ cap → 1 ≤ o.length) ∧
      (e = s.enc → c = 0 → o = [] →
        (s.enc.phase = .accum ∧ inp = [] ∧ last = false) ∨ (s.enc.phase ≠ .accum ∧ cap = 0))

/-- R141, R178: `ENC.STEP2` and `DEC.STEP2` are `ENC.STEP` and `DEC.STEP` on the joined input with the summed
capacity, the output dealt to the first window until it is full and then to the second. -/
def Obligations.SplitFormsDealOutput : Prop :=
  ∀ (s : State) (in0 in1 : Window) (last : Bool) (cap0 cap1 : Nat),
    (∃ e c o st,
      exec (.encStep (in0 ++ in1) last (cap0 + cap1)) s = .next ({ s with enc := e }.reply (.step c o st)) ∧
      exec (.encStep2 in0 in1 last cap0 cap1) s =
        .next ({ s with enc := e }.reply (.step2 c (o.take cap0) (o.drop cap0) st)) ∧
      (o.drop cap0).length ≤ cap1) ∧
    (∃ d c o st,
      exec (.decStep (in0 ++ in1) (cap0 + cap1)) s = .next ({ s with dec := d }.reply (.step c o st)) ∧
      exec (.decStep2 in0 in1 cap0 cap1) s =
        .next ({ s with dec := d }.reply (.step2 c (o.take cap0) (o.drop cap0) st)) ∧
      (o.drop cap0).length ≤ cap1)

/-- R142: `ENC.ONESHOT` returns `frame(in)` and `OK` when it fits, otherwise its first `cap` bytes and
`ERR_OUT_OVERFLOW`; it leaves the encoder reset and all else as it was. -/
def Obligations.EncOneshotGivesFrame : Prop :=
  ∀ (s : State) (inp : Window) (cap : Nat), s.enc.buf.length = 254 →
    ∃ buf, buf.length = 254 ∧ exec (.encOneshot inp cap) s =
      .next ({ s with enc := ⟨.accum, buf, 0, 0x00#8, 0, 0, false, .plain⟩ }.reply
        (if (frameOf inp).length ≤ cap then .out (frameOf inp) .ok
         else .out ((frameOf inp).take cap) .errOutOverflow))

/-- R125 (a), R61, R65: the canonical body has no zero byte, is never empty, and keeps to its size bounds. -/
def Obligations.CanonicalBodyShape : Prop :=
  ∀ x : Window,
    zeroFree (encBody x) ∧ max x.length 1 ≤ (encBody x).length ∧
    (x = [] → (encBody x).length = 1) ∧
    (x ≠ [] → (encBody x).length ≤ x.length + (x.length + 253) / 254) ∧
    (frameOf x).length = (encBody x).length + 1

/-- R125 (b), R161: the meaning of the canonical body of a message is the message. -/
def Obligations.DecodingInvertsEncoding : Prop :=
  ∀ x : Window, decBody (encBody x) = x

/-! ## Decoder (42_cobsr_decoder.md) -/

/-- R164, R33, R281: `DEC.RESET` restores every decoder register and touches nothing else. -/
def Obligations.DecResetRestores : Prop :=
  ∀ s : State, exec .decReset s = .next ({ s with dec := ⟨0x00#8, 0, .plain⟩ }.reply (.status .ok))

/-- R160: the equations of `dec`, without the cut-off by which the model defines it. -/
def Obligations.DecBodyFollowsRule : Prop :=
  decBody [] = [] ∧
  ∀ (c : Byte) (t : Window),
    decBody (c :: t) =
      if c.toNat - 1 > t.length then t ++ [c]
      else if c.toNat - 1 = t.length then t
      else if c = 0xFF#8 then t.take 254 ++ decBody (t.drop 254)
      else t.take (c.toNat - 1) ++ 0x00#8 :: decBody (t.drop (c.toNat - 1))

/-- One call of `DEC.STEP` from any state that meets the decoder invariants, whatever the windows: it touches only the
decoder, keeps the invariants, and what it puts out is the front of what the decoder owed on this stream, the rest being
owed by the registers it leaves (or nothing, when the frame is complete). `y` is the stream after this window. -/
def Obligations.DecStepPaysWhatIsOwed : Prop :=
  ∀ (s : State) (inp y : Window) (cap : Nat), DecInv s.dec →
    ∃ d c o st, exec (.decStep inp cap) s = .next ({ s with dec := d }.reply (.step c o st)) ∧
      DecInv d ∧ c ≤ inp.length ∧ o.length ≤ cap ∧
      decOwes s.dec (inp ++ y) = o ++ (if st = .frameComplete then [] else decOwes d (inp.drop c ++ y))

/-- R171: the three statuses of `DEC.STEP` and what each says of the registers, the input and the output. -/
def Obligations.DecStepStatuses : Prop :=
  ∀ (s : State) (inp : Window) (cap : Nat),
    ∃ d c o st, exec (.decStep inp cap) s = .next ({ s with dec := d }.reply (.step c o st)) ∧
      ((st = .moreInput ∧ c = inp.length ∧ d.mode = .plain) ∨
       (st = .moreOutput ∧ o.length = cap ∧
        (d.mode = .reduced ∨ (d.mode = .plain ∧ ∃ b, inp[c]? = some b ∧ b ≠ 0x00#8 ∧
          (0 < d.run ∨ (d.code ≠ 0x00#8 ∧ d.code ≠ 0xFF#8))))) ∨
       (st = .frameComplete ∧ d = ⟨0x00#8, 0, .plain⟩))

/-- R178, R172: a window cut in two. When the first part ends in `MORE_INPUT`, going on with the second gives what one
call on both gives. -/
def Obligations.DecStepResumesInput : Prop :=
  ∀ (s t0 t1 : State) (in0 in1 : Window) (cap c0 c1 : Nat) (o0 o1 : Window) (st : Status),
    exec (.decStep in0 cap) s = .next t0 → lastStep t0 = some (c0, o0, .moreInput) →
    exec (.decStep in1 (cap - o0.length)) t0 = .next t1 → lastStep t1 = some (c1, o1, st) →
    ∃ t, exec (.decStep (in0 ++ in1) cap) s = .next t ∧ t.dec = t1.dec ∧
      lastStep t = some (c0 + c1, o0 ++ o1, st)

/-- R172, R177: an output window cut in two. After `MORE_OUTPUT`, going on with the input not consumed and fresh space
gives what one call with all the space gives. -/
def Obligations.DecStepResumesOutput : Prop :=
  ∀ (s t0 t1 : State) (inp : Window) (cap0 cap1 c0 c1 : Nat) (o0 o1 : Window) (st : Status),
    exec (.decStep inp cap0) s = .next t0 → lastStep t0 = some (c0, o0, .moreOutput) →
    exec (.decStep (inp.drop c0) cap1) t0 = .next t1 → lastStep t1 = some (c1, o1, st) →
    ∃ t, exec (.decStep inp (cap0 + cap1)) s = .next t ∧ t.dec = t1.dec ∧
      lastStep t = some (c0 + c1, o0 ++ o1, st)

/-- R174: any sequence of `DEC.STEP` calls over `m ‖ ⟨00⟩` and whatever follows, from a reset decoder, that ends in
`FRAME_COMPLETE` puts out `dec(m)`, has consumed `|m| + 1` bytes, and leaves the decoder reset and all else as it was. -/
def Obligations.DecodeCallsGiveMessage : Prop :=
  ∀ (s t : State) (m y out : Window) (k : Nat) (calls : List (Nat × Nat)),
    s.dec = ⟨0x00#8, 0, .plain⟩ → zeroFree m → decodeCalls s (m ++ delim :: y) calls = some (out, k, t) →
    out = decBody m ∧ k = m.length + 1 ∧ t.dec = ⟨0x00#8, 0, .plain⟩ ∧ t = { s with dec := t.dec, trace := t.trace }

/-- R179: the four outcomes of `DEC.ONESHOT`; it leaves the decoder reset and all else as it was. On `ERR_TRUNCATED`
the output is all that the bytes before the end settle, which is all of their meaning as a body but one byte at most;
on `ERR_OUT_OVERFLOW` the meaning of the bytes before the first zero does not fit, and its front is returned. -/
def Obligations.DecOneshotOutcomes : Prop :=
  ∀ (s : State) (inp : Window) (cap : Nat),
    ∃ out st, exec (.decOneshot inp cap) s =
        .next ({ s with dec := ⟨0x00#8, 0, .plain⟩ }.reply (.out out st)) ∧ out.length ≤ cap ∧
      (st = .ok ∨ st = .errTruncated ∨ st = .errStrayZero ∨ st = .errOutOverflow) ∧
      (∀ m, inp = m ++ [delim] → zeroFree m → (decBody m).length ≤ cap → st = .ok ∧ out = decBody m) ∧
      (st = .ok → ∃ m, inp = m ++ [delim] ∧ zeroFree m ∧ out = decBody m) ∧
      (st = .errTruncated → zeroFree inp ∧ out <+: decBody inp ∧ (decBody inp).length ≤ out.length + 1) ∧
      (st = .errStrayZero → ∃ m y, inp = m ++ delim :: y ∧ zeroFree m ∧ y ≠ [] ∧ out = decBody m) ∧
      (st = .errOutOverflow → cap < (decBody (inp.takeWhile (· ≠ 0x00#8))).length ∧
        out = (decBody (inp.takeWhile (· ≠ 0x00#8))).take cap)

/-- R161, R142, R179: what `ENC.ONESHOT` makes of a message, `DEC.ONESHOT` turns back into it. -/
def Obligations.OneshotRoundTrip : Prop :=
  ∀ (s : State) (x : Window) (cap cap' : Nat),
    s.enc.buf.length = 254 → (frameOf x).length ≤ cap → x.length ≤ cap' →
    ∃ t u fr, exec (.encOneshot x cap) s = .next t ∧ t.trace = s.trace ++ [.returned (.out fr .ok)] ∧
      exec (.decOneshot fr cap') t = .next u ∧ u.trace = t.trace ++ [.returned (.out x .ok)]

/-- R175: the two frames with nothing in them, met by a reset decoder, with or without output space. -/
def Obligations.EmptyFramesComplete : Prop :=
  decBody [] = [] ∧ ∀ (s : State) (rest : Window) (cap : Nat), s.dec = ⟨0x00#8, 0, .plain⟩ →
    exec (.decStep (0x00#8 :: rest) cap) s = .next (s.reply (.step 1 [] .frameComplete)) ∧
    exec (.decStep (0x01#8 :: 0x00#8 :: rest) cap) s = .next (s.reply (.step 2 [] .frameComplete))

/-! ## Receive ring (43_transport_adapter.md section 2) -/

/-- R211: `RXR.RESET` empties the ring and clears the flag; storage, the decoder and all else stay. -/
def Obligations.RxrResetEmpties : Prop :=
  ∀ s : State,
    exec .rxrReset s = .next ({ s with rxr := ⟨s.rxr.storage, 0, 0⟩, rxrOvr := false }.reply (.status .ok)) ∧
    pending s.params.rxCap ⟨s.rxr.storage, 0, 0⟩ = []

/-- R23: the view `RXR.remaining` lies in `1..RX_CAP` and gives `RXR.wr` back. -/
def Obligations.RxrRemainingView : Prop :=
  ∀ s : State, Inv s →
    rxrRemaining s = s.params.rxCap - s.rxr.wr ∧ 1 ≤ rxrRemaining s ∧ rxrRemaining s ≤ s.params.rxCap ∧
    s.rxr.wr = (s.params.rxCap - rxrRemaining s) % s.params.rxCap

/-- R201, R202, R21, R47: the two windows of a ring cover exactly its occupied, and its free, region, slot for slot and
with no slot twice; neither first window passes the end of storage, and each reaches it when the second is not empty;
empty and full are what R21 says. A slot's place in a region is its distance from the region's first slot, modulo
`CAP`. -/
def Obligations.TwoWindowsCoverRegions : Prop :=
  ∀ cap rd wr : Nat, 2 ≤ cap → rd < cap → wr < cap →
    (∀ a, (rd ≤ a ∧ a < rd + occLen cap rd wr) ∨ a < occLen2 rd wr ↔
      a < cap ∧ (a + cap - rd) % cap < occupied cap rd wr) ∧
    (∀ a, (wr ≤ a ∧ a < wr + freeLen cap wr rd) ∨ a < freeLen2 wr rd ↔
      a < cap ∧ (a + cap - wr) % cap < freeSlots cap rd wr) ∧
    (0 < occLen2 rd wr → rd + occLen cap rd wr = cap) ∧ (0 < freeLen2 wr rd → wr + freeLen cap wr rd = cap) ∧
    occLen cap rd wr + occLen2 rd wr = occupied cap rd wr ∧
    freeLen cap wr rd + freeLen2 wr rd = freeSlots cap rd wr ∧
    rd + occLen cap rd wr ≤ cap ∧ wr + freeLen cap wr rd ≤ cap ∧
    (wr < rd → 1 ≤ occLen cap rd wr) ∧
    (occupied cap rd wr = 0 ↔ rd = wr) ∧ (freeSlots cap rd wr = 0 ↔ (wr + 1) % cap = rd)

/-- R212, R45, R47: `RXR.WINDOW` returns the first window of the occupied region and its bytes, the oldest unread ones,
and changes nothing. -/
def Obligations.RxrWindowShowsPending : Prop :=
  ∀ s : State, Inv s → s.rxrOvr = false →
    ∃ len bytes, exec .rxrWindow s = .next (s.reply (.rxWindow s.rxr.rd len bytes false .ok)) ∧
      len = (if s.rxr.wr ≥ s.rxr.rd then s.rxr.wr - s.rxr.rd else s.params.rxCap - s.rxr.rd) ∧
      bytes.length = len ∧ (∀ j, j < len → bytes[j]? = some (s.rxr.storage.read (s.rxr.rd + j))) ∧
      bytes <+: rxPending s ∧ s.rxr.rd + len ≤ s.params.rxCap ∧ (len = 0 ↔ s.rxr.rd = s.rxr.wr)

/-- R212, R257: while `RXR.ovr` is 1, `RXR.WINDOW` still returns `OK` and reports the flag; its other results are
unspecified, and nothing of the block changes. (`tick` is the model's own field, assumption log 8.) -/
def Obligations.RxrWindowReportsOverrun : Prop :=
  ∀ s : State, s.rxrOvr = true →
    ∃ base len bytes,
      exec .rxrWindow s = .next ({ s with tick := s.tick + 1 }.reply (.rxWindow base len bytes true .ok))

/-- R213: `RXR.COMMIT n` releases the first `n` bytes of the first window, and only moves `rd`; more than the window
holds is refused and changes nothing. While `RXR.ovr` is 1 what the ring holds is unspecified (U3): then it still only
moves `rd`, within the ring, or refuses and changes nothing. -/
def Obligations.RxrCommitReleases : Prop :=
  (∀ (s : State) (n : Nat), Inv s → s.rxrOvr = true →
    exec (.rxrCommit n) s = .next (s.reply (.status .errRange)) ∨
    ∃ rd, rd < s.params.rxCap ∧
      exec (.rxrCommit n) s = .next ({ s with rxr := { s.rxr with rd := rd } }.reply (.status .ok))) ∧
  ∀ (s : State) (n : Nat), Inv s → s.rxrOvr = false →
    let len := if s.rxr.wr ≥ s.rxr.rd then s.rxr.wr - s.rxr.rd else s.params.rxCap - s.rxr.rd
    (n ≤ len →
      exec (.rxrCommit n) s =
        .next ({ s with rxr := { s.rxr with rd := (s.rxr.rd + n) % s.params.rxCap } }.reply (.status .ok)) ∧
      pending s.params.rxCap { s.rxr with rd := (s.rxr.rd + n) % s.params.rxCap } = (rxPending s).drop n) ∧
    (len < n → exec (.rxrCommit n) s = .next (s.reply (.status .errRange)))

/-- R216, R217, R56: on a ring that is not full, `RXENG.PUT v` stores `v` at `wr`, advances `wr`, and changes no other
slot: the unread bytes are those of before, then `v`. -/
def Obligations.RxengPutAppends : Prop :=
  ∀ (s : State) (v : Byte) (rest : List Turn), Inv s → s.rxrOvr = false →
    ¬ (s.rxr.wr + 1) % s.params.rxCap = s.rxr.rd → s.sched = .rxeng v :: rest →
    ∃ t, step s = .next t ∧
      t = { s with sched := rest, rxr := ⟨t.rxr.storage, s.rxr.rd, (s.rxr.wr + 1) % s.params.rxCap⟩ } ∧
      (∀ a, t.rxr.storage.read a = if a = s.rxr.wr then v else s.rxr.storage.read a) ∧
      rxPending t = rxPending s ++ [v]

/-- R216, R257, R259: on a full ring, and again while the flag is set, `RXENG.PUT` leaves the flag set and touches
nothing but the receive ring's storage and `wr`, which stays a cursor. (`tick` is the model's own field.) -/
def Obligations.RxengPutOverruns : Prop :=
  ∀ (s : State) (v : Byte) (rest : List Turn), Inv s →
    s.rxrOvr = true ∨ (s.rxr.wr + 1) % s.params.rxCap = s.rxr.rd → s.sched = .rxeng v :: rest →
    ∃ storage wr, wr < s.params.rxCap ∧
      step s = .next { s with
        sched := rest, rxrOvr := true, rxr := ⟨storage, s.rxr.rd, wr⟩, tick := s.tick + 1 }

/-- R230, with no engine step falling inside: `RXR.DECODE` acts as one `DEC.STEP` over all the unread bytes, releases
exactly what the decoder consumed, and touches nothing else. -/
def Obligations.RxrDecodeQuietly : Prop :=
  ∀ (s : State) (cap : Nat), Inv s → s.rxrOvr = false → quiet s.sched →
    let r := decStep s.dec (rxPending s) cap
    ∃ k, exec (.rxrDecode cap) s =
        .next ({ s with
          dec := r.dec
          rxr := { s.rxr with rd := (s.rxr.rd + r.consumed) % s.params.rxCap }
          sched := s.sched.drop k }.reply (.out r.out r.status)) ∧
      pending s.params.rxCap { s.rxr with rd := (s.rxr.rd + r.consumed) % s.params.rxCap } =
        (rxPending s).drop r.consumed

/-- R230, R231: whatever engine steps fall inside, as long as the ring does not overrun: `RXR.DECODE` releases exactly
the bytes its decoder consumed (`taken`), the front of the unread bytes and those that arrive meanwhile, so no received
byte is lost, doubled or reordered; over those bytes it acts as one `DEC.STEP`. Where the frame's delimiter has been
consumed by this call the release ends at it, and where it was before, nothing is released: the next frame's bytes stay.
What is put out is the front of what the decoder owed on all those bytes and any that come later (`y`); the rest is owed
by what it leaves. (One `DEC.STEP` over the released bytes alone has no next byte to meet a full window with: it returns
`MORE_INPUT` where the call returns `MORE_OUTPUT` for one.) -/
def Obligations.RxrDecodeUnderArrivals : Prop :=
  ∀ (s : State) (cap : Nat), Inv s → s.rxrOvr = false →
    ∃ t out st used, exec (.rxrDecode cap) s = .next t ∧ s.sched = used ++ t.sched ∧
      t.trace.getLast? = some (.returned (.out out st)) ∧ out.length ≤ cap ∧
      (st = .moreInput ∨ st = .moreOutput ∨ st = .frameComplete) ∧
      t.enc = s.enc ∧ t.crc16 = s.crc16 ∧ t.crc32 = s.crc32 ∧ t.txr.wr = s.txr.wr ∧
      (t.rxrOvr = false →
        (∃ taken, rxPending s ++ arrivals used = taken ++ rxPending t ∧
          (∃ r, r = decStep s.dec taken cap ∧ r.dec = t.dec ∧ r.consumed = taken.length ∧ r.out = out ∧
            (r.status = st ∨ (st = .moreOutput ∧ r.status = .moreInput))) ∧
          (st = .frameComplete ∨ t.dec.mode = .reduced →
            if s.dec.mode = .reduced then taken = [] else ∃ m, zeroFree m ∧ taken = m ++ [delim])) ∧
        ∀ y, decOwes s.dec (rxPending s ++ arrivals used ++ y) =
          out ++ (if st = .frameComplete then [] else decOwes t.dec (rxPending t ++ y)))

/-! ## Transmit ring (43_transport_adapter.md section 3) -/

/-- R221: `TXR.RESET` empties the ring; storage, the encoder, the wire and all else stay. -/
def Obligations.TxrResetEmpties : Prop :=
  ∀ s : State,
    exec .txrReset s = .next ({ s with txr := ⟨s.txr.storage, 0, 0⟩ }.reply (.status .ok)) ∧
    pending s.params.txCap ⟨s.txr.storage, 0, 0⟩ = []

/-- R222, R47: `TXR.WINDOW` returns the first window of the free region and changes nothing; its length is 0 exactly
when the ring is full. -/
def Obligations.TxrWindowShowsFree : Prop :=
  ∀ s : State, Inv s →
    ∃ len, exec .txrWindow s = .next (s.reply (.txWindow s.txr.wr len .ok)) ∧
      len = (if s.txr.rd > s.txr.wr then s.txr.rd - s.txr.wr - 1
        else s.params.txCap - s.txr.wr - (if s.txr.rd = 0 then 1 else 0)) ∧
      s.txr.wr + len ≤ s.params.txCap ∧ (len = 0 ↔ (s.txr.wr + 1) % s.params.txCap = s.txr.rd)

/-- R223: `TXR.COMMIT in` stores the bytes from slot `wr` on, changes no other slot, and publishes exactly them; more
than the free window holds is refused and changes nothing. -/
def Obligations.TxrCommitStores : Prop :=
  ∀ (s : State) (inp : Window), Inv s →
    let len := if s.txr.rd > s.txr.wr then s.txr.rd - s.txr.wr - 1
      else s.params.txCap - s.txr.wr - (if s.txr.rd = 0 then 1 else 0)
    (inp.length ≤ len →
      ∃ storage : Memory, exec (.txrCommit inp) s =
          .next ({ s with txr := ⟨storage, s.txr.rd, (s.txr.wr + inp.length) % s.params.txCap⟩ }.reply
            (.status .ok)) ∧
        (∀ a, storage.read a =
          if s.txr.wr ≤ a ∧ a < s.txr.wr + inp.length then inp.getD (a - s.txr.wr) 0x00#8
          else s.txr.storage.read a) ∧
        pending s.params.txCap ⟨storage, s.txr.rd, (s.txr.wr + inp.length) % s.params.txCap⟩ =
          txPending s ++ inp) ∧
    (len < inp.length → exec (.txrCommit inp) s = .next (s.reply (.status .errRange)))

/-- R226: an enabled `TXENG.TAKE k` puts the oldest `k` committed bytes on the wire, frees their slots, signals
`tx_complete` and touches nothing else; it is enabled for some `k` exactly when the ring is not empty. That a turn
asking for a `TAKE` that is not enabled does nothing is the model's choice (assumption log 3). -/
def Obligations.TxengTakeSends : Prop :=
  ∀ (s : State) (k : Nat) (rest : List Turn), Inv s → s.sched = .txeng k :: rest →
    ((∃ j, takeEnabled j s) ↔ s.txr.rd ≠ s.txr.wr) ∧
    (takeEnabled k s →
      step s = .next { s with
        sched := rest
        wireTx := s.wireTx ++ (txPending s).take k
        txr := { s.txr with rd := (s.txr.rd + k) % s.params.txCap }
        trace := s.trace ++ [.txComplete] } ∧
      pending s.params.txCap { s.txr with rd := (s.txr.rd + k) % s.params.txCap } = (txPending s).drop k) ∧
    (¬ takeEnabled k s → step s = .next { s with sched := rest })

/-- R233, with no engine step falling inside: `TXR.ENCODE` acts as one `ENC.STEP` whose output window is all the free
slots, commits exactly what the encoder produced, and touches no other slot and nothing else. -/
def Obligations.TxrEncodeQuietly : Prop :=
  ∀ (s : State) (inp : Window) (last : Bool), Inv s → quiet s.sched →
    let r := encStep s.enc inp last (freeSlots s.params.txCap s.txr.rd s.txr.wr)
    let wr := (s.txr.wr + r.out.length) % s.params.txCap
    ∃ (storage : Memory) (k : Nat), exec (.txrEncode inp last) s =
        .next ({ s with
          enc := r.enc
          txr := ⟨storage, s.txr.rd, wr⟩
          sched := s.sched.drop k }.reply (.consumed r.consumed r.status)) ∧
      pending s.params.txCap ⟨storage, s.txr.rd, wr⟩ = txPending s ++ r.out ∧
      ∀ j, r.out.length ≤ j → j < s.params.txCap →
        storage.read ((s.txr.wr + j) % s.params.txCap) = s.txr.storage.read ((s.txr.wr + j) % s.params.txCap)

/-- R233, R234: whatever engine steps fall inside, what `TXR.ENCODE` adds to the wire and the ring together is the front
of what the encoder owed, the rest being owed by the registers it leaves; no byte is lost, doubled or reordered. Once
the final flush has begun, the whole window is consumed if it began in this call, and nothing if it began before (R135).
`y` is the message after `inp`. -/
def Obligations.TxrEncodeUnderTakes : Prop :=
  ∀ (s : State) (inp y : Window) (last : Bool), Inv s → (last = true → y = []) →
    ∃ t c o st used, exec (.txrEncode inp last) s = .next t ∧ s.sched = used ++ t.sched ∧
      t.trace.getLast? = some (.returned (.consumed c st)) ∧ c ≤ inp.length ∧
      (st = .moreInput ∨ st = .moreOutput ∨ st = .frameComplete) ∧
      t.dec = s.dec ∧ t.crc16 = s.crc16 ∧ t.crc32 = s.crc32 ∧ t.rxr.rd = s.rxr.rd ∧
      t.wireTx ++ txPending t = s.wireTx ++ txPending s ++ o ∧
      (st = .frameComplete ∨ t.enc.final = true → c = if s.enc.final then 0 else inp.length) ∧
      encOwes s.enc (inp ++ y) = o ++ (if st = .frameComplete then [] else encOwes t.enc (inp.drop c ++ y))

/-- R227: the wire is never rewritten; and what is on the wire together with what waits in the transmit ring only grows
at its end, but for `TXR.RESET`, which drops what waits. An engine step moves bytes from the ring to the wire and adds
none. -/
def Obligations.TransmitOrderKept : Prop :=
  ∀ s t : State, Inv s →
    (∀ i, exec i s = .next t → s.wireTx <+: t.wireTx ∧
      (i ≠ .txrReset → s.wireTx ++ txPending s <+: t.wireTx ++ txPending t)) ∧
    (∀ turn rest, s.sched = turn :: rest → turn.isEngine = true → step s = .next t →
      s.wireTx <+: t.wireTx ∧ t.wireTx ++ txPending t = s.wireTx ++ txPending s)

/-! ## The whole machine -/

/-- R280, R31 to R35: what global reset leaves, for every value of the parameters. The storages and `e_buf` are not
stated: R32 and R34 leave them unspecified. -/
def Obligations.GlobalResetLeaves : Prop :=
  ∀ p : Params,
    let s := State.resetWith p
    s.crc16 = none ∧ s.crc32 = none ∧
    (s.enc.phase = .accum ∧ s.enc.len = 0 ∧ s.enc.code = 0x00#8 ∧ s.enc.n = 0 ∧ s.enc.pos = 0 ∧
      s.enc.final = false ∧ s.enc.mode = .plain) ∧
    (s.dec.code = 0x00#8 ∧ s.dec.run = 0 ∧ s.dec.mode = .plain) ∧
    (s.rxr.rd = 0 ∧ s.rxr.wr = 0 ∧ s.rxrOvr = false ∧ rxrRemaining s = p.rxCap) ∧
    (s.txr.rd = 0 ∧ s.txr.wr = 0) ∧ s.wireTx = []

/-- The state after global reset meets the invariant, for every configuration of the block. -/
def Obligations.ResetMeetsInvariant : Prop :=
  Inv State.reset ∧ ∀ p : Params, p.valid → Inv (State.resetWith p)

/-- R14, R15, R18, R20, R200: every step keeps the encoder's and decoder's invariants and ranges, the cursors inside their rings, and
both storages in canonical form. -/
def Obligations.StepKeepsInvariant : Prop :=
  ∀ s t : State, Inv s → step s = .next t → Inv t

/-- R6, R7, R103: every operation returns, for every operand, from every state that meets the invariant; only a CRC
update or final needs its engine initialised (R31). -/
def Obligations.EveryOperationReturns : Prop :=
  ∀ (s : State) (i : Instr), Inv s →
    (unitField (opWord i) = 0 → fnField (opWord i) ≠ 0 → s.crc16 ≠ none) →
    (unitField (opWord i) = 1 → fnField (opWord i) ≠ 0 → s.crc32 ≠ none) →
    ∃ t r, exec i s = .next t ∧ t.trace.getLast? = some (.returned r)

/-- R7, R41, U1: from a state that meets the invariant a step never refuses and never meets a slot that a ring does not
have; it stops only on a CRC engine that no `INIT` has written. -/
def Obligations.StepStopsOnlyBeforeInit : Prop :=
  ∀ s : State, Inv s →
    (∃ t, step s = .next t) ∨
    (s.crc16 = none ∧ step s = .fault .crc16BeforeInit) ∨ (s.crc32 = none ∧ step s = .fault .crc32BeforeInit)

/-- R22, R54, R262: no operation but the ring resets writes what an engine owns, and no engine writes what `HOST` owns.
(With no engine turn listed, a composite is `HOST`'s alone.) -/
def Obligations.CursorOwnership : Prop :=
  (∀ (i : Instr) (s t : State), quiet s.sched → exec i s = .next t →
    (i ≠ .rxrReset → t.rxr.wr = s.rxr.wr ∧ t.rxr.storage = s.rxr.storage ∧ t.rxrOvr = s.rxrOvr) ∧
    (i ≠ .txrReset → t.txr.rd = s.txr.rd) ∧ t.wireTx = s.wireTx) ∧
  (∀ (s t : State) (v : Byte) (rest : List Turn), s.sched = .rxeng v :: rest → step s = .next t →
    t = { s with sched := rest, rxr := ⟨t.rxr.storage, s.rxr.rd, t.rxr.wr⟩, rxrOvr := t.rxrOvr, tick := t.tick }) ∧
  (∀ (s t : State) (k : Nat) (rest : List Turn), s.sched = .txeng k :: rest → step s = .next t →
    t = { s with sched := rest, txr := ⟨s.txr.storage, t.txr.rd, s.txr.wr⟩, wireTx := t.wireTx, trace := t.trace })

/-- R28, R283: the parameters never change. -/
def Obligations.ParametersNeverChange : Prop :=
  ∀ s t : State, step s = .next t → t.params = s.params

/-- R34, R282, U2: bytes that no rule reads are unobservable while `RXR.ovr` is 0: two states that differ only in them
step alike, return the same results, and again differ only in such bytes, as long as the step does not overrun the
receive ring; and it overruns in both or in neither. So nothing rests on the bytes the model puts there at reset
(assumption logs 6 and 7). -/
def Obligations.UnreadBytesUnobservable : Prop :=
  ∀ s s' t : State, Inv s → Inv s' → AgreeOnRead s s' → s.rxrOvr = false → step s = .next t →
    ∃ t', step s' = .next t' ∧ t'.rxrOvr = t.rxrOvr ∧ (t.rxrOvr = false → AgreeOnRead t t')

/-- R78: what the three pseudo-operations return. -/
def Obligations.PseudoOperationsReturn : Prop :=
  ∀ (s : State) (x : Window),
    (∃ t, execAll (crc16Calc x) s = .next t ∧
      t.trace.getLast? = some (.returned (.crc16 (crc16Of s.params x) .ok))) ∧
    (∃ t, execAll (crc32Calc x) s = .next t ∧
      t.trace.getLast? = some (.returned (.crc32 (crc32Of s.params x) .ok))) ∧
    (s.enc.buf.length = 254 → ∃ t, execAll (encFrame x) s = .next t ∧
      t.trace.getLast? = some (.returned (.out (frameOf x) .ok)))
end

