-- ==== Sys2Proof/Laws/Cobsr.lean ====
section
/-! SUPPORT. The equations of the pure frame functions, without the cut-off by which `decBody` is defined and without
the written-out case of `encRun`. -/

namespace Sys2Proof.Machine

open Sys2Proof

@[simp] theorem encRun_nil (r : Window) : encRun r [] = finalBlock r := by rw [encRun]

/-- The second case of `encrun` as 41_cobsr_encoder.md R120 writes it: the full run goes out and the same byte is
looked at again. -/
theorem encRun_full {r : Window} (h : r.length = maxRun) (b : Byte) (x : Window) :
    encRun r (b :: x) = 0xFF#8 :: r ++ encRun [] (b :: x) := by
  rw [encRun, if_pos h]
  conv_rhs => rw [encRun]
  simp

/-- The third case: a zero ends the run. -/
theorem encRun_zero {r : Window} (h : r.length ≠ maxRun) (x : Window) :
    encRun r (0x00#8 :: x) = runCode r :: r ++ encRun [] x := by
  rw [encRun, if_neg h, if_pos rfl]

/-- The fourth case: a non-zero byte joins the run. -/
theorem encRun_byte {r : Window} (h : r.length ≠ maxRun) {b : Byte} (hb : b ≠ 0x00#8) (x : Window) :
    encRun r (b :: x) = encRun (r ++ [b]) x := by
  rw [encRun, if_neg h, if_neg hb]

/-- More blocks than bytes are never needed. -/
theorem decBlocks_fuel {n m : Nat} {s : Window} (hn : s.length ≤ n) (hm : s.length ≤ m) :
    decBlocks n s = decBlocks m s := by
  induction n generalizing m s with
  | zero =>
    obtain rfl := List.length_eq_zero_iff.1 (Nat.le_zero.1 hn)
    cases m <;> rfl
  | succ n ih =>
    cases s with
    | nil => cases m <;> rfl
    | cons c t =>
      cases m with
      | zero => simp at hm
      | succ m =>
        simp only [List.length_cons] at hn hm
        have key : ∀ k, decBlocks n (t.drop k) = decBlocks m (t.drop k) := fun k =>
          ih (by simp only [List.length_drop]; omega) (by simp only [List.length_drop]; omega)
        simp only [decBlocks, key]

@[simp] theorem decBody_nil : decBody [] = [] := rfl

end Sys2Proof.Machine
end

