-- ==== Sys2Proof/Laws/State.lean ====
section
/-! SUPPORT. One lemma per field per update of the state, so that no proof unfolds a record update. -/

namespace Sys2Proof.Machine

open Sys2Proof

/-! ## `State.reply` -/

@[simp] theorem reply_params (s : State) (r : Response) : (s.reply r).params = s.params := rfl
@[simp] theorem reply_crc16 (s : State) (r : Response) : (s.reply r).crc16 = s.crc16 := rfl
@[simp] theorem reply_crc32 (s : State) (r : Response) : (s.reply r).crc32 = s.crc32 := rfl
@[simp] theorem reply_enc (s : State) (r : Response) : (s.reply r).enc = s.enc := rfl
@[simp] theorem reply_dec (s : State) (r : Response) : (s.reply r).dec = s.dec := rfl
@[simp] theorem reply_rxr (s : State) (r : Response) : (s.reply r).rxr = s.rxr := rfl
@[simp] theorem reply_rxrOvr (s : State) (r : Response) : (s.reply r).rxrOvr = s.rxrOvr := rfl
@[simp] theorem reply_txr (s : State) (r : Response) : (s.reply r).txr = s.txr := rfl
@[simp] theorem reply_wireTx (s : State) (r : Response) : (s.reply r).wireTx = s.wireTx := rfl
@[simp] theorem reply_requests (s : State) (r : Response) : (s.reply r).requests = s.requests := rfl
@[simp] theorem reply_sched (s : State) (r : Response) : (s.reply r).sched = s.sched := rfl
@[simp] theorem reply_trace (s : State) (r : Response) : (s.reply r).trace = s.trace ++ [.returned r] := rfl
@[simp] theorem reply_tick (s : State) (r : Response) : (s.reply r).tick = s.tick := rfl
@[simp] theorem reply_cap (s : State) (r : Response) (id : RingId) : (s.reply r).cap id = s.cap id := by cases id <;> rfl

/-! ## `State.ring`, `State.cap`, `State.setRing` -/

@[simp] theorem ring_rxr (s : State) : s.ring .rxr = s.rxr := rfl
@[simp] theorem ring_txr (s : State) : s.ring .txr = s.txr := rfl
@[simp] theorem cap_rxr (s : State) : s.cap .rxr = s.params.rxCap := rfl
@[simp] theorem cap_txr (s : State) : s.cap .txr = s.params.txCap := rfl
@[simp] theorem setRing_rxr (s : State) (r : Ring) : s.setRing .rxr r = { s with rxr := r } := rfl
@[simp] theorem setRing_txr (s : State) (r : Ring) : s.setRing .txr r = { s with txr := r } := rfl
@[simp] theorem setRing_cap (s : State) (id id' : RingId) (r : Ring) : (s.setRing id r).cap id' = s.cap id' := by
  cases id <;> cases id' <;> rfl

/-! ## `rxrUnspecified` -/

@[simp] theorem rxrUnspecified_params (s : State) : (rxrUnspecified s).params = s.params := rfl
@[simp] theorem rxrUnspecified_crc16 (s : State) : (rxrUnspecified s).crc16 = s.crc16 := rfl
@[simp] theorem rxrUnspecified_crc32 (s : State) : (rxrUnspecified s).crc32 = s.crc32 := rfl
@[simp] theorem rxrUnspecified_enc (s : State) : (rxrUnspecified s).enc = s.enc := rfl
@[simp] theorem rxrUnspecified_dec (s : State) : (rxrUnspecified s).dec = s.dec := rfl
@[simp] theorem rxrUnspecified_rxrOvr (s : State) : (rxrUnspecified s).rxrOvr = s.rxrOvr := rfl
@[simp] theorem rxrUnspecified_txr (s : State) : (rxrUnspecified s).txr = s.txr := rfl
@[simp] theorem rxrUnspecified_wireTx (s : State) : (rxrUnspecified s).wireTx = s.wireTx := rfl
@[simp] theorem rxrUnspecified_requests (s : State) : (rxrUnspecified s).requests = s.requests := rfl
@[simp] theorem rxrUnspecified_sched (s : State) : (rxrUnspecified s).sched = s.sched := rfl
@[simp] theorem rxrUnspecified_trace (s : State) : (rxrUnspecified s).trace = s.trace := rfl
@[simp] theorem rxrUnspecified_tick (s : State) : (rxrUnspecified s).tick = s.tick + 1 := rfl
@[simp] theorem rxrUnspecified_rd (s : State) : (rxrUnspecified s).rxr.rd = s.rxr.rd := rfl

/-! ## `State.withFetchWord` -/

@[simp] theorem withFetchWord_params (s : State) (n w : Nat) : (s.withFetchWord n w).params = s.params := rfl
@[simp] theorem withFetchWord_crc16 (s : State) (n w : Nat) : (s.withFetchWord n w).crc16 = s.crc16 := rfl
@[simp] theorem withFetchWord_crc32 (s : State) (n w : Nat) : (s.withFetchWord n w).crc32 = s.crc32 := rfl
@[simp] theorem withFetchWord_enc (s : State) (n w : Nat) : (s.withFetchWord n w).enc = s.enc := rfl
@[simp] theorem withFetchWord_dec (s : State) (n w : Nat) : (s.withFetchWord n w).dec = s.dec := rfl
@[simp] theorem withFetchWord_rxr (s : State) (n w : Nat) : (s.withFetchWord n w).rxr = s.rxr := rfl
@[simp] theorem withFetchWord_rxrOvr (s : State) (n w : Nat) : (s.withFetchWord n w).rxrOvr = s.rxrOvr := rfl
@[simp] theorem withFetchWord_txr (s : State) (n w : Nat) : (s.withFetchWord n w).txr = s.txr := rfl
@[simp] theorem withFetchWord_wireTx (s : State) (n w : Nat) : (s.withFetchWord n w).wireTx = s.wireTx := rfl
@[simp] theorem withFetchWord_requests (s : State) (n w : Nat) : (s.withFetchWord n w).requests = tableRequest w :: s.requests := rfl
@[simp] theorem withFetchWord_sched (s : State) (n w : Nat) : (s.withFetchWord n w).sched = .host :: s.sched := rfl
@[simp] theorem withFetchWord_trace (s : State) (n w : Nat) : (s.withFetchWord n w).trace = s.trace := rfl
@[simp] theorem withFetchWord_tick (s : State) (n w : Nat) : (s.withFetchWord n w).tick = s.tick := rfl

/-! ## `Enc` and `Dec` resets -/

@[simp] theorem encReset_phase (e : Enc) : (encReset e).phase = .accum := rfl
@[simp] theorem encReset_buf (e : Enc) : (encReset e).buf = e.buf := rfl
@[simp] theorem encReset_len (e : Enc) : (encReset e).len = 0 := rfl
@[simp] theorem encReset_code (e : Enc) : (encReset e).code = 0x00#8 := rfl
@[simp] theorem encReset_n (e : Enc) : (encReset e).n = 0 := rfl
@[simp] theorem encReset_pos (e : Enc) : (encReset e).pos = 0 := rfl
@[simp] theorem encReset_final (e : Enc) : (encReset e).final = false := rfl
@[simp] theorem encReset_mode (e : Enc) : (encReset e).mode = .plain := rfl
@[simp] theorem startFlush_phase (e : Enc) (c : Byte) (n : Nat) (f : Bool) (m : RunMode) :
    (startFlush e c n f m).phase = .code := rfl
@[simp] theorem startFlush_buf (e : Enc) (c : Byte) (n : Nat) (f : Bool) (m : RunMode) :
    (startFlush e c n f m).buf = e.buf := rfl
@[simp] theorem startFlush_len (e : Enc) (c : Byte) (n : Nat) (f : Bool) (m : RunMode) :
    (startFlush e c n f m).len = e.len := rfl
@[simp] theorem startFlush_code (e : Enc) (c : Byte) (n : Nat) (f : Bool) (m : RunMode) :
    (startFlush e c n f m).code = c := rfl
@[simp] theorem startFlush_n (e : Enc) (c : Byte) (n : Nat) (f : Bool) (m : RunMode) :
    (startFlush e c n f m).n = n := rfl
@[simp] theorem startFlush_pos (e : Enc) (c : Byte) (n : Nat) (f : Bool) (m : RunMode) :
    (startFlush e c n f m).pos = 0 := rfl
@[simp] theorem startFlush_final (e : Enc) (c : Byte) (n : Nat) (f : Bool) (m : RunMode) :
    (startFlush e c n f m).final = f := rfl
@[simp] theorem startFlush_mode (e : Enc) (c : Byte) (n : Nat) (f : Bool) (m : RunMode) :
    (startFlush e c n f m).mode = m := rfl
@[simp] theorem decReset_code (d : Dec) : (decReset d).code = 0x00#8 := rfl
@[simp] theorem decReset_run (d : Dec) : (decReset d).run = 0 := rfl
@[simp] theorem decReset_mode (d : Dec) : (decReset d).mode = .plain := rfl
@[simp] theorem decTakeCode_code (d : Dec) (b : Byte) : (decTakeCode d b).code = b := rfl
@[simp] theorem decTakeCode_run (d : Dec) (b : Byte) : (decTakeCode d b).run = b.toNat - 1 := rfl
@[simp] theorem decTakeCode_mode (d : Dec) (b : Byte) : (decTakeCode d b).mode = d.mode := rfl
@[simp] theorem encEmit_enc (c : EncLoop) (v : Byte) (e : Enc) : (encEmit c v e).enc = e := rfl
@[simp] theorem encEmit_rest (c : EncLoop) (v : Byte) (e : Enc) : (encEmit c v e).rest = c.rest := rfl
@[simp] theorem encEmit_taken (c : EncLoop) (v : Byte) (e : Enc) : (encEmit c v e).taken = c.taken := rfl
@[simp] theorem encEmit_out (c : EncLoop) (v : Byte) (e : Enc) : (encEmit c v e).out = c.out ++ [v] := rfl
@[simp] theorem encEmit_room (c : EncLoop) (v : Byte) (e : Enc) : (encEmit c v e).room = c.room - 1 := rfl

end Sys2Proof.Machine
end

