-- ==== Sys2Proof/Laws/Decoder.lean ====
section
/-! SUPPORT. The decoder's loop, one equation per row of the table of 42_cobsr_decoder.md R173. -/

namespace Sys2Proof.Machine

open Sys2Proof

section
variable {d : Dec} {taken room : Nat} {out rest : Window} {b : Byte}

/-- Mode `REDUCED`, whatever the input: the owed byte, or `MORE_OUTPUT`. -/
theorem decLoop_reduced (h : d.mode = .reduced) (inp : Window) :
    decLoop d taken out room inp = decArmReduced d taken out room := by
  cases inp <;> simp [decLoop, h]

theorem decArmReduced_full : decArmReduced d taken out 0 = ⟨d, taken, out, .moreOutput⟩ := rfl

theorem decArmReduced_space (h : room ≠ 0) :
    decArmReduced d taken out room = ⟨decReset d, taken, out ++ [d.code], .frameComplete⟩ := by
  simp [decArmReduced, h]

/-- Input used up. -/
theorem decLoop_nil (h : d.mode = .plain) : decLoop d taken out room [] = ⟨d, taken, out, .moreInput⟩ := by
  simp [decLoop, h]

/-- Inside a run, a delimiter. -/
theorem decLoop_run_delim (h : d.mode = .plain) (hr : 0 < d.run) :
    decLoop d taken out room (0x00#8 :: rest) = decLoop { d with mode := .reduced } (taken + 1) out room rest := by
  simp [decLoop, h, hr]

/-- Inside a run, a data byte and no space. -/
theorem decLoop_run_full (h : d.mode = .plain) (hr : 0 < d.run) (hb : b ≠ 0x00#8) :
    decLoop d taken out 0 (b :: rest) = ⟨d, taken, out, .moreOutput⟩ := by
  simp [decLoop, h, hr, hb]

/-- Inside a run, a data byte and space. -/
theorem decLoop_run_byte (h : d.mode = .plain) (hr : 0 < d.run) (hb : b ≠ 0x00#8) (hs : room ≠ 0) :
    decLoop d taken out room (b :: rest) =
      decLoop { d with run := d.run - 1 } (taken + 1) (out ++ [b]) (room - 1) rest := by
  simp [decLoop, h, hr, hb, hs]

/-- A code expected, a delimiter. -/
theorem decLoop_code_delim (h : d.mode = .plain) (hr : d.run = 0) :
    decLoop d taken out room (0x00#8 :: rest) = ⟨decReset d, taken + 1, out, .frameComplete⟩ := by
  simp [decLoop, h, hr]

/-- A code expected, a code, no zero owed. -/
theorem decLoop_code_first (h : d.mode = .plain) (hr : d.run = 0) (hb : b ≠ 0x00#8) (hz : ¬ zeroOwed d) :
    decLoop d taken out room (b :: rest) = decLoop (decTakeCode d b) (taken + 1) out room rest := by
  rw [decLoop, if_neg (by simp [h]), if_neg (by omega), if_neg hb, if_neg hz]

/-- A code expected, a code, a zero owed and no space. -/
theorem decLoop_code_full (h : d.mode = .plain) (hr : d.run = 0) (hb : b ≠ 0x00#8) (hz : zeroOwed d) :
    decLoop d taken out 0 (b :: rest) = ⟨d, taken, out, .moreOutput⟩ := by
  rw [decLoop, if_neg (by simp [h]), if_neg (by omega), if_neg hb, if_pos hz, if_pos rfl]

/-- A code expected, a code, a zero owed and space. -/
theorem decLoop_code_zero (h : d.mode = .plain) (hr : d.run = 0) (hb : b ≠ 0x00#8) (hz : zeroOwed d)
    (hs : room ≠ 0) :
    decLoop d taken out room (b :: rest) =
      decLoop (decTakeCode d b) (taken + 1) (out ++ [0x00#8]) (room - 1) rest := by
  rw [decLoop, if_neg (by simp [h]), if_neg (by omega), if_neg hb, if_pos hz, if_neg hs]

end

end Sys2Proof.Machine
end

