-- ==== Sys2Proof/Laws/Encoder.lean ====
section
/-! SUPPORT. The encoder's loop: what one repetition can do, and that the repetitions `encStep` allows suffice. -/

namespace Sys2Proof.Machine

open Sys2Proof

/-- A bound on the repetitions a loop still takes: three for each output slot left, one for each input byte left, and
the phase's own (41_cobsr_encoder.md R127: "The loop always ends"). -/
def encLeft (c : EncLoop) : Nat :=
  3 * c.room + c.rest.length +
    match c.enc.phase with
    | .data => 2
    | .accum => 1
    | .code => 0
    | .delim => 0

/-- A repetition that does not return leaves fewer to come. -/
theorem encArm_again_lt {last : Bool} {c c' : EncLoop} (h : encArm last c = .again c') : encLeft c' < encLeft c := by
  unfold encArm at h
  split at h
  · -- CODE
    next hp =>
      unfold encArmCode at h
      split at h
      · cases h
      · cases h
        simp only [encLeft, hp, encEmit]
        omega
  · next hp =>
      unfold encArmData at h
      split at h
      · split at h
        · cases h
        · cases h
          simp only [encLeft, hp, encEmit]
          omega
      · cases h
        unfold encCloseRun
        split <;> simp [encLeft, hp]
  · next hp =>
      unfold encArmDelim at h
      split at h <;> cases h
  · next hp =>
      unfold encArmAccum at h
      split at h
      · next b rest hr =>
          split at h
          · cases h
            simp [encLeft, hp, startFlush]
          · split at h
            · cases h
              simp [encLeft, hp, startFlush, hr]
            · cases h
              simp [encLeft, hp, hr]
      · split at h
        · cases h
          unfold encFinalFlush
          split <;> simp [encLeft, hp, startFlush]
        · cases h

/-- With enough repetitions allowed, allowing another changes nothing. -/
theorem encLoop_succ {last : Bool} {fuel : Nat} {c : EncLoop} (h : encLeft c < fuel) :
    encLoop last (fuel + 1) c = encLoop last fuel c := by
  induction fuel generalizing c with
  | zero => omega
  | succ n ih =>
    rw [encLoop]
    conv_rhs => rw [encLoop]
    cases ha : encArm last c with
    | ret r => rfl
    | again c' =>
      have := encArm_again_lt ha
      exact ih (by omega)

/-- The repetitions allowed do not matter once there are enough. -/
theorem encLoop_fuel {last : Bool} {fuel fuel' : Nat} {c : EncLoop} (h : encLeft c < fuel) (h' : encLeft c < fuel') :
    encLoop last fuel c = encLoop last fuel' c := by
  have key : ∀ k, encLoop last (encLeft c + 1 + k) c = encLoop last (encLeft c + 1) c := by
    intro k
    induction k with
    | zero => rfl
    | succ k ih =>
      rw [← ih]
      exact encLoop_succ (show encLeft c < encLeft c + 1 + k by omega)
  obtain ⟨k, rfl⟩ : ∃ k, fuel = encLeft c + 1 + k := ⟨fuel - (encLeft c + 1), by omega⟩
  obtain ⟨k', rfl⟩ : ∃ k, fuel' = encLeft c + 1 + k := ⟨fuel' - (encLeft c + 1), by omega⟩
  rw [key, key]

/-- `encStep` allows enough repetitions: the loop of 41_cobsr_encoder.md R127 is never cut off. -/
theorem encLeft_start (e : Enc) (inp : Window) (cap : Nat) : encLeft ⟨e, inp, 0, [], cap⟩ < encFuel inp.length cap := by
  simp only [encLeft, encFuel]
  split <;> omega

/-- The loop run to its end, whatever number of repetitions `fuel` allows, as long as it suffices. -/
def encRunOut (last : Bool) (c : EncLoop) : EncResult := encLoop last (encLeft c + 1) c

/-- One repetition of the loop run to its end: return, or go on. -/
theorem encRunOut_eq (last : Bool) (c : EncLoop) :
    encRunOut last c =
      match encArm last c with
      | .again c' => encRunOut last c'
      | .ret r => r := by
  unfold encRunOut
  rw [encLoop]
  cases ha : encArm last c with
  | ret r => rfl
  | again c' =>
    have := encArm_again_lt ha
    exact encLoop_fuel (by omega) (by omega)

/-- `ENC.STEP` is its loop run to its end. -/
theorem encStep_eq_runOut (e : Enc) (inp : Window) (last : Bool) (cap : Nat) :
    encStep e inp last cap = encRunOut last ⟨e, inp, 0, [], cap⟩ :=
  encLoop_fuel (encLeft_start e inp cap) (Nat.lt_succ_self _)

/-- Induction along the loop: a property of loop states and results that each returning repetition gives, and each
other one hands back, holds of every run. -/
theorem encRunOut_induct {last : Bool} {P : EncLoop → EncResult → Prop}
    (ret : ∀ c r, encArm last c = .ret r → P c r)
    (again : ∀ c c' r, encArm last c = .again c' → P c' r → P c r) (c : EncLoop) : P c (encRunOut last c) := by
  generalize hn : encLeft c = n
  induction n using Nat.strong_induction_on generalizing c with
  | _ n ih =>
    rw [encRunOut_eq]
    cases ha : encArm last c with
    | ret r => exact ret c r ha
    | again c' =>
      have hlt := encArm_again_lt ha
      exact again c c' _ ha (ih (encLeft c') (by omega) c' rfl)

end Sys2Proof.Machine
end

