-- ==== Sys2Proof/Laws/Memory.lean ====
section
/-! SUPPORT. Ring storage: a slot reads as last written, writes leave other slots alone, and every operation keeps the
canonical form; what the multi-byte accesses can answer. -/

namespace Sys2Proof.Machine

open Sys2Proof

/-! ## One byte -/

@[simp] theorem Memory.read_nil (a : Nat) : Memory.read [] a = Memory.unlisted := rfl

theorem Memory.wf_nil : Memory.wf [] := ⟨List.Pairwise.nil, by simp⟩

theorem Memory.wf_cons {b : Nat} {w : Byte} {m : Memory} :
    Memory.wf ((b, w) :: m) ↔ (∀ c ∈ m, b < c.1) ∧ w ≠ Memory.unlisted ∧ Memory.wf m := by
  simp only [Memory.wf, List.map_cons, List.pairwise_cons, List.mem_map, forall_exists_index, and_imp,
    List.mem_cons, forall_eq_or_imp]
  constructor
  · rintro ⟨⟨h1, h2⟩, h3, h4⟩
    exact ⟨fun c hc => h1 _ c hc rfl, h3, h2, h4⟩
  · rintro ⟨h1, h2, h3, h4⟩
    exact ⟨⟨fun a c hc e => e ▸ h1 c hc, h3⟩, h2, h4⟩

/-- A slot below every listed one is unlisted. -/
theorem Memory.read_of_lt {m : Memory} {a : Nat} (h : ∀ c ∈ m, a < c.1) : m.read a = Memory.unlisted := by
  induction m with
  | nil => rfl
  | cons c m ih =>
    obtain ⟨b, w⟩ := c
    have hb : a < b := h (b, w) (by simp)
    have hne : a ≠ b := by omega
    simp only [Memory.read, hne, if_false]
    exact ih fun c hc => h c (by simp [hc])

/-- What a write can list: the slot written, or what was listed before. -/
theorem Memory.mem_write {m : Memory} {a : Nat} {v : Byte} {c : Host.Cell} (h : c ∈ m.write a v) :
    c = (a, v) ∨ c ∈ m := by
  induction m with
  | nil =>
    simp only [Memory.write] at h
    split at h
    · simp at h
    · exact .inl (by simpa using h)
  | cons d m ih =>
    obtain ⟨b, w⟩ := d
    simp only [Memory.write] at h
    split at h
    · split at h
      · exact .inr h
      · simpa using h
    · split at h
      · split at h
        · exact .inr (by simp [h])
        · rcases List.mem_cons.1 h with rfl | h
          · exact .inl rfl
          · exact .inr (by simp [h])
      · rcases List.mem_cons.1 h with rfl | h
        · exact .inr (by simp)
        · rcases ih h with h | h
          · exact .inl h
          · exact .inr (by simp [h])

/-- A write keeps the canonical form. -/
theorem Memory.write_wf {m : Memory} (h : m.wf) (a : Nat) (v : Byte) : (m.write a v).wf := by
  induction m with
  | nil =>
    simp only [Memory.write]
    split
    · exact Memory.wf_nil
    · exact Memory.wf_cons.2 ⟨by simp, by assumption, Memory.wf_nil⟩
  | cons d m ih =>
    obtain ⟨b, w⟩ := d
    have ⟨h1, h2, h3⟩ := Memory.wf_cons.1 h
    simp only [Memory.write]
    split
    · split
      · exact h
      · refine Memory.wf_cons.2 ⟨?_, by assumption, h⟩
        intro c hc
        rcases List.mem_cons.1 hc with rfl | hc
        · assumption
        · exact Nat.lt_trans ‹a < b› (h1 c hc)
    · split
      · subst_vars
        split
        · exact h3
        · exact Memory.wf_cons.2 ⟨h1, by assumption, h3⟩
      · refine Memory.wf_cons.2 ⟨?_, h2, ih h3⟩
        intro c hc
        rcases Memory.mem_write hc with rfl | hc
        · show b < a
          omega
        · exact h1 c hc

/-- Reading a slot after a write: the byte written there, what it held before elsewhere. -/
theorem Memory.read_write {m : Memory} (h : m.wf) (a i : Nat) (v : Byte) :
    (m.write a v).read i = if i = a then v else m.read i := by
  induction m with
  | nil =>
    simp only [Memory.write]
    split <;> split <;> simp_all [Memory.read]
  | cons d m ih =>
    obtain ⟨b, w⟩ := d
    have ⟨h1, h2, h3⟩ := Memory.wf_cons.1 h
    simp only [Memory.write]
    split
    · -- a < b
      have hrest : Memory.read ((b, w) :: m) a = Memory.unlisted := by
        apply Memory.read_of_lt
        intro c hc
        rcases List.mem_cons.1 hc with rfl | hc
        · assumption
        · exact Nat.lt_trans ‹a < b› (h1 c hc)
      split
      · split
        · subst_vars; exact hrest
        · rfl
      · rw [Memory.read]
    · split
      · subst_vars
        have hrest : Memory.read m b = Memory.unlisted := Memory.read_of_lt h1
        split
        · split
          · subst_vars; exact hrest
          · simp [Memory.read, *]
        · simp only [Memory.read]
          split <;> simp_all
      · simp only [Memory.read, ih h3]
        split
        · subst_vars
          rw [if_neg (by omega)]
        · rfl

theorem Memory.read_write_same {m : Memory} (h : m.wf) (a : Nat) (v : Byte) : (m.write a v).read a = v := by
  rw [Memory.read_write h, if_pos rfl]

theorem Memory.read_write_other {m : Memory} (h : m.wf) {a i : Nat} (v : Byte) (hi : i ≠ a) :
    (m.write a v).read i = m.read i := by
  rw [Memory.read_write h, if_neg hi]

/-- A write below the capacity lists no slot at or above it. -/
theorem Memory.write_slots_lt {m : Memory} {cap a : Nat} {v : Byte} (h : ∀ c ∈ m, c.1 < cap) (ha : a < cap) :
    ∀ c ∈ m.write a v, c.1 < cap := by
  intro c hc
  rcases Memory.mem_write hc with rfl | hc
  · exact ha
  · exact h c hc

/-! ## A run of bytes -/

/-- The memory after storing a run of bytes from `base` on. -/
def Memory.writeRun (m : Memory) (base : Nat) : List Byte → Memory
  | [] => m
  | v :: vs => Memory.writeRun (m.write base v) (base + 1) vs

theorem Memory.writeRun_wf {m : Memory} (h : m.wf) (base : Nat) (vs : List Byte) : (m.writeRun base vs).wf := by
  induction vs generalizing m base with
  | nil => exact h
  | cons v vs ih => exact ih (Memory.write_wf h _ _) _

theorem Memory.writeRun_slots_lt {m : Memory} {cap base : Nat} {vs : List Byte} (h : ∀ c ∈ m, c.1 < cap)
    (hb : base + vs.length ≤ cap) : ∀ c ∈ m.writeRun base vs, c.1 < cap := by
  induction vs generalizing m base with
  | nil => exact h
  | cons v vs ih =>
    simp only [List.length_cons] at hb
    exact ih (Memory.write_slots_lt h (by omega)) (by omega)

/-- Reading after a run of bytes was stored: the run's byte inside it, what was there outside it. -/
theorem Memory.read_writeRun {m : Memory} (h : m.wf) (base : Nat) (vs : List Byte) (i : Nat) :
    (m.writeRun base vs).read i = if base ≤ i ∧ i < base + vs.length then vs.getD (i - base) 0 else m.read i := by
  induction vs generalizing m base with
  | nil => rw [if_neg (by simp only [List.length_nil]; omega)]; rfl
  | cons v vs ih =>
    rw [Memory.writeRun, ih (Memory.write_wf h _ _), Memory.read_write h]
    simp only [List.length_cons]
    by_cases h1 : i = base
    · subst h1
      rw [if_neg (by omega), if_pos rfl, if_pos ⟨Nat.le_refl _, by omega⟩]
      simp
    · by_cases h2 : base + 1 ≤ i ∧ i < base + 1 + vs.length
      · rw [if_pos h2, if_pos (by omega)]
        obtain ⟨k, rfl⟩ : ∃ k, i = base + 1 + k := ⟨i - (base + 1), by omega⟩
        simp [show base + 1 + k - base = k + 1 by omega]
      · rw [if_neg h2, if_neg h1, if_neg (by omega)]

/-! ## The named accesses -/

/-- `MemRead` answers exactly for the slots the ring has. -/
theorem memRead_eq_ok {s : State} {id : RingId} {i : Nat} {v : Byte} :
    memRead s id i = .ok v ↔ i < s.cap id ∧ v = (s.ring id).storage.read i := by
  unfold memRead
  split <;> simp_all [eq_comm]

/-- `MemWrite` answers exactly for the slots the ring has, and changes one slot. -/
theorem memWrite_eq_ok {s s' : State} {id : RingId} {i : Nat} {v : Byte} :
    memWrite s id i v = .ok s' ↔
      i < s.cap id ∧ s' = s.setRing id { s.ring id with storage := (s.ring id).storage.write i v } := by
  unfold memWrite
  split <;> simp_all [eq_comm]

/-- Putting a ring back as it was changes nothing. -/
@[simp] theorem setRing_ring (s : State) (id : RingId) : s.setRing id (s.ring id) = s := by cases id <;> rfl

@[simp] theorem ring_setRing (s : State) (id : RingId) (r : Ring) : (s.setRing id r).ring id = r := by
  cases id <;> rfl

@[simp] theorem setRing_setRing (s : State) (id : RingId) (r r' : Ring) :
    (s.setRing id r).setRing id r' = s.setRing id r' := by cases id <;> rfl

/-- A sequence of two steps answers exactly when both do. -/
theorem bind_eq_ok {ε α β : Type} {x : Except ε α} {f : α → Except ε β} {b : β} :
    (x >>= f) = .ok b ↔ ∃ a, x = .ok a ∧ f a = .ok b := by
  cases x with
  | error e =>
    constructor
    · intro h; cases h
    · rintro ⟨_, h, _⟩; cases h
  | ok a =>
    constructor
    · intro h; exact ⟨a, rfl, h⟩
    · rintro ⟨_, h, h'⟩; cases h; exact h'

@[simp] theorem ok_bind {ε α β : Type} (a : α) (f : α → Except ε β) : (Except.ok a >>= f) = f a := rfl

@[simp] theorem pure_eq_ok {ε α : Type} (a : α) : (pure a : Except ε α) = .ok a := rfl

@[simp] theorem slotBytes_length (m : Memory) (base n : Nat) : (slotBytes m base n).length = n := by
  induction n generalizing base with
  | zero => rfl
  | succ n ih => simp [slotBytes, ih]

/-- A stretch of slots that the ring has reads as its bytes. -/
theorem memReads_ok {s : State} {id : RingId} {base len : Nat} (h : len = 0 ∨ base + len ≤ s.cap id) :
    memReads s id base len = .ok (slotBytes (s.ring id).storage base len) := by
  induction len generalizing base with
  | zero => rfl
  | succ len ih =>
    have hb : base < s.cap id := by omega
    simp only [memReads, memRead, hb, if_true, ih (base := base + 1) (by omega)]
    rfl

/-- All that reading a stretch of slots can answer. -/
theorem memReads_eq_ok {s : State} {id : RingId} {base len : Nat} {vs : List Byte} :
    memReads s id base len = .ok vs ↔
      (len = 0 ∨ base + len ≤ s.cap id) ∧ vs = slotBytes (s.ring id).storage base len := by
  constructor
  · intro h
    have hr : len = 0 ∨ base + len ≤ s.cap id := by
      induction len generalizing base vs with
      | zero => exact .inl rfl
      | succ len ih =>
        obtain ⟨v, hv, h⟩ := bind_eq_ok.1 h
        obtain ⟨ws, hws, -⟩ := bind_eq_ok.1 h
        have := (memRead_eq_ok.1 hv).1
        have := ih hws
        omega
    rw [memReads_ok hr] at h
    exact ⟨hr, by injection h with h; exact h.symm⟩
  · rintro ⟨h, rfl⟩
    exact memReads_ok h

/-- Storing into a stretch of slots that the ring has. -/
theorem memWrites_ok {s : State} {id : RingId} {base : Nat} {vs : List Byte}
    (h : vs = [] ∨ base + vs.length ≤ s.cap id) :
    memWrites s id base vs =
      .ok (s.setRing id { s.ring id with storage := (s.ring id).storage.writeRun base vs }) := by
  induction vs generalizing s base with
  | nil => cases id <;> rfl
  | cons v vs ih =>
    have hb : base + (vs.length + 1) ≤ s.cap id := by simpa using h
    have hlt : base < s.cap id := by omega
    simp only [memWrites, memWrite, hlt, if_true, ok_bind]
    rw [ih (by right; rw [setRing_cap]; omega)]
    simp [Memory.writeRun]

/-- All that storing into a stretch of slots can answer. -/
theorem memWrites_eq_ok {s s' : State} {id : RingId} {base : Nat} {vs : List Byte} :
    memWrites s id base vs = .ok s' ↔
      (vs = [] ∨ base + vs.length ≤ s.cap id) ∧
      s' = s.setRing id { s.ring id with storage := (s.ring id).storage.writeRun base vs } := by
  constructor
  · intro h
    have hr : vs = [] ∨ base + vs.length ≤ s.cap id := by
      induction vs generalizing s base with
      | nil => exact .inl rfl
      | cons v vs ih =>
        obtain ⟨s1, h1, h2⟩ := bind_eq_ok.1 h
        obtain ⟨hb, rfl⟩ := memWrite_eq_ok.1 h1
        right
        rcases ih h2 with rfl | h3
        · simpa using hb
        · rw [setRing_cap] at h3
          simp only [List.length_cons]
          omega
    rw [memWrites_ok hr] at h
    exact ⟨hr, by injection h with h; exact h.symm⟩
  · rintro ⟨h, rfl⟩
    exact memWrites_ok h

/-- The bytes of a stretch, one by one. -/
theorem slotBytes_getElem? (m : Memory) (base n i : Nat) :
    (slotBytes m base n)[i]? = if i < n then some (m.read (base + i)) else none := by
  induction n generalizing base i with
  | zero => simp [slotBytes]
  | succ n ih =>
    cases i with
    | zero => simp [slotBytes]
    | succ i => simp [slotBytes, ih, Nat.add_assoc, Nat.add_comm 1 i]

/-- Two memories that read alike on a stretch hold the same bytes there. -/
theorem slotBytes_congr {m m' : Memory} {base n : Nat}
    (h : ∀ i, base ≤ i → i < base + n → m.read i = m'.read i) : slotBytes m base n = slotBytes m' base n := by
  induction n generalizing base with
  | zero => rfl
  | succ n ih =>
    simp only [slotBytes]
    rw [h base (Nat.le_refl _) (by omega), ih fun i h1 h2 => h i (by omega) (by omega)]

/-- A stretch cut in two. -/
theorem slotBytes_add (m : Memory) (base n k : Nat) :
    slotBytes m base (n + k) = slotBytes m base n ++ slotBytes m (base + n) k := by
  induction n generalizing base with
  | zero => simp [slotBytes]
  | succ n ih =>
    rw [show n + 1 + k = (n + k) + 1 by omega]
    simp only [slotBytes, ih, List.cons_append]
    rw [show base + 1 + n = base + (n + 1) by omega]

/-- An overrun ring's storage is in canonical form and inside the ring. -/
theorem freeStorage_wf (tick n : Nat) : (freeStorage tick n).wf := by
  induction n with
  | zero => exact Memory.wf_nil
  | succ n ih => exact Memory.write_wf ih _ _

theorem freeStorage_slots_lt (tick n : Nat) : ∀ c ∈ freeStorage tick n, c.1 < n := by
  induction n with
  | zero => simp [freeStorage]
  | succ n ih => exact Memory.write_slots_lt (fun c hc => Nat.lt_succ_of_lt (ih c hc)) (Nat.lt_succ_self n)

end Sys2Proof.Machine
end

