-- ==== Sys2Proof/Laws/Outcome.lean ====
section
/-! SUPPORT. What the small operations around a meaning answer. -/

namespace Sys2Proof.Machine

open Sys2Proof

@[simp] theorem done_eq (r : Response) (s : State) : done r s = .next (s.reply r) := rfl

@[simp] theorem orFault_ok {α : Type} (a : α) (k : α → Out) : orFault (.ok a) k = k a := rfl

@[simp] theorem orFault_error {α : Type} (f : Fault) (k : α → Out) : orFault (.error f) k = .fault f := rfl

/-- A meaning that may meet a fault on the way ends in a next state exactly when it meets none and what follows does. -/
theorem orFault_eq_next {α : Type} {x : Except Fault α} {k : α → Out} {t : State} :
    orFault x k = .next t ↔ ∃ a, x = .ok a ∧ k a = .next t := by
  cases x with
  | ok a => simp
  | error f => simp

@[simp] theorem withCrc16_some {s : State} {a : BitVec 16} (h : s.crc16 = some a) (k : BitVec 16 → Out) :
    withCrc16 s k = k a := by simp [withCrc16, h]

@[simp] theorem withCrc16_none {s : State} (h : s.crc16 = none) (k : BitVec 16 → Out) :
    withCrc16 s k = .fault .crc16BeforeInit := by simp [withCrc16, h]

@[simp] theorem withCrc32_some {s : State} {a : BitVec 32} (h : s.crc32 = some a) (k : BitVec 32 → Out) :
    withCrc32 s k = k a := by simp [withCrc32, h]

@[simp] theorem withCrc32_none {s : State} (h : s.crc32 = none) (k : BitVec 32 → Out) :
    withCrc32 s k = .fault .crc32BeforeInit := by simp [withCrc32, h]

/-- All that `HOST`'s list can give. -/
theorem fetchRequest_eq_some {s s' : State} {r : Request} :
    fetchRequest s = some (r, s') ↔ ∃ rest, s.requests = r :: rest ∧ s' = { s with requests := rest } := by
  unfold fetchRequest
  cases s.requests with
  | nil => simp
  | cons q rest => simp [eq_comm]

/-- `ENC.STEP` as an equation. -/
theorem execEncStep_eq (inp : Window) (last : Bool) (cap : Nat) (s : State) :
    execEncStep inp last cap s =
      .next ({ s with enc := (encStep s.enc inp last cap).enc }.reply
        (.step (encStep s.enc inp last cap).consumed (encStep s.enc inp last cap).out
          (encStep s.enc inp last cap).status)) := rfl

/-- `DEC.STEP` as an equation. -/
theorem execDecStep_eq (inp : Window) (cap : Nat) (s : State) :
    execDecStep inp cap s =
      .next ({ s with dec := (decStep s.dec inp cap).dec }.reply
        (.step (decStep s.dec inp cap).consumed (decStep s.dec inp cap).out (decStep s.dec inp cap).status)) := rfl

end Sys2Proof.Machine
end

