-- ==== Sys2Proof/Laws/PerInstr.lean ====
section
/-! SUPPORT. Facts about operations as syntax, one lemma per constructor (LAWS.json). -/

namespace Sys2Proof.Laws.RoundTrip

open Sys2Proof

/-- The request an operation encodes to is well formed and decodes to that operation (30_encoding.md R71, R72). -/
def Statement (i : Instr) : Prop := (encode i).wellFormed = true ∧ decode (encode i) = .ok i

theorem crc16Init : Statement .crc16Init := ⟨by decide, rfl⟩

theorem crc16Updb (b : Byte) : Statement (.crc16Updb b) :=
  ⟨by simp [Request.wellFormed, encode, opWord, opOperands, wordFormat, unitField, fnField, Operands.onlyUses],
    by simp [decode, encode, opWord, opOperands, unitField, fnField]⟩

theorem crc16Upd (inp : Window) : Statement (.crc16Upd inp) :=
  ⟨by simp [Request.wellFormed, encode, opWord, opOperands, wordFormat, unitField, fnField, Operands.onlyUses],
    by simp [decode, encode, opWord, opOperands, unitField, fnField]⟩

theorem crc16Final : Statement .crc16Final := ⟨by decide, rfl⟩

theorem crc32Init : Statement .crc32Init := ⟨by decide, rfl⟩

theorem crc32Updb (b : Byte) : Statement (.crc32Updb b) :=
  ⟨by simp [Request.wellFormed, encode, opWord, opOperands, wordFormat, unitField, fnField, Operands.onlyUses],
    by simp [decode, encode, opWord, opOperands, unitField, fnField]⟩

theorem crc32Upd (inp : Window) : Statement (.crc32Upd inp) :=
  ⟨by simp [Request.wellFormed, encode, opWord, opOperands, wordFormat, unitField, fnField, Operands.onlyUses],
    by simp [decode, encode, opWord, opOperands, unitField, fnField]⟩

theorem crc32Final : Statement .crc32Final := ⟨by decide, rfl⟩

theorem encReset : Statement .encReset := ⟨by decide, rfl⟩

theorem encStep (inp : Window) (last : Bool) (cap : Nat) : Statement (.encStep inp last cap) :=
  ⟨by simp [Request.wellFormed, encode, opWord, opOperands, wordFormat, unitField, fnField, Operands.onlyUses],
    by simp [decode, encode, opWord, opOperands, unitField, fnField]⟩

theorem encStep2 (in0 : Window) (in1 : Window) (last : Bool) (cap0 : Nat) (cap1 : Nat) : Statement (.encStep2 in0 in1 last cap0 cap1) :=
  ⟨by simp [Request.wellFormed, encode, opWord, opOperands, wordFormat, unitField, fnField, Operands.onlyUses],
    by simp [decode, encode, opWord, opOperands, unitField, fnField]⟩

theorem encOneshot (inp : Window) (cap : Nat) : Statement (.encOneshot inp cap) :=
  ⟨by simp [Request.wellFormed, encode, opWord, opOperands, wordFormat, unitField, fnField, Operands.onlyUses],
    by simp [decode, encode, opWord, opOperands, unitField, fnField]⟩

theorem decReset : Statement .decReset := ⟨by decide, rfl⟩

theorem decStep (inp : Window) (cap : Nat) : Statement (.decStep inp cap) :=
  ⟨by simp [Request.wellFormed, encode, opWord, opOperands, wordFormat, unitField, fnField, Operands.onlyUses],
    by simp [decode, encode, opWord, opOperands, unitField, fnField]⟩

theorem decStep2 (in0 : Window) (in1 : Window) (cap0 : Nat) (cap1 : Nat) : Statement (.decStep2 in0 in1 cap0 cap1) :=
  ⟨by simp [Request.wellFormed, encode, opWord, opOperands, wordFormat, unitField, fnField, Operands.onlyUses],
    by simp [decode, encode, opWord, opOperands, unitField, fnField]⟩

theorem decOneshot (inp : Window) (cap : Nat) : Statement (.decOneshot inp cap) :=
  ⟨by simp [Request.wellFormed, encode, opWord, opOperands, wordFormat, unitField, fnField, Operands.onlyUses],
    by simp [decode, encode, opWord, opOperands, unitField, fnField]⟩

theorem rxrReset : Statement .rxrReset := ⟨by decide, rfl⟩

theorem rxrWindow : Statement .rxrWindow := ⟨by decide, rfl⟩

theorem rxrCommit (n : Nat) : Statement (.rxrCommit n) :=
  ⟨by simp [Request.wellFormed, encode, opWord, opOperands, wordFormat, unitField, fnField, Operands.onlyUses],
    by simp [decode, encode, opWord, opOperands, unitField, fnField]⟩

theorem rxrDecode (cap : Nat) : Statement (.rxrDecode cap) :=
  ⟨by simp [Request.wellFormed, encode, opWord, opOperands, wordFormat, unitField, fnField, Operands.onlyUses],
    by simp [decode, encode, opWord, opOperands, unitField, fnField]⟩

theorem txrReset : Statement .txrReset := ⟨by decide, rfl⟩

theorem txrWindow : Statement .txrWindow := ⟨by decide, rfl⟩

theorem txrCommit (inp : Window) : Statement (.txrCommit inp) :=
  ⟨by simp [Request.wellFormed, encode, opWord, opOperands, wordFormat, unitField, fnField, Operands.onlyUses],
    by simp [decode, encode, opWord, opOperands, unitField, fnField]⟩

theorem txrEncode (inp : Window) (last : Bool) : Statement (.txrEncode inp last) :=
  ⟨by simp [Request.wellFormed, encode, opWord, opOperands, wordFormat, unitField, fnField, Operands.onlyUses],
    by simp [decode, encode, opWord, opOperands, unitField, fnField]⟩

end Sys2Proof.Laws.RoundTrip
end

