-- ==== Sys2Proof/Laws/Rings.lean ====
section
/-! SUPPORT. The windows stay inside the ring; all that an engine step, an engine stretch and each ring primitive can
answer, said once. -/

namespace Sys2Proof.Machine

open Sys2Proof

/-! ## Windows -/

/-- The first occupied window ends inside the ring (20_memory.md R47). -/
theorem occLen_bound {cap rd wr : Nat} (hr : rd < cap) (hw : wr < cap) : rd + occLen cap rd wr ≤ cap := by
  unfold occLen
  split <;> omega

/-- The first free window ends inside the ring (20_memory.md R47). -/
theorem freeLen_bound {cap rd wr : Nat} (hr : rd < cap) (hw : wr < cap) : wr + freeLen cap wr rd ≤ cap := by
  unfold freeLen
  split
  · omega
  · split <;> omega

/-- A cursor advanced by at most the length of a window that starts at it: `p + n`, but `CAP` turns into 0
(43_transport_adapter.md R200). -/
theorem advance_eq {cap p n : Nat} (h : p + n ≤ cap) :
    advance cap p n = if p + n = cap then 0 else p + n := by
  unfold advance
  split
  · simp_all
  · exact Nat.mod_eq_of_lt (by omega)

theorem advance_lt {cap p n : Nat} (hc : 0 < cap) : advance cap p n < cap := Nat.mod_lt _ hc

/-! ## Engine steps -/

/-- All that `RXENG.PUT` can do: nothing but unspecified values while the flag is set; the overrun; or one byte stored
at `wr` and the cursor advanced (43_transport_adapter.md R216). -/
theorem rxengPut_cases {v : Byte} {s t : State} (h : rxengPut v s = .ok t) :
    (s.rxrOvr = true ∧ t = rxrUnspecified s) ∨
    (s.rxrOvr = false ∧ ringFull s.params.rxCap s.rxr.rd s.rxr.wr ∧ t = rxrUnspecified { s with rxrOvr := true }) ∨
    (s.rxrOvr = false ∧ ¬ ringFull s.params.rxCap s.rxr.rd s.rxr.wr ∧ s.rxr.wr < s.params.rxCap ∧
      t = { s with rxr :=
        ⟨s.rxr.storage.write s.rxr.wr v, s.rxr.rd, advance s.params.rxCap s.rxr.wr 1⟩ }) := by
  unfold rxengPut at h
  split at h
  · exact .inl ⟨‹_›, by injection h with h; exact h.symm⟩
  · have ho : s.rxrOvr = false := by simpa using ‹¬ s.rxrOvr = true›
    split at h
    · exact .inr (.inl ⟨ho, ‹_›, by injection h with h; exact h.symm⟩)
    · obtain ⟨s', h1, h2⟩ := bind_eq_ok.1 h
      obtain ⟨hlt, rfl⟩ := memWrite_eq_ok.1 h1
      refine .inr (.inr ⟨ho, ‹_›, hlt, ?_⟩)
      injection h2 with h2
      rw [← h2]
      simp

/-- All that `TXENG.TAKE` can do: nothing when it is not enabled; otherwise the bytes go to the wire and `rd` advances
(43_transport_adapter.md R226). -/
theorem txengTake_cases {k : Nat} {s t : State} (h : txengTake k s = .ok t) :
    (¬ takeEnabled k s ∧ t = s) ∨
    (takeEnabled k s ∧ s.txr.rd + k ≤ s.params.txCap ∧
      t = { s with
        wireTx := s.wireTx ++ slotBytes s.txr.storage s.txr.rd k
        txr := { s.txr with rd := advance s.params.txCap s.txr.rd k }
        trace := s.trace ++ [.txComplete] }) := by
  unfold txengTake at h
  split at h
  · obtain ⟨vs, h1, h2⟩ := bind_eq_ok.1 h
    obtain ⟨hlt, rfl⟩ := memReads_eq_ok.1 h1
    have hk : k ≠ 0 := by have := ‹takeEnabled k s›.1; omega
    refine .inr ⟨‹_›, ?_, ?_⟩
    · rcases hlt with h | h
      · exact absurd h hk
      · exact h
    · injection h2 with h2
      exact h2.symm
  · exact .inl ⟨‹_›, by injection h with h; exact h.symm⟩

/-- What no engine step touches (10_state.md R22, 60_exceptions.md R262), and what it does to the rest: it may only
set `RXR.ovr`, and the wire only grows. -/
structure EngineFrame (s t : State) : Prop where
  params : t.params = s.params
  crc16 : t.crc16 = s.crc16
  crc32 : t.crc32 = s.crc32
  enc : t.enc = s.enc
  dec : t.dec = s.dec
  rxr_rd : t.rxr.rd = s.rxr.rd
  rxrOvr : s.rxrOvr = true → t.rxrOvr = true
  txr_wr : t.txr.wr = s.txr.wr
  txr_storage : t.txr.storage = s.txr.storage
  wireTx : s.wireTx <+: t.wireTx
  requests : t.requests = s.requests

theorem EngineFrame.refl (s : State) : EngineFrame s s :=
  ⟨rfl, rfl, rfl, rfl, rfl, rfl, id, rfl, rfl, List.prefix_refl _, rfl⟩

theorem EngineFrame.trans {s t u : State} (h : EngineFrame s t) (h' : EngineFrame t u) : EngineFrame s u :=
  ⟨h'.params.trans h.params, h'.crc16.trans h.crc16, h'.crc32.trans h.crc32, h'.enc.trans h.enc,
    h'.dec.trans h.dec, h'.rxr_rd.trans h.rxr_rd, fun x => h'.rxrOvr (h.rxrOvr x), h'.txr_wr.trans h.txr_wr,
    h'.txr_storage.trans h.txr_storage, h.wireTx.trans h'.wireTx, h'.requests.trans h.requests⟩

theorem rxengPut_frame {v : Byte} {s t : State} (h : rxengPut v s = .ok t) : EngineFrame s t := by
  rcases rxengPut_cases h with ⟨-, rfl⟩ | ⟨-, -, rfl⟩ | ⟨-, -, -, rfl⟩ <;>
    exact ⟨rfl, rfl, rfl, rfl, rfl, rfl, by simp, rfl, rfl, List.prefix_refl _, rfl⟩

theorem txengTake_frame {k : Nat} {s t : State} (h : txengTake k s = .ok t) : EngineFrame s t := by
  rcases txengTake_cases h with ⟨-, rfl⟩ | ⟨-, -, rfl⟩
  · exact .refl _
  · exact ⟨rfl, rfl, rfl, rfl, rfl, rfl, id, rfl, rfl, List.prefix_append _ _, rfl⟩

/-- A stretch of engine turns uses up a front part of the schedule and touches only what the engines may. -/
theorem runEngines_frame {turns : List Turn} {s t : State} (h : runEngines turns s = .ok t) :
    (∃ used, turns = used ++ t.sched) ∧ EngineFrame s t := by
  induction turns generalizing s with
  | nil =>
    injection h with h
    subst h
    exact ⟨⟨[], rfl⟩, ⟨rfl, rfl, rfl, rfl, rfl, rfl, id, rfl, rfl, List.prefix_refl _, rfl⟩⟩
  | cons turn rest ih =>
    cases turn with
    | host =>
      injection h with h
      subst h
      exact ⟨⟨[.host], rfl⟩, ⟨rfl, rfl, rfl, rfl, rfl, rfl, id, rfl, rfl, List.prefix_refl _, rfl⟩⟩
    | rxeng v =>
      obtain ⟨s', h1, h2⟩ := bind_eq_ok.1 h
      obtain ⟨⟨used, hu⟩, hf⟩ := ih h2
      exact ⟨⟨.rxeng v :: used, by simp [hu]⟩, (rxengPut_frame h1).trans hf⟩
    | txeng k =>
      obtain ⟨s', h1, h2⟩ := bind_eq_ok.1 h
      obtain ⟨⟨used, hu⟩, hf⟩ := ih h2
      exact ⟨⟨.txeng k :: used, by simp [hu]⟩, (txengTake_frame h1).trans hf⟩

theorem interlude_frame {s t : State} (h : interlude s = .ok t) :
    (∃ used, s.sched = used ++ t.sched) ∧ EngineFrame s t := runEngines_frame h

/-- With no engine turn listed, an interlude only uses up a turn of `HOST`'s. -/
theorem interlude_quiet {s : State} (h : quiet s.sched) :
    interlude s = .ok { s with sched := s.sched.tail } := by
  unfold interlude
  cases hs : s.sched with
  | nil => rfl
  | cons turn rest =>
    have := h turn (by simp [hs])
    cases turn with
    | host => rfl
    | rxeng v => simp [Turn.isEngine] at this
    | txeng k => simp [Turn.isEngine] at this

/-! ## Ring primitives of `HOST` -/

/-- All that `RXR.WINDOW` can answer (43_transport_adapter.md R212). -/
theorem rxrWindow_cases {s t : State} {w : RxWindow} (h : rxrWindow s = .ok (w, t)) :
    (s.rxrOvr = true ∧ w.ovr = true ∧ t = { s with tick := s.tick + 1 }) ∨
    (s.rxrOvr = false ∧ t = s ∧
      (occLen s.params.rxCap s.rxr.rd s.rxr.wr = 0 ∨
        s.rxr.rd + occLen s.params.rxCap s.rxr.rd s.rxr.wr ≤ s.params.rxCap) ∧
      w = ⟨s.rxr.rd, occLen s.params.rxCap s.rxr.rd s.rxr.wr,
        slotBytes s.rxr.storage s.rxr.rd (occLen s.params.rxCap s.rxr.rd s.rxr.wr), false⟩) := by
  unfold rxrWindow at h
  split at h
  · injection h with h
    injection h with h1 h2
    subst h1 h2
    exact .inl ⟨‹_›, rfl, rfl⟩
  · have ho : s.rxrOvr = false := by simpa using ‹¬ s.rxrOvr = true›
    obtain ⟨bs, h1, h2⟩ := bind_eq_ok.1 h
    obtain ⟨hlt, rfl⟩ := memReads_eq_ok.1 h1
    injection h2 with h2
    injection h2 with h3 h4
    subst h3 h4
    exact .inr ⟨ho, rfl, hlt, rfl⟩

/-- All that `RXR.COMMIT` can do (43_transport_adapter.md R213). -/
theorem rxrCommit_cases (n : Nat) (s : State) :
    (n > occLen s.params.rxCap s.rxr.rd s.rxr.wr ∧ rxrCommit n s = (.errRange, s)) ∨
    (n ≤ occLen s.params.rxCap s.rxr.rd s.rxr.wr ∧
      rxrCommit n s = (.ok, { s with rxr := { s.rxr with rd := advance s.params.rxCap s.rxr.rd n } })) := by
  unfold rxrCommit
  split
  · exact .inl ⟨‹_›, rfl⟩
  · exact .inr ⟨by omega, rfl⟩

/-- All that `TXR.COMMIT` can answer (43_transport_adapter.md R223). -/
theorem txrCommit_cases {inp : Window} {s t : State} {st : Status} (h : txrCommit inp s = .ok (st, t)) :
    (inp.length > txrWindowLen s ∧ st = .errRange ∧ t = s) ∨
    (inp.length ≤ txrWindowLen s ∧ (inp = [] ∨ s.txr.wr + inp.length ≤ s.params.txCap) ∧ st = .ok ∧
      t = { s with txr := ⟨s.txr.storage.writeRun s.txr.wr inp, s.txr.rd,
        advance s.params.txCap s.txr.wr inp.length⟩ }) := by
  unfold txrCommit at h
  split at h
  · injection h with h
    injection h with h1 h2
    exact .inl ⟨‹_›, h1.symm, h2.symm⟩
  · obtain ⟨s', h1, h2⟩ := bind_eq_ok.1 h
    obtain ⟨hlt, rfl⟩ := memWrites_eq_ok.1 h1
    injection h2 with h2
    injection h2 with h3 h4
    refine .inr ⟨by omega, hlt, h3.symm, ?_⟩
    rw [← h4]
    simp

/-! ## Composites -/

/-- All that one pass of `RXR.DECODE` is (43_transport_adapter.md R230). -/
theorem rxrDecodePass_eq_ok {cap : Nat} {s : State} {p : RxDecoded} :
    rxrDecodePass cap s = .ok p ↔ ∃ w s1 s2 s3, rxrWindow s = .ok (w, s1) ∧ interlude s1 = .ok s2 ∧
      interlude { s2 with dec := (decStep s2.dec w.bytes cap).dec } = .ok s3 ∧
      p = ⟨(decStep s2.dec w.bytes cap).out, (decStep s2.dec w.bytes cap).status,
        (rxrCommit (decStep s2.dec w.bytes cap).consumed s3).2⟩ := by
  unfold rxrDecodePass
  simp only [bind_eq_ok, Prod.exists]
  constructor
  · rintro ⟨w, s1, h1, s2, h2, s3, h3, h4⟩
    injection h4 with h4
    exact ⟨w, s1, s2, s3, h1, h2, h3, h4.symm⟩
  · rintro ⟨w, s1, s2, s3, h1, h2, h3, rfl⟩
    exact ⟨w, s1, h1, s2, h2, s3, h3, rfl⟩

/-- All that one pass of `TXR.ENCODE` is (43_transport_adapter.md R233). -/
theorem txrEncodePass_eq_ok {inp : Window} {last : Bool} {s : State} {p : TxEncoded} :
    txrEncodePass inp last s = .ok p ↔ ∃ s1 s2 st s3, interlude s = .ok s1 ∧
      interlude { s1 with enc := (encStep s1.enc inp last (txrWindowLen s)).enc } = .ok s2 ∧
      txrCommit (encStep s1.enc inp last (txrWindowLen s)).out s2 = .ok (st, s3) ∧
      p = ⟨(encStep s1.enc inp last (txrWindowLen s)).consumed,
        (encStep s1.enc inp last (txrWindowLen s)).status, s3⟩ := by
  unfold txrEncodePass
  simp only [bind_eq_ok, Prod.exists]
  constructor
  · rintro ⟨s1, h1, s2, h2, st, s3, h3, h4⟩
    injection h4 with h4
    exact ⟨s1, s2, st, s3, h1, h2, h3, h4.symm⟩
  · rintro ⟨s1, s2, st, s3, h1, h2, h3, rfl⟩
    exact ⟨s1, h1, s2, h2, st, s3, h3, rfl⟩

/-- The two ways `RXR.DECODE` can end: after the first pass, or after the second (43_transport_adapter.md R230). -/
theorem rxrDecode_cases {cap : Nat} {s : State} {p : RxDecoded} (h : rxrDecode cap s = .ok p) :
    (rxrDecodePass cap s = .ok p ∧ p.status ≠ .moreInput) ∨
    (∃ p1 s' p2, rxrDecodePass cap s = .ok p1 ∧ p1.status = .moreInput ∧ interlude p1.state = .ok s' ∧
      rxrDecodePass (cap - p1.out.length) s' = .ok p2 ∧ p = { p2 with out := p1.out ++ p2.out }) := by
  unfold rxrDecode at h
  obtain ⟨p1, h1, h⟩ := bind_eq_ok.1 h
  split at h
  · injection h with h
    subst h
    exact .inl ⟨h1, ‹_›⟩
  · obtain ⟨s', h2, h⟩ := bind_eq_ok.1 h
    obtain ⟨p2, h3, h⟩ := bind_eq_ok.1 h
    injection h with h
    exact .inr ⟨p1, s', p2, h1, by simpa using ‹¬ p1.status ≠ .moreInput›, h2, h3, h.symm⟩

/-- All that the return of `RXR.DECODE` does to what its passes gave (10_state.md R24). -/
theorem rxrDecodeReturn_cases (cap : Nat) (p : RxDecoded) :
    (p.state.rxrOvr = false ∧ rxrDecodeReturn cap p = p) ∨
    (p.state.rxrOvr = true ∧
      rxrDecodeReturn cap p =
        ⟨(Config.freeRxOut p.state.tick).take cap, p.status, { p.state with tick := p.state.tick + 1 }⟩) := by
  unfold rxrDecodeReturn
  split
  · exact .inr ⟨‹_›, rfl⟩
  · exact .inl ⟨by simpa using ‹¬ p.state.rxrOvr = true›, rfl⟩

@[simp] theorem rxrDecodeReturn_status (cap : Nat) (p : RxDecoded) : (rxrDecodeReturn cap p).status = p.status := by
  unfold rxrDecodeReturn
  split <;> rfl

/-- The capacity bounds what `RXR.DECODE` returns, overrun or not (43_transport_adapter.md R230). -/
theorem rxrDecodeReturn_out_le {cap : Nat} {p : RxDecoded} (h : p.out.length ≤ cap) :
    (rxrDecodeReturn cap p).out.length ≤ cap := by
  unfold rxrDecodeReturn
  split
  · exact List.length_take_le _ _
  · exact h

/-- The two ways `TXR.ENCODE` can end: after the first pass, or after the second (43_transport_adapter.md R233). -/
theorem txrEncode_cases {inp : Window} {last : Bool} {s : State} {p : TxEncoded}
    (h : txrEncode inp last s = .ok p) :
    (txrEncodePass inp last s = .ok p ∧ p.status ≠ .moreOutput) ∨
    (∃ p1 s' p2, txrEncodePass inp last s = .ok p1 ∧ p1.status = .moreOutput ∧ interlude p1.state = .ok s' ∧
      txrEncodePass (inp.drop p1.consumed) last s' = .ok p2 ∧
      p = { p2 with consumed := p1.consumed + p2.consumed }) := by
  unfold txrEncode at h
  obtain ⟨p1, h1, h⟩ := bind_eq_ok.1 h
  split at h
  · injection h with h
    subst h
    exact .inl ⟨h1, ‹_›⟩
  · obtain ⟨s', h2, h⟩ := bind_eq_ok.1 h
    obtain ⟨p2, h3, h⟩ := bind_eq_ok.1 h
    injection h with h
    exact .inr ⟨p1, s', p2, h1, by simpa using ‹¬ p1.status ≠ .moreOutput›, h2, h3, h.symm⟩

end Sys2Proof.Machine
end

