-- ==== Sys2Proof/Laws/Runs.lean ====
section
/-! SUPPORT. What the fairness of `TXENG` gives: committed bytes reach the wire. -/

namespace Sys2Proof.Machine

open Sys2Proof

/-- Nothing waits in a ring whose cursors agree (10_state.md R21). -/
theorem pending_eq_nil {cap : Nat} {r : Ring} (h : r.rd = r.wr) : pending cap r = [] := by
  simp [pending, occLen, occLen2, h, slotBytes]

/-- What each step keeps as a front part stays one. -/
theorem prefix_of_steps {f : Nat → List Byte} {n m : Nat} (step : ∀ k, n ≤ k → f k <+: f (k + 1)) (h : n ≤ m) :
    f n <+: f m := by
  induction m, h using Nat.le_induction with
  | base => exact List.prefix_refl _
  | succ k hk ih => exact ih.trans (step k hk)

/-- In a weakly fair run whose transmit ring stays non-empty from `n` on, the wire's history outgrows every length. -/
theorem fair_wire_unbounded {run : Nat → State} (fair : TxengWeaklyFair run) {n : Nat}
    (busy : ∀ m, n ≤ m → (run m).txr.rd ≠ (run m).txr.wr)
    (wire : ∀ m, n ≤ m → (run m).wireTx <+: (run (m + 1)).wireTx) (len : Nat) :
    ∃ m, n ≤ m ∧ len ≤ (run m).wireTx.length := by
  induction len with
  | zero => exact ⟨n, le_refl n, Nat.zero_le _⟩
  | succ len ih =>
    obtain ⟨m, hm, hl⟩ := ih
    obtain ⟨k, hk, hlt⟩ := fair m fun j hj => busy j (hm.trans hj)
    have := (prefix_of_steps (f := fun j => (run j).wireTx) (fun j hj => wire j (hm.trans hj)) hk).length_le
    exact ⟨k + 1, by omega, by omega⟩

/-- In a weakly fair run every committed byte reaches the wire (70_reset_and_hazards.md R301; the half of
43_transport_adapter.md R234 that needs fairness), as long as order is kept from then on (R227: each step but a
`TXR.RESET` keeps it). -/
theorem fair_run_sends {run : Nat → State} (fair : TxengWeaklyFair run) {n : Nat}
    (wire : ∀ m, n ≤ m → (run m).wireTx <+: (run (m + 1)).wireTx)
    (order : ∀ m, n ≤ m → (run m).wireTx ++ txPending (run m) <+: (run (m + 1)).wireTx ++ txPending (run (m + 1))) :
    ∃ m, n ≤ m ∧ (run n).wireTx ++ txPending (run n) <+: (run m).wireTx := by
  have keep : ∀ m, n ≤ m → (run n).wireTx ++ txPending (run n) <+: (run m).wireTx ++ txPending (run m) := fun m hm =>
    prefix_of_steps (f := fun j => (run j).wireTx ++ txPending (run j)) order hm
  by_cases busy : ∀ m, n ≤ m → (run m).txr.rd ≠ (run m).txr.wr
  · obtain ⟨m, hm, hl⟩ := fair_wire_unbounded fair busy wire ((run n).wireTx ++ txPending (run n)).length
    exact ⟨m, hm, List.prefix_of_prefix_length_le (keep m hm) (List.prefix_append _ _) hl⟩
  · simp only [not_forall, ne_eq, not_not] at busy
    obtain ⟨m, hm, he⟩ := busy
    exact ⟨m, hm, by simpa [txPending, pending_eq_nil he] using keep m hm⟩

end Sys2Proof.Machine
end

