-- ==== Sys2Proof/Machine/Written.lean ====
section
/-! DEFINITION. The written form of an operation and of its results (30_encoding.md R77): "its mnemonic followed by its
operands in the order of rule R72, separated by commas; a window is written as a byte sequence in hexadecimal between
`⟨` and `⟩`; a result is written after `->`". No operation reads it. -/

namespace Sys2Proof.Machine

open Sys2Proof

/-- The mnemonic column of 30_encoding.md R71. -/
def mnemonicOf : Instr → String
  | .crc16Init => "CRC16.INIT"
  | .crc16Updb _ => "CRC16.UPDB"
  | .crc16Upd _ => "CRC16.UPD"
  | .crc16Final => "CRC16.FINAL"
  | .crc32Init => "CRC32.INIT"
  | .crc32Updb _ => "CRC32.UPDB"
  | .crc32Upd _ => "CRC32.UPD"
  | .crc32Final => "CRC32.FINAL"
  | .encReset => "ENC.RESET"
  | .encStep _ _ _ => "ENC.STEP"
  | .encStep2 _ _ _ _ _ => "ENC.STEP2"
  | .encOneshot _ _ => "ENC.ONESHOT"
  | .decReset => "DEC.RESET"
  | .decStep _ _ => "DEC.STEP"
  | .decStep2 _ _ _ _ => "DEC.STEP2"
  | .decOneshot _ _ => "DEC.ONESHOT"
  | .rxrReset => "RXR.RESET"
  | .rxrWindow => "RXR.WINDOW"
  | .rxrCommit _ => "RXR.COMMIT"
  | .rxrDecode _ => "RXR.DECODE"
  | .txrReset => "TXR.RESET"
  | .txrWindow => "TXR.WINDOW"
  | .txrCommit _ => "TXR.COMMIT"
  | .txrEncode _ _ => "TXR.ENCODE"

/-- The name column of 30_encoding.md R74. -/
def statusName : Status → String
  | .ok => "OK"
  | .moreInput => "MORE_INPUT"
  | .moreOutput => "MORE_OUTPUT"
  | .frameComplete => "FRAME_COMPLETE"
  | .errOutOverflow => "ERR_OUT_OVERFLOW"
  | .errTruncated => "ERR_TRUNCATED"
  | .errStrayZero => "ERR_STRAY_ZERO"
  | .errRange => "ERR_RANGE"
  | .errIllegalOp => "ERR_ILLEGAL_OP"

/-- A hexadecimal digit, capital. -/
def hexDigit (n : Nat) : Char := "0123456789ABCDEF".toList.getD n '?'

/-- The low `digits` hexadecimal digits of a number. -/
def writeHex : Nat → Nat → String
  | 0, _ => ""
  | digits + 1, n => writeHex digits (n / 16) ++ String.singleton (hexDigit (n % 16))

/-- A byte, two digits. -/
def writeByte (b : Byte) : String := writeHex 2 b.toNat

/-- A window: `⟨03 11 22⟩`. -/
def writeWindow (w : Window) : String := "⟨" ++ String.intercalate " " (w.map writeByte) ++ "⟩"

/-- A 1-bit value. -/
def writeBit (b : Bool) : String := if b then "1" else "0"

/-- The operands of an operation in the order of 30_encoding.md R72. -/
def writtenOperands : Instr → List String
  | .crc16Init | .crc16Final | .crc32Init | .crc32Final => []
  | .encReset | .decReset | .rxrReset | .rxrWindow | .txrReset | .txrWindow => []
  | .crc16Updb b | .crc32Updb b => [writeByte b]
  | .crc16Upd w | .crc32Upd w | .txrCommit w => [writeWindow w]
  | .encStep w l c => [writeWindow w, writeBit l, toString c]
  | .encStep2 w v l c d => [writeWindow w, writeWindow v, writeBit l, toString c, toString d]
  | .encOneshot w c | .decStep w c | .decOneshot w c => [writeWindow w, toString c]
  | .decStep2 w v c d => [writeWindow w, writeWindow v, toString c, toString d]
  | .rxrCommit n | .rxrDecode n => [toString n]
  | .txrEncode w l => [writeWindow w, writeBit l]

/-- The results of an operation, in the order of the results column of 30_encoding.md R71. -/
def writtenResults : Response → List String
  | .status st => [statusName st]
  | .crc16 c st => ["crc=" ++ writeHex 4 c.toNat, statusName st]
  | .crc32 c st => ["crc=" ++ writeHex 8 c.toNat, statusName st]
  | .step c o st => ["consumed=" ++ toString c, "out=" ++ writeWindow o, statusName st]
  | .step2 c o p st => ["consumed=" ++ toString c, "out0=" ++ writeWindow o, "out1=" ++ writeWindow p, statusName st]
  | .out o st => ["out=" ++ writeWindow o, statusName st]
  | .rxWindow b l bs ovr st =>
    ["base=" ++ toString b, "len=" ++ toString l, "bytes=" ++ writeWindow bs, "ovr=" ++ writeBit ovr, statusName st]
  | .txWindow b l st => ["base=" ++ toString b, "len=" ++ toString l, statusName st]
  | .consumed c st => ["consumed=" ++ toString c, statusName st]

/-- The written form of an operation (30_encoding.md R77). -/
def writeInstr (i : Instr) : String :=
  match writtenOperands i with
  | [] => mnemonicOf i
  | ops => mnemonicOf i ++ " " ++ String.intercalate ", " ops

/-- The written form of an operation and what it returned (30_encoding.md R77). -/
def writeCall (i : Instr) (r : Response) : String :=
  writeInstr i ++ " -> " ++ String.intercalate ", " (writtenResults r)

end Sys2Proof.Machine
end

