-- ==== Sys2Proof/Tests/Slice0.lean ====
section
/-! SUPPORT. Tests of the definitions: words and vectors written out from `spec/`, each one step on a small state, and
for every obligation with hypotheses a concrete case that meets them (`witness_<name>`). The numbers of the vectors are
those of 95_test_vectors.md. -/

namespace Sys2Proof.Tests

open Sys2Proof Sys2Proof.Machine

/-! ## Helpers -/

/-- What an operation returns. -/
def answer (i : Instr) (s : State) : Option Response :=
  match exec i s with
  | .next t =>
    match t.trace.getLast? with
    | some (.returned r) => some r
    | _ => none
  | _ => none

/-- The state an operation leaves; the state itself where it stops. -/
def after (i : Instr) (s : State) : State :=
  match exec i s with
  | .next t => t
  | _ => s

/-- The state a step leaves; the state itself where it stops. -/
def stepped (s : State) : State :=
  match step s with
  | .next t => t
  | _ => s

/-- The block after reset, its rings of `rx` and `tx` slots. -/
def blank (rx tx : Nat) : State := State.resetWith { Params.default with rxCap := rx, txCap := tx }

/-- A receive ring of 8 slots with the cursors `rd` and `wr`. -/
def rx8 (storage : Memory) (rd wr : Nat) : State := { blank 8 8 with rxr := ⟨storage, rd, wr⟩ }

/-- A transmit ring of 8 slots with the cursors `rd` and `wr`. -/
def tx8 (storage : Memory) (rd wr : Nat) : State := { blank 8 8 with txr := ⟨storage, rd, wr⟩ }

/-- The message `⟨11 22 00 33⟩` (row E12). -/
def msg12 : Window := [0x11, 0x22, 0x00, 0x33]

/-- Its frame. -/
def frame12 : Window := [0x03, 0x11, 0x22, 0x33, 0x00]

/-- `e_buf` with the bytes `w` in front. -/
def bufOf (w : Window) : Window := w ++ List.replicate (254 - w.length) 0x00#8

/-- The encoder in the middle of emitting the first run of `msg12` (trace T2, after call 3). -/
def encData : Enc := ⟨.data, bufOf [0x11, 0x22], 2, 0x03, 2, 1, false, .plain⟩

/-- The encoder owing the delimiter (trace T2, after call 5). -/
def encDelim : Enc := ⟨.delim, bufOf [0x33], 0, 0x33, 0, 0, true, .reduced⟩

/-- The encoder owing a reduced final run (trace T2, after call 4). -/
def encCode : Enc := ⟨.code, bufOf [0x33], 1, 0x33, 0, 0, true, .reduced⟩

/-- The encoder with a byte in hand. -/
def encHold : Enc := ⟨.accum, bufOf [0x11], 1, 0x00, 0, 0, false, .plain⟩

/-- A state in the middle of everything: both rings of 4 slots, wrapped; a run under way in each codec unit. -/
def busy : State :=
  { blank 4 4 with
    crc16 := some 0xFFFF, crc32 := some 0xFFFFFFFF, enc := encData, dec := ⟨0x03, 1, .plain⟩
    rxr := ⟨[(0, 0x33), (3, 0x22)], 3, 1⟩, txr := ⟨[(0, 0x11), (3, 0x03)], 3, 1⟩ }

/-! ## Well-formedness -/

/-- A reserved word is no operation's request (30_encoding.md R75). -/
theorem test_wellFormed_refuses_reserved_word : Request.wellFormed ⟨0x04, .idle⟩ = false := by decide

/-- An operand in a place that the format does not name (`CRC16.UPDB` takes a byte and no count). -/
theorem test_wellFormed_refuses_unnamed_place :
    Request.wellFormed ⟨0x01, { Operands.idle with byte := 0x31, num0 := 1 }⟩ = false := by decide

/-- An operand beside an operation that takes none. -/
theorem test_wellFormed_refuses_operand_of_format_n :
    Request.wellFormed ⟨0x20, { Operands.idle with last := true }⟩ = false := by decide

/-- `ENC.STEP2` names every place but the byte. -/
theorem test_wellFormed_refuses_byte_of_split_form :
    Request.wellFormed ⟨0x22, { Operands.idle with byte := 0x01 }⟩ = false := by decide

theorem test_wellFormed_accepts_named_places :
    Request.wellFormed ⟨0x21, { Operands.idle with win0 := [0x11], last := true, num0 := 4 }⟩ = true := by decide

/-! ## Decoding: every word of 30_encoding.md R71 as unit and function bits, with every operand place filled -/

/-- The operands of the decoding tests. -/
def places : Operands := ⟨0x31, [0x11], [0x22], true, 4, 5⟩

theorem test_decode_crc16 :
    [0b00000000, 0b00000001, 0b00000010, 0b00000011].map (fun w => (decode ⟨w, places⟩).toOption) =
      [some .crc16Init, some (.crc16Updb 0x31), some (.crc16Upd [0x11]), some .crc16Final] := by decide

theorem test_decode_crc32 :
    [0b00010000, 0b00010001, 0b00010010, 0b00010011].map (fun w => (decode ⟨w, places⟩).toOption) =
      [some .crc32Init, some (.crc32Updb 0x31), some (.crc32Upd [0x11]), some .crc32Final] := by decide

theorem test_decode_encoder :
    [0b00100000, 0b00100001, 0b00100010, 0b00100011].map (fun w => (decode ⟨w, places⟩).toOption) =
      [some .encReset, some (.encStep [0x11] true 4), some (.encStep2 [0x11] [0x22] true 4 5),
        some (.encOneshot [0x11] 4)] := by decide

theorem test_decode_decoder :
    [0b00110000, 0b00110001, 0b00110010, 0b00110011].map (fun w => (decode ⟨w, places⟩).toOption) =
      [some .decReset, some (.decStep [0x11] 4), some (.decStep2 [0x11] [0x22] 4 5),
        some (.decOneshot [0x11] 4)] := by decide

theorem test_decode_receive_ring :
    [0b01000000, 0b01000001, 0b01000010, 0b01000011].map (fun w => (decode ⟨w, places⟩).toOption) =
      [some .rxrReset, some .rxrWindow, some (.rxrCommit 4), some (.rxrDecode 4)] := by decide

theorem test_decode_transmit_ring :
    [0b01010000, 0b01010001, 0b01010010, 0b01010011].map (fun w => (decode ⟨w, places⟩).toOption) =
      [some .txrReset, some .txrWindow, some (.txrCommit [0x11]), some (.txrEncode [0x11] true)] := by decide

/-- The reserved words that 95_test_vectors.md section 4.3 lists. -/
theorem test_decode_rejects_reserved :
    [0x04, 0x24, 0x44, 0x54, 0x60, 0xFF].map (fun w => decode ⟨w, places⟩) =
      [.error (.reservedFn 0 4), .error (.reservedFn 2 4), .error (.reservedFn 4 4), .error (.reservedFn 5 4),
        .error (.reservedUnit 6 0), .error (.reservedUnit 15 15)] := by decide

/-- A reserved word through `HOST`'s turn (section 4.3, last row). -/
theorem test_reserved_word_answered :
    (stepped (State.reset.withFetchWord 8 0x24)).trace = [.returned (.status .errIllegalOp)] := by decide

/-- The written form of 30_encoding.md R77 (its own example). -/
theorem test_written_form :
    writeCall (.decStep [0x03, 0x11, 0x22] 16) (.step 3 [0x11, 0x22] .moreInput) =
      "DEC.STEP ⟨03 11 22⟩, 16 -> consumed=3, out=⟨11 22⟩, MORE_INPUT" := by decide

/-! ## CRC engines (section 2) -/

/-- Section 2.1, rows 01 and FF. -/
theorem test_crc_table :
    (crcTable Params.default.crc16Poly 0x01, crcTable Params.default.crc32Poly 0xFF) =
      (0x1189#16, 0x2D02EF8D#32) := by decide

theorem test_crc16_init : (after .crc16Init State.reset).crc16 = some 0xFFFF := by decide

theorem test_crc32_init : (after .crc32Init State.reset).crc32 = some 0xFFFFFFFF := by decide

/-- Section 2.2: `1234`, byte `AB`. -/
theorem test_crc16_updb : (after (.crc16Updb 0xAB) { blank 2 2 with crc16 := some 0x1234 }).crc16 = some 0x6C6C := by
  decide

/-- Section 2.2: `12345678`, byte `AB`. -/
theorem test_crc32_updb :
    (after (.crc32Updb 0xAB) { blank 2 2 with crc32 := some 0x12345678 }).crc32 = some 0x1FC8B738 := by decide

/-- Section 2.3: `⟨01 00 AA BB⟩`. -/
theorem test_crc16_upd :
    (after (.crc16Upd [0x01, 0x00, 0xAA, 0xBB]) { blank 2 2 with crc16 := some 0xFFFF }).crc16 = some 0x464D := by
  decide

/-- Section 2.3: `⟨61 62 63⟩`. -/
theorem test_crc32_upd :
    (after (.crc32Upd [0x61, 0x62, 0x63]) { blank 2 2 with crc32 := some 0xFFFFFFFF }).crc32 = some 0xCADBBE3D := by
  decide

/-- Section 2.3, the check value of `⟨31 .. 39⟩`. -/
theorem test_crc16_final : answer .crc16Final { blank 2 2 with crc16 := some 0x6F91 } = some (.crc16 0x906E .ok) := by
  decide

theorem test_crc32_final :
    answer .crc32Final { blank 2 2 with crc32 := some 0x340BC6D9 } = some (.crc32 0xCBF43926 .ok) := by decide

/-- R31 with U1. -/
theorem test_crc_before_init : exec .crc16Final State.reset = .fault .crc16BeforeInit := rfl

/-! ## Encoder (section 3) -/

theorem test_enc_reset :
    (after .encReset busy).enc.phase = .accum ∧ (after .encReset busy).enc.len = 0 ∧
      (after .encReset busy).enc.code = 0x00 := by decide

/-- Trace T2, call 4. -/
theorem test_enc_step_closes_final_run :
    answer (.encStep [0x33] true 1) busy = some (.step 1 [0x22] .moreOutput) ∧
      (after (.encStep [0x33] true 1) busy).enc.code = 0x33 ∧
      (after (.encStep [0x33] true 1) busy).enc.mode = .reduced := by decide

/-- Trace T2, call 2: the zero is consumed with no output space. -/
theorem test_enc_step_takes_zero_without_space :
    answer (.encStep [0x00] false 0) { blank 2 2 with enc := encHold } = some (.step 1 [] .moreOutput) ∧
      (after (.encStep [0x00] false 0) { blank 2 2 with enc := encHold }).enc.code = 0x02 := by decide

/-- Row S1. -/
theorem test_enc_step2 :
    answer (.encStep2 [0x11, 0x22] [0x00, 0x33] true 2 5) State.reset =
      some (.step2 4 [0x03, 0x11] [0x22, 0x33, 0x00] .frameComplete) := by decide

/-- Row O14, the plain final run. -/
theorem test_enc_oneshot_plain :
    answer (.encOneshot [0x01, 0x02, 0x03] 5) State.reset = some (.out [0x04, 0x01, 0x02, 0x03, 0x00] .ok) := by decide

/-- Row O16: reduced, one slot short. -/
theorem test_enc_oneshot_overflow :
    answer (.encOneshot [0x01, 0x02, 0x04] 3) State.reset = some (.out [0x04, 0x01, 0x02] .errOutOverflow) := by decide

/-- The functions the codec is to compute, on rows E11 and E15. -/
theorem test_frame_of :
    frameOf [0x01, 0x02, 0x04] = [0x04, 0x01, 0x02, 0x00] ∧
      frameOf [0x2F, 0xA2, 0x00, 0x92, 0x73, 0x02] = [0x03, 0x2F, 0xA2, 0x04, 0x92, 0x73, 0x02, 0x00] := by decide

/-! ## Decoder (section 3) -/

theorem test_dec_reset : (after .decReset busy).dec = ⟨0x00, 0, .plain⟩ := by decide

/-- Trace T1, call 4. -/
theorem test_dec_step_owes_zero :
    answer (.decStep [0x33, 0x00] 1) { blank 2 2 with dec := ⟨0x03, 0, .plain⟩ } =
        some (.step 2 [0x00] .moreOutput) ∧
      (after (.decStep [0x33, 0x00] 1) { blank 2 2 with dec := ⟨0x03, 0, .plain⟩ }).dec = ⟨0x33, 50, .reduced⟩ := by
  decide

/-- Row F20: the first delimiter ends the call. -/
theorem test_dec_step_stops_at_delimiter :
    answer (.decStep [0x03, 0x11, 0x00, 0x22, 0x00] 1000) State.reset =
      some (.step 3 [0x11, 0x03] .frameComplete) := by decide

/-- Row S7. -/
theorem test_dec_step2 :
    answer (.decStep2 [0x03, 0x11, 0x22] [0x33, 0x00] 1 8) State.reset =
      some (.step2 5 [0x11] [0x22, 0x00, 0x33] .frameComplete) := by decide

/-- Row O4. -/
theorem test_dec_oneshot_stray_zero :
    answer (.decOneshot [0x03, 0x11, 0x00, 0x22, 0x00] 16) State.reset =
      some (.out [0x11, 0x03] .errStrayZero) := by decide

/-- Row O1. -/
theorem test_dec_oneshot_reduced :
    answer (.decOneshot [0x04, 0x01, 0x02, 0x00] 16) State.reset = some (.out [0x01, 0x02, 0x04] .ok) := by decide

/-- Rows F10 and F17. -/
theorem test_dec_body :
    decBody [0x05, 0x01, 0x02, 0x03, 0x04, 0x01] = [0x01, 0x02, 0x03, 0x04, 0x00] ∧
      decBody [0x04, 0x01] = [0x01, 0x04] := by decide

/-! ## Receive ring (section 4) -/

theorem test_rxr_reset :
    (after .rxrReset { rx8 [] 5 2 with rxrOvr := true }).rxr = ⟨[], 0, 0⟩ ∧
      (after .rxrReset { rx8 [] 5 2 with rxrOvr := true }).rxrOvr = false := by decide

/-- Section 4.1: `rd = 5`, `wr = 2`. -/
theorem test_rxr_window :
    answer .rxrWindow (rx8 [(0, 0x33), (5, 0x03), (6, 0x11), (7, 0x22)] 5 2) =
      some (.rxWindow 5 3 [0x03, 0x11, 0x22] false .ok) := by decide

/-- Section 4.3: `COMMIT 3` wraps. -/
theorem test_rxr_commit_wraps : (after (.rxrCommit 3) (rx8 [] 5 2)).rxr.rd = 0 := by decide

/-- Section 4.3: `COMMIT 4` is refused. -/
theorem test_rxr_commit_range : answer (.rxrCommit 4) (rx8 [] 5 2) = some (.status .errRange) := by decide

/-- Program C: two bytes fall between the two passes (the first pass has two points inside it, then comes the point
between the passes). -/
theorem test_rxr_decode_with_arrivals :
    answer (.rxrDecode 16)
        { rx8 [(5, 0x03), (6, 0x11), (7, 0x22)] 5 0 with
          sched := [.host, .host, .rxeng 0x33, .rxeng 0x00, .host] } = some (.out msg12 .frameComplete) := by decide

/-- Program C, the other interleaving. -/
theorem test_rxr_decode_quiet :
    answer (.rxrDecode 16) (rx8 [(5, 0x03), (6, 0x11), (7, 0x22)] 5 0) = some (.out [0x11, 0x22] .moreInput) ∧
      (after (.rxrDecode 16) (rx8 [(5, 0x03), (6, 0x11), (7, 0x22)] 5 0)).dec = ⟨0x03, 0, .plain⟩ := by decide

/-- Section 4.4: `PUT` at the last slot wraps. -/
theorem test_rxeng_put_wraps :
    (stepped { rx8 [] 5 7 with sched := [.rxeng 0x22] }).rxr = ⟨[(7, 0x22)], 5, 0⟩ := by decide

/-- Section 4.4: `PUT` on a full ring. -/
theorem test_rxeng_put_overruns :
    (stepped { blank 4 4 with rxr := ⟨[], 0, 3⟩, sched := [.rxeng 0x04] }).rxrOvr = true := by decide

/-- An overrun inside `RXR.DECODE`, between `WINDOW` and `DEC.STEP`: the status is the decoder's, what is returned is a
free value (R24, U3). -/
theorem test_rxr_decode_overrun_out_is_free :
    answer (.rxrDecode 2)
        { blank 4 4 with
          rxr := ⟨[(0, 0x04), (1, 0x11), (2, 0x22)], 0, 3⟩
          dec := ⟨0xFF, 254, .reduced⟩, sched := [.rxeng 0x33] } =
      some (.out ((Config.freeRxOut 1).take 2) .frameComplete) := rfl

/-! ## Transmit ring (section 4) -/

theorem test_txr_reset : (after .txrReset (tx8 [(6, 0x03)] 6 7)).txr = ⟨[(6, 0x03)], 0, 0⟩ := by decide

/-- Section 4.2: `rd = 5`, `wr = 1`. -/
theorem test_txr_window : answer .txrWindow (tx8 [] 5 1) = some (.txWindow 1 3 .ok) := by decide

/-- Section 4.2: `rd = 0`, `wr = 3`: a slot is kept free. -/
theorem test_txr_window_keeps_slot : answer .txrWindow (tx8 [] 0 3) = some (.txWindow 3 4 .ok) := by decide

/-- Section 4.3. -/
theorem test_txr_commit :
    (after (.txrCommit [0x03, 0x11]) (tx8 [] 6 6)).txr = ⟨[(6, 0x03), (7, 0x11)], 6, 0⟩ := by decide

theorem test_txr_commit_range : answer (.txrCommit [0x03, 0x11, 0x22]) (tx8 [] 6 6) = some (.status .errRange) := by
  decide

/-- Program B. -/
theorem test_txr_encode :
    answer (.txrEncode msg12 true) (tx8 [] 6 6) = some (.consumed 4 .frameComplete) ∧
      (after (.txrEncode msg12 true) (tx8 [] 6 6)).txr =
        ⟨[(0, 0x22), (1, 0x33), (6, 0x03), (7, 0x11)], 6, 3⟩ := by decide

/-- Section 4.4: `TAKE 2` from slot 6. -/
theorem test_txeng_take :
    (stepped { tx8 [(6, 0x03), (7, 0x11)] 6 3 with sched := [.txeng 2] }).wireTx = [0x03, 0x11] ∧
      (stepped { tx8 [(6, 0x03), (7, 0x11)] 6 3 with sched := [.txeng 2] }).txr.rd = 0 := by decide

/-! ## The invariant has a state

`busy` is in the middle of a run in each codec unit, with both rings wrapped; the others are boundary states. -/

theorem encInv_encData : EncInv encData :=
  ⟨by decide +kernel, by decide, by decide, by decide, by decide, by decide, by decide, by decide⟩

theorem encInv_encCode : EncInv encCode :=
  ⟨by decide +kernel, by decide, by decide, by decide, by decide, by decide, by decide, by decide⟩

theorem encInv_encDelim : EncInv encDelim :=
  ⟨by decide +kernel, by decide, by decide, by decide, by decide, by decide, by decide, by decide⟩

theorem encInv_encHold : EncInv encHold :=
  ⟨by decide +kernel, by decide, by decide, by decide, by decide, by decide, by decide, by decide⟩

/-- A full run in hand: 254 non-zero bytes. -/
theorem encInv_full : EncInv ⟨.accum, List.replicate 254 0x01#8, 254, 0x00, 0, 0, false, .plain⟩ :=
  ⟨by decide +kernel, by decide, by decide, by decide, by decide +kernel, by decide, by decide, by decide⟩

theorem encInv_atReset : EncInv Enc.atReset :=
  ⟨by decide +kernel, by decide, by decide, by decide, by decide, by decide, by decide, by decide⟩

theorem decInv_run : DecInv ⟨0x03, 1, .plain⟩ := ⟨by decide, by decide, by decide, by decide⟩

theorem decInv_reduced : DecInv ⟨0xFF, 254, .reduced⟩ := ⟨by decide, by decide, by decide, by decide⟩

theorem decInv_atReset : DecInv Dec.atReset := ⟨by decide, by decide, by decide, by decide⟩

/-- A ring meets its invariant when a computation says so. -/
theorem ringInv_of {cap : Nat} {r : Ring}
    (h : r.rd < cap ∧ r.wr < cap ∧ r.storage.wf ∧ ∀ c ∈ r.storage, c.1 < cap) : RingInv cap r :=
  ⟨h.1, h.2.1, h.2.2.1, h.2.2.2⟩

theorem ringInv_atReset : RingInv 8 Ring.atReset := ringInv_of (by decide)

theorem inv_busy : Inv busy :=
  ⟨by decide, encInv_encData, decInv_run, ringInv_of (by decide), ringInv_of (by decide)⟩

theorem inv_rx8 {m : Memory} {rd wr : Nat} (h : rd < 8 ∧ wr < 8 ∧ m.wf ∧ ∀ c ∈ m, c.1 < 8) : Inv (rx8 m rd wr) :=
  ⟨(by decide : 2 ≤ 8 ∧ 2 ≤ 8), encInv_atReset, decInv_atReset, ringInv_of h,
    ringInv_atReset⟩

theorem inv_tx8 {m : Memory} {rd wr : Nat} (h : rd < 8 ∧ wr < 8 ∧ m.wf ∧ ∀ c ∈ m, c.1 < 8) : Inv (tx8 m rd wr) :=
  ⟨(by decide : 2 ≤ 8 ∧ 2 ≤ 8), encInv_atReset, decInv_atReset,
    ringInv_atReset, ringInv_of h⟩

/-- A change of the schedule leaves the invariant. -/
theorem inv_sched {s : State} (h : Inv s) (turns : List Turn) : Inv { s with sched := turns } :=
  ⟨h.params, h.enc, h.dec, h.rxr, h.txr⟩

/-- The smallest rings, full: capacity 2 holds one byte. -/
def tight : State :=
  { blank 2 2 with rxr := ⟨[(1, 0x01)], 1, 0⟩, txr := ⟨[(1, 0x01)], 1, 0⟩ }

theorem inv_tight : Inv tight :=
  ⟨by decide, encInv_atReset, decInv_atReset, ringInv_of (by decide), ringInv_of (by decide)⟩

/-! ## Witnesses: a concrete case that meets the hypotheses of each obligation -/

theorem witness_RequestRoundTrip :
    Request.wellFormed ⟨0x21, { Operands.idle with win0 := [0x11], last := true, num0 := 4 }⟩ = true ∧
      decode ⟨0x21, { Operands.idle with win0 := [0x11], last := true, num0 := 4 }⟩ = .ok (.encStep [0x11] true 4) := by
  decide

/-- Both forms of the schedule, and a reserved word of each kind. -/
theorem witness_ReservedWordChangesNothing :
    busy.params.valid ∧ busy.sched = [] ∧ { busy with sched := [.host, .rxeng 0x01] }.sched = [.host, .rxeng 0x01] ∧
      { busy with requests := [⟨0x24, places⟩] }.requests = [⟨0x24, places⟩] ∧ ¬ assignedWord 0x24 ∧
      ¬ assignedWord 0x60 := by decide

theorem witness_StepRunsDecodedOperation :
    busy.params.valid ∧ busy.sched = [] ∧
      { busy with requests := [⟨0x42, places⟩] }.requests = [⟨0x42, places⟩] ∧
      decode ⟨0x42, places⟩ = .ok (.rxrCommit 4) ∧ (Instr.rxrCommit 4).wellFormed := by decide

theorem witness_CrcInitLoadsSeed : busy.params = { Params.default with rxCap := 4, txCap := 4 } ∧
    State.reset.params = Params.default := by decide

theorem witness_CrcByteUpdateIsBitSerial : busy.crc16 = some 0xFFFF ∧ busy.crc32 = some 0xFFFFFFFF := by decide

theorem witness_CrcBulkUpdateFoldsBytes : busy.crc16 = some 0xFFFF ∧ busy.crc32 = some 0xFFFFFFFF := by decide

theorem witness_CrcFinalReturnsXor : busy.crc16 = some 0xFFFF ∧ busy.crc32 = some 0xFFFFFFFF := by decide

theorem witness_CrcBeforeInitFaults : State.reset.crc16 = none ∧ State.reset.crc32 = none := by decide

theorem witness_CrcByteUpdateBijective :
    Params.default.crc16Poly.getLsbD 15 = true ∧ Params.default.crc32Poly.getLsbD 31 = true := by decide

theorem witness_CrcEnginesIndependent :
    exec (.crc32Updb 0x31) busy = .next (after (.crc32Updb 0x31) busy) ∧
      unitField (opWord (.crc32Updb 0x31)) ≠ 0 ∧
      exec (.crc16Updb 0x31) busy = .next (after (.crc16Updb 0x31) busy) ∧
      unitField (opWord (.crc16Updb 0x31)) ≠ 1 := ⟨rfl, by decide, rfl, by decide⟩

theorem witness_EncStepPaysWhatIsOwed : EncInv encData ∧ (true = true → ([] : Window) = []) ∧
    (false = true → msg12 = []) := ⟨encInv_encData, fun _ => rfl, fun h => by cases h⟩

/-- The upper ends of the ranges of R14, in the phase of which R15 asks least. -/
theorem encInv_delim_bounds : EncInv ⟨.delim, List.replicate 254 0x01#8, 0, 0xFF, 254, 254, true, .plain⟩ :=
  ⟨by decide +kernel, by decide, by decide, by decide, by decide, by decide, by decide, by decide⟩

/-- Each status, and each phase in which output can be owed. -/
theorem witness_EncStepStatuses :
    (encStep encHold [] false 0).status = .moreInput ∧ (encStep encHold [] true 0).enc.phase = .code ∧
      (encStep encData [] true 0).enc.phase = .data ∧ (encStep encDelim [] true 0).enc.phase = .delim ∧
      (encStep encDelim [] true 1).status = .frameComplete := by decide

/-- `MORE_INPUT` in the first call, then the rest of the message. -/
theorem witness_EncStepResumesInput :
    exec (.encStep [0x11, 0x22] false 8) State.reset = .next (after (.encStep [0x11, 0x22] false 8) State.reset) ∧
      lastStep (after (.encStep [0x11, 0x22] false 8) State.reset) = some (2, [], .moreInput) ∧
      exec (.encStep [0x00, 0x33] true 8) (after (.encStep [0x11, 0x22] false 8) State.reset) =
        .next (after (.encStep [0x00, 0x33] true 8) (after (.encStep [0x11, 0x22] false 8) State.reset)) ∧
      lastStep (after (.encStep [0x00, 0x33] true 8) (after (.encStep [0x11, 0x22] false 8) State.reset)) =
        some (2, frame12, .frameComplete) := ⟨rfl, by decide, rfl, by decide⟩

/-- `MORE_OUTPUT` in the first call (two slots), then three slots more. -/
theorem witness_EncStepResumesOutput :
    exec (.encStep msg12 true 2) State.reset = .next (after (.encStep msg12 true 2) State.reset) ∧
      lastStep (after (.encStep msg12 true 2) State.reset) = some (3, [0x03, 0x11], .moreOutput) ∧
      exec (.encStep (msg12.drop 3) true 3) (after (.encStep msg12 true 2) State.reset) =
        .next (after (.encStep (msg12.drop 3) true 3) (after (.encStep msg12 true 2) State.reset)) ∧
      lastStep (after (.encStep (msg12.drop 3) true 3) (after (.encStep msg12 true 2) State.reset)) =
        some (1, [0x22, 0x33, 0x00], .frameComplete) := ⟨rfl, by decide, rfl, by decide⟩

/-- Three calls that spell `msg12` and end in `FRAME_COMPLETE`. -/
theorem witness_EncodeCallsSpellFrame :
    EncInv State.reset.enc ∧ State.reset.enc = encReset State.reset.enc ∧
      ∃ t, encodeCalls State.reset msg12 [(2, 4), (9, 2), (9, 9)] = some (frame12, t) :=
  ⟨encInv_atReset, rfl, _, rfl⟩

/-- Every phase a final flush passes through. -/
theorem witness_EncFinalFlushIgnoresInput :
    EncInv encCode ∧ encCode.final = true ∧ EncInv encDelim ∧ encDelim.final = true :=
  ⟨encInv_encCode, rfl, encInv_encDelim, rfl⟩

/-- The message's end with one slot, and the two calls that change nothing. -/
theorem witness_EncStepProgress :
    EncInv encHold ∧ (encStep encHold [] true 1).out = [0x11] ∧
      encStep encHold [] false 5 = ⟨encHold, 0, [], .moreInput⟩ ∧
      EncInv encData ∧ encStep encData msg12 true 0 = ⟨encData, 0, [], .moreOutput⟩ :=
  ⟨encInv_encHold, by decide, rfl, encInv_encData, rfl⟩

/-- The frame of `msg12` fits in 5 bytes and does not in 4. -/
theorem witness_EncOneshotGivesFrame :
    busy.enc.buf.length = 254 ∧ (frameOf msg12).length = 5 ∧ (frameOf msg12).length ≤ 5 ∧
      ¬ (frameOf msg12).length ≤ 4 := by decide +kernel

theorem witness_CanonicalBodyShape : ([] : Window) = [] ∧ msg12 ≠ [] ∧ (encBody msg12).length = 4 := by decide

/-- One body for each line of the rule: at a block that wants one byte more than there is, exactly what there is, one
byte less; and a full block with a byte behind it. -/
theorem witness_DecBodyFollowsRule :
    decBody [0x04, 0x11, 0x22] = [0x11, 0x22, 0x04] ∧ decBody [0x03, 0x11, 0x22] = [0x11, 0x22] ∧
      decBody [0x02, 0x11, 0x22] = [0x11, 0x00, 0x22] ∧
      (decBody (0xFF#8 :: List.replicate 254 0x07#8 ++ [0x01])).length = 254 := by decide +kernel

/-- Each status, and each of the three ways output can be owed: rows F19, F27, F21 and F28, F2. -/
theorem witness_DecStepStatuses :
    (decStep Dec.atReset [0x03, 0x11, 0x22] 9).status = .moreInput ∧
      decStep Dec.atReset [0x02, 0x00] 0 = ⟨⟨0x02, 1, .reduced⟩, 2, [], .moreOutput⟩ ∧
      decStep Dec.atReset [0x03, 0x11, 0x22, 0x00] 1 = ⟨⟨0x03, 1, .plain⟩, 2, [0x11], .moreOutput⟩ ∧
      decStep Dec.atReset [0x01, 0x01, 0x00] 0 = ⟨⟨0x01, 0, .plain⟩, 1, [], .moreOutput⟩ ∧
      (decStep Dec.atReset [0x01, 0x00] 0).status = .frameComplete := by decide

theorem witness_DecStepPaysWhatIsOwed : DecInv ⟨0x03, 1, .plain⟩ ∧ DecInv ⟨0xFF, 254, .reduced⟩ :=
  ⟨decInv_run, decInv_reduced⟩

theorem witness_DecStepResumesInput :
    exec (.decStep [0x03, 0x11] 8) State.reset = .next (after (.decStep [0x03, 0x11] 8) State.reset) ∧
      lastStep (after (.decStep [0x03, 0x11] 8) State.reset) = some (2, [0x11], .moreInput) ∧
      exec (.decStep [0x00] 7) (after (.decStep [0x03, 0x11] 8) State.reset) =
        .next (after (.decStep [0x00] 7) (after (.decStep [0x03, 0x11] 8) State.reset)) ∧
      lastStep (after (.decStep [0x00] 7) (after (.decStep [0x03, 0x11] 8) State.reset)) =
        some (1, [0x03], .frameComplete) := ⟨rfl, by decide, rfl, by decide⟩

theorem witness_DecStepResumesOutput :
    exec (.decStep frame12 2) State.reset = .next (after (.decStep frame12 2) State.reset) ∧
      lastStep (after (.decStep frame12 2) State.reset) = some (3, [0x11, 0x22], .moreOutput) ∧
      exec (.decStep (frame12.drop 3) 2) (after (.decStep frame12 2) State.reset) =
        .next (after (.decStep (frame12.drop 3) 2) (after (.decStep frame12 2) State.reset)) ∧
      lastStep (after (.decStep (frame12.drop 3) 2) (after (.decStep frame12 2) State.reset)) =
        some (2, [0x00, 0x33], .frameComplete) := ⟨rfl, by decide, rfl, by decide⟩

/-- Trace T1's windows and capacities, with a byte of the next frame behind. -/
theorem witness_DecodeCallsGiveMessage :
    State.reset.dec = ⟨0x00, 0, .plain⟩ ∧ zeroFree [0x03, 0x11, 0x22, 0x33] ∧
      ∃ t, decodeCalls State.reset ([0x03, 0x11, 0x22, 0x33] ++ delim :: [0x02])
        [(2, 1), (0, 1), (3, 1), (2, 1), (0, 0), (0, 1)] = some (msg12, 5, t) := ⟨rfl, by decide, _, rfl⟩

/-- One buffer for each outcome: rows O8, O2, O4 and O7; and at the bounds: a truncated buffer one byte short of its
meaning, a message of one byte that does not fit in none. -/
theorem witness_DecOneshotOutcomes :
    ([0x03, 0x11, 0x22, 0x00] : Window) = [0x03, 0x11, 0x22] ++ [delim] ∧ zeroFree [0x03, 0x11, 0x22] ∧
      (decBody [0x03, 0x11, 0x22]).length ≤ 2 ∧
      answer (.decOneshot [0x03, 0x11, 0x22, 0x00] 2) busy = some (.out [0x11, 0x22] .ok) ∧
      answer (.decOneshot [0x03, 0x11, 0x22] 16) busy = some (.out [0x11, 0x22] .errTruncated) ∧
      answer (.decOneshot [0x03, 0x11, 0x00, 0x22, 0x00] 16) busy = some (.out [0x11, 0x03] .errStrayZero) ∧
      answer (.decOneshot [0x03, 0x11, 0x22, 0x00] 1) busy = some (.out [0x11] .errOutOverflow) ∧
      answer (.decOneshot [0x04, 0x11, 0x22] 2) busy = some (.out [0x11, 0x22] .errTruncated) ∧
      decBody [0x04, 0x11, 0x22] = [0x11, 0x22, 0x04] ∧
      answer (.decOneshot [0x02, 0x00] 0) busy = some (.out [] .errOutOverflow) := by decide

theorem witness_OneshotRoundTrip :
    busy.enc.buf.length = 254 ∧ (frameOf msg12).length ≤ 5 ∧ msg12.length ≤ 4 := by decide +kernel

theorem witness_EmptyFramesComplete : State.reset.dec = ⟨0x00, 0, .plain⟩ := rfl

theorem witness_RxrRemainingView : Inv busy ∧ rxrRemaining busy = 3 ∧ Inv (rx8 [] 0 7) ∧ rxrRemaining (rx8 [] 0 7) = 1 :=
  ⟨inv_busy, rfl, inv_rx8 (by decide), rfl⟩

/-- Cursors that give a second window (occupied, and free), none, an empty and a full ring. -/
theorem witness_TwoWindowsCoverRegions :
    (2 ≤ 8 ∧ 5 < 8 ∧ 2 < 8 ∧ occLen2 5 2 = 2) ∧ (2 ≤ 8 ∧ 2 < 8 ∧ 7 < 8 ∧ freeLen2 7 2 = 1) ∧ (2 ≤ 2 ∧ 0 < 2 ∧ 1 < 2 ∧ ringFull 2 0 1) ∧
      (2 ≤ 2 ∧ 1 < 2 ∧ occupied 2 1 1 = 0) := by decide

theorem witness_RxrWindowShowsPending : Inv busy ∧ busy.rxrOvr = false ∧ Inv (rx8 [] 3 3) ∧ (rx8 [] 3 3).rxrOvr = false :=
  ⟨inv_busy, rfl, inv_rx8 (by decide), rfl⟩

theorem witness_RxrWindowReportsOverrun : { busy with rxrOvr := true }.rxrOvr = true := rfl

/-- The whole first window (3 bytes), and one more than it holds; and a state with the flag set. -/
theorem witness_RxrCommitReleases :
    Inv (rx8 [] 5 2) ∧ (rx8 [] 5 2).rxrOvr = false ∧ occLen 8 5 2 = 3 ∧ 3 ≤ occLen 8 5 2 ∧ occLen 8 5 2 < 4 ∧
      Inv { busy with rxrOvr := true } ∧ { busy with rxrOvr := true }.rxrOvr = true :=
  ⟨inv_rx8 (by decide), rfl, by decide, by decide, by decide,
    ⟨inv_busy.params, inv_busy.enc, inv_busy.dec, inv_busy.rxr, inv_busy.txr⟩, rfl⟩

theorem witness_RxengPutAppends :
    Inv { busy with sched := [.rxeng 0x44] } ∧ busy.rxrOvr = false ∧
      ¬ (busy.rxr.wr + 1) % busy.params.rxCap = busy.rxr.rd ∧
      { busy with sched := [.rxeng 0x44] }.sched = [.rxeng 0x44] := ⟨inv_sched inv_busy _, rfl, by decide, rfl⟩

/-- A full ring with the flag clear, and a set flag. -/
theorem witness_RxengPutOverruns :
    Inv { tight with sched := [.rxeng 0x44] } ∧ (tight.rxr.wr + 1) % tight.params.rxCap = tight.rxr.rd ∧
      Inv { busy with rxrOvr := true, sched := [.rxeng 0x44] } ∧
      { busy with rxrOvr := true, sched := [.rxeng 0x44] }.rxrOvr = true :=
  ⟨inv_sched inv_tight _, rfl, ⟨inv_busy.params, inv_busy.enc, inv_busy.dec, inv_busy.rxr, inv_busy.txr⟩, rfl⟩

/-- Only `HOST`'s turns listed, and none listed. -/
theorem witness_RxrDecodeQuietly :
    Inv { busy with sched := [.host, .host] } ∧ busy.rxrOvr = false ∧ quiet [.host, .host] ∧ quiet [] :=
  ⟨inv_sched inv_busy _, rfl, by decide, by decide⟩

/-- A frame's delimiter and a byte of the next frame arrive inside the composite. -/
def arriving : State := { rx8 [(5, 0x01)] 5 6 with sched := [.rxeng 0x00, .rxeng 0x44, .host] }

/-- The same, the decoder owing the reduced byte of the frame before. -/
def arrivingOwed : State := { arriving with dec := ⟨0xFF, 254, .reduced⟩ }

/-- No overrun, and each way a call ends: more input wanted (`busy`); the frame completes in this call, and the next
frame's byte stays; the delimiter came before, with space and without. -/
theorem witness_RxrDecodeUnderArrivals :
    Inv { busy with sched := [.rxeng 0x44, .host] } ∧ { busy with sched := [.rxeng 0x44, .host] }.rxrOvr = false ∧
      (after (.rxrDecode 9) { busy with sched := [.rxeng 0x44, .host] }).rxrOvr = false ∧
      Inv arriving ∧ answer (.rxrDecode 9) arriving = some (.out [] .frameComplete) ∧
      rxPending (after (.rxrDecode 9) arriving) = [0x44] ∧ (after (.rxrDecode 9) arriving).rxrOvr = false ∧
      Inv arrivingOwed ∧ answer (.rxrDecode 1) arrivingOwed = some (.out [0xFF] .frameComplete) ∧
      answer (.rxrDecode 0) arrivingOwed = some (.out [] .moreOutput) ∧
      rxPending (after (.rxrDecode 0) arrivingOwed) = [0x01, 0x00, 0x44] :=
  have h : Inv arriving := inv_sched (inv_rx8 (by decide)) _
  ⟨inv_sched inv_busy _, rfl, by decide, h, by decide, by decide, by decide,
    ⟨h.params, h.enc, decInv_reduced, h.rxr, h.txr⟩, by decide, by decide, by decide⟩

theorem witness_TxrWindowShowsFree : Inv busy ∧ Inv tight ∧ (tight.txr.wr + 1) % tight.params.txCap = tight.txr.rd :=
  ⟨inv_busy, inv_tight, rfl⟩

/-- The whole free window (2 slots), and one byte more. -/
theorem witness_TxrCommitStores :
    Inv (tx8 [] 6 6) ∧ freeLen 8 6 6 = 2 ∧ [0x03#8, 0x11#8].length ≤ freeLen 8 6 6 ∧
      freeLen 8 6 6 < [0x03#8, 0x11#8, 0x22#8].length := ⟨inv_tx8 (by decide), by decide, by decide, by decide⟩

/-- The most allowed, and one more, which is not enabled. -/
theorem witness_TxengTakeSends :
    Inv { tx8 [(6, 0x03), (7, 0x11)] 6 3 with sched := [.txeng 2] } ∧ takeEnabled 2 (tx8 [(6, 0x03), (7, 0x11)] 6 3) ∧
      ¬ takeEnabled 3 (tx8 [(6, 0x03), (7, 0x11)] 6 3) ∧ ¬ takeEnabled 0 (tx8 [(6, 0x03), (7, 0x11)] 6 3) :=
  ⟨inv_sched (inv_tx8 (by decide)) _, by decide, by decide, by decide⟩

theorem witness_TxrEncodeQuietly : Inv { busy with sched := [.host] } ∧ quiet [.host] :=
  ⟨inv_sched inv_busy _, by decide⟩

/-- An empty transmit ring, the final flush begun. -/
def flushing : State := { tx8 [] 6 6 with enc := encCode, sched := [.txeng 1, .host] }

/-- A `TAKE` falls inside the composite; the message ends here, and it goes on after; the final flush begins in the
call, and had begun before. -/
theorem witness_TxrEncodeUnderTakes :
    Inv { busy with sched := [.txeng 1, .host] } ∧ (true = true → ([] : Window) = []) ∧
      (false = true → msg12 = []) ∧
      answer (.txrEncode msg12 true) (tx8 [] 6 6) = some (.consumed 4 .frameComplete) ∧ Inv (tx8 [] 6 6) ∧
      answer (.txrEncode msg12 true) flushing = some (.consumed 0 .frameComplete) ∧ Inv flushing :=
  have h : Inv (tx8 [] 6 6) := inv_tx8 (by decide)
  ⟨inv_sched inv_busy _, fun _ => rfl, nofun, by decide, h, by decide,
    ⟨h.params, encInv_encCode, h.dec, h.rxr, h.txr⟩⟩

theorem witness_TransmitOrderKept :
    Inv busy ∧ exec (.txrCommit [0x44]) busy = .next (after (.txrCommit [0x44]) busy) ∧
      Instr.txrCommit [0x44] ≠ .txrReset ∧ Inv { busy with sched := [.txeng 1] } ∧ (Turn.txeng 1).isEngine = true ∧
      step { busy with sched := [.txeng 1] } = .next (stepped { busy with sched := [.txeng 1] }) :=
  ⟨inv_busy, rfl, by decide, inv_sched inv_busy _, rfl, rfl⟩

theorem witness_ResetMeetsInvariant : Params.valid { Params.default with rxCap := 2, txCap := 2 } := by decide

theorem witness_StepKeepsInvariant :
    Inv { busy with sched := [.rxeng 0x44] } ∧
      step { busy with sched := [.rxeng 0x44] } = .next (stepped { busy with sched := [.rxeng 0x44] }) :=
  ⟨inv_sched inv_busy _, rfl⟩

/-- An initialised engine, and an operation that needs none. -/
theorem witness_EveryOperationReturns :
    Inv busy ∧ unitField (opWord .crc16Final) = 0 ∧ fnField (opWord .crc16Final) ≠ 0 ∧ busy.crc16 ≠ none ∧
      unitField (opWord .crc32Final) = 1 ∧ busy.crc32 ≠ none ∧ unitField (opWord .rxrWindow) = 4 :=
  ⟨inv_busy, by decide, by decide, by decide, by decide, by decide, by decide⟩

/-- A step that goes on, and one that stops. -/
theorem witness_StepStopsOnlyBeforeInit :
    Inv busy ∧ step busy = .next busy ∧
      step (State.reset.withFetchWord 8 0x03) = .fault .crc16BeforeInit := ⟨inv_busy, rfl, rfl⟩

theorem witness_CursorOwnership :
    quiet busy.sched ∧ exec (.rxrCommit 1) busy = .next (after (.rxrCommit 1) busy) ∧
      Instr.rxrCommit 1 ≠ .rxrReset ∧ Instr.rxrCommit 1 ≠ .txrReset ∧
      step { busy with sched := [.rxeng 0x44] } = .next (stepped { busy with sched := [.rxeng 0x44] }) ∧
      step { busy with sched := [.txeng 1] } = .next (stepped { busy with sched := [.txeng 1] }) :=
  ⟨by decide, rfl, by decide, by decide, rfl, rfl⟩

theorem witness_ParametersNeverChange :
    step { busy with sched := [.txeng 1] } = .next (stepped { busy with sched := [.txeng 1] }) := rfl

/-- `busy` with another byte in a slot that is not occupied. -/
def busyToo : State := { busy with rxr := ⟨[(0, 0x33), (2, 0x77), (3, 0x22)], 3, 1⟩ }

/-- A step that keeps the flag clear, and one that overruns. -/
theorem witness_UnreadBytesUnobservable :
    Inv busy ∧ Inv busyToo ∧ AgreeOnRead busy busyToo ∧ busy.rxrOvr = false ∧ busy ≠ busyToo ∧
      step busy = .next busy ∧ (stepped { busy with sched := [.rxeng 0x44] }).rxrOvr = false ∧
      (stepped { tight with sched := [.rxeng 0x44] }).rxrOvr = true :=
  ⟨inv_busy, ⟨by decide, encInv_encData, decInv_run, ringInv_of (by decide), ringInv_of (by decide)⟩,
    ⟨rfl, rfl, rfl, rfl⟩, rfl, fun h => absurd (congrArg (fun s => s.rxr.storage) h) (by decide), rfl, by decide,
    by decide⟩

theorem witness_PseudoOperationsReturn : State.reset.enc.buf.length = 254 := by decide +kernel

/-! ## Fairness (70_reset_and_hazards.md R301) -/

/-- Two bytes wait in the transmit ring and are taken in the first step; then `HOST` stays idle. -/
def fairRun : Nat → State
  | 0 => tx8 [(6, 0x03), (7, 0x11)] 6 0
  | _ + 1 => { tx8 [(6, 0x03), (7, 0x11)] 0 0 with wireTx := [0x03, 0x11], trace := [.txComplete] }

theorem witness_fair_run : IsRun fairRun ∧ TxengWeaklyFair fairRun := by
  refine ⟨fun n => ?_, fun n h => absurd rfl (h (n + 1) (Nat.le_succ n))⟩
  cases n with
  | zero => exact ⟨[.txeng 2], [], rfl⟩
  | succ n => exact ⟨[], [], rfl⟩

end Sys2Proof.Tests
end

/-! SUPPORT. Both rings stay in order through every primitive, engine stretch and composite, and none of them meets a
slot that its ring does not have (20_memory.md R41). -/

namespace Sys2Proof.Machine

open Sys2Proof

/-! ## Both rings in order -/

/-- The part of `Inv` that storage accesses rest on: both rings within their capacities. The engines and `HOST`'s ring
primitives keep it by themselves, whatever the codec units hold. -/
structure RingsInv (s : State) : Prop where
  rxr : RingInv s.params.rxCap s.rxr
  txr : RingInv s.params.txCap s.txr

theorem Inv.rings {s : State} (h : Inv s) : RingsInv s := ⟨h.rxr, h.txr⟩

theorem RingInv.cap_pos {cap : Nat} {r : Ring} (h : RingInv cap r) : 0 < cap := Nat.zero_lt_of_lt h.rd_lt

/-- Releasing bytes: only `rd` moves (43_transport_adapter.md R213, R226). -/
theorem RingInv.release {cap : Nat} {r : Ring} (h : RingInv cap r) (n : Nat) :
    RingInv cap { r with rd := advance cap r.rd n } :=
  ⟨advance_lt h.cap_pos, h.wr_lt, h.storage_wf, h.slots_lt⟩

/-- Storing a run of bytes at `wr` and publishing it (43_transport_adapter.md R216, R223). -/
theorem RingInv.publish {cap : Nat} {r : Ring} {vs : List Byte} (h : RingInv cap r) (hb : r.wr + vs.length ≤ cap) :
    RingInv cap ⟨r.storage.writeRun r.wr vs, r.rd, advance cap r.wr vs.length⟩ :=
  ⟨h.rd_lt, advance_lt h.cap_pos, Memory.writeRun_wf h.storage_wf _ _, Memory.writeRun_slots_lt h.slots_lt hb⟩

/-- The free values of an overrun are kept within the ring (93_implementation_defined.md U3). -/
theorem rxrUnspecified_keeps_rings {s : State} (h : RingsInv s) : RingsInv (rxrUnspecified s) :=
  ⟨⟨h.rxr.rd_lt, Nat.mod_lt _ h.rxr.cap_pos, freeStorage_wf _ _, freeStorage_slots_lt _ _⟩, h.txr⟩

/-! ## Engine steps -/

theorem rxengPut_keeps_rings {v : Byte} {s t : State} (h : RingsInv s) (ht : rxengPut v s = .ok t) : RingsInv t := by
  rcases rxengPut_cases ht with ⟨-, rfl⟩ | ⟨-, -, rfl⟩ | ⟨-, -, hlt, rfl⟩
  · exact rxrUnspecified_keeps_rings h
  · exact rxrUnspecified_keeps_rings ⟨h.rxr, h.txr⟩
  · exact ⟨h.rxr.publish (vs := [v]) hlt, h.txr⟩

theorem txengTake_keeps_rings {k : Nat} {s t : State} (h : RingsInv s) (ht : txengTake k s = .ok t) : RingsInv t := by
  rcases txengTake_cases ht with ⟨-, rfl⟩ | ⟨-, -, rfl⟩
  · exact h
  · exact ⟨h.rxr, h.txr.release k⟩

/-- `RXENG.PUT` always answers: it stores, if at all, at `wr`. -/
theorem rxengPut_ok {s : State} (h : RingsInv s) (v : Byte) : ∃ t, rxengPut v s = .ok t ∧ RingsInv t := by
  suffices hok : ∃ t, rxengPut v s = .ok t by
    obtain ⟨t, ht⟩ := hok
    exact ⟨t, ht, rxengPut_keeps_rings h ht⟩
  unfold rxengPut
  split
  · exact ⟨_, rfl⟩
  · split
    · exact ⟨_, rfl⟩
    · exact ⟨_, bind_eq_ok.2 ⟨_, memWrite_eq_ok.2 ⟨h.rxr.wr_lt, rfl⟩, rfl⟩⟩

/-- `TXENG.TAKE` always answers: what it reads lies in the first occupied window. -/
theorem txengTake_ok {s : State} (h : RingsInv s) (k : Nat) : ∃ t, txengTake k s = .ok t ∧ RingsInv t := by
  suffices hok : ∃ t, txengTake k s = .ok t by
    obtain ⟨t, ht⟩ := hok
    exact ⟨t, ht, txengTake_keeps_rings h ht⟩
  unfold txengTake
  split
  · next hk =>
    have hb : s.txr.rd + k ≤ s.params.txCap := by
      have := occLen_bound h.txr.rd_lt h.txr.wr_lt
      have := hk.2
      omega
    exact ⟨_, bind_eq_ok.2 ⟨_, memReads_eq_ok.2 ⟨.inr hb, rfl⟩, rfl⟩⟩
  · exact ⟨_, rfl⟩

theorem runEngines_ok {s : State} (h : RingsInv s) (turns : List Turn) :
    ∃ t, runEngines turns s = .ok t ∧ RingsInv t := by
  induction turns generalizing s with
  | nil => exact ⟨_, rfl, h.rxr, h.txr⟩
  | cons turn rest ih =>
    cases turn with
    | host => exact ⟨_, rfl, h.rxr, h.txr⟩
    | rxeng v =>
      obtain ⟨s1, e1, h1⟩ := rxengPut_ok h v
      obtain ⟨t, et, ht⟩ := ih h1
      exact ⟨t, bind_eq_ok.2 ⟨s1, e1, et⟩, ht⟩
    | txeng k =>
      obtain ⟨s1, e1, h1⟩ := txengTake_ok h k
      obtain ⟨t, et, ht⟩ := ih h1
      exact ⟨t, bind_eq_ok.2 ⟨s1, e1, et⟩, ht⟩

theorem interlude_ok {s : State} (h : RingsInv s) : ∃ t, interlude s = .ok t ∧ RingsInv t := runEngines_ok h s.sched

/-! ## Ring primitives of `HOST` -/

/-- `RXR.WINDOW` always answers: the window it reads is the first occupied one. -/
theorem rxrWindow_ok {s : State} (h : RingsInv s) : ∃ w t, rxrWindow s = .ok (w, t) ∧ RingsInv t := by
  unfold rxrWindow
  split
  · exact ⟨_, _, rfl, h.rxr, h.txr⟩
  · have hb := occLen_bound h.rxr.rd_lt h.rxr.wr_lt
    exact ⟨_, _, bind_eq_ok.2 ⟨_, memReads_eq_ok.2 ⟨.inr hb, rfl⟩, rfl⟩, h⟩

theorem rxrCommit_keeps_rings {s : State} (h : RingsInv s) (n : Nat) : RingsInv (rxrCommit n s).2 := by
  rcases rxrCommit_cases n s with ⟨-, e⟩ | ⟨-, e⟩ <;> rw [e]
  · exact h
  · exact ⟨h.rxr.release n, h.txr⟩

theorem txrWindowLen_bound {s : State} (h : RingsInv s) : s.txr.wr + txrWindowLen s ≤ s.params.txCap :=
  freeLen_bound h.txr.rd_lt h.txr.wr_lt

theorem txrCommit_keeps_rings {inp : Window} {s t : State} {st : Status} (h : RingsInv s)
    (ht : txrCommit inp s = .ok (st, t)) : RingsInv t := by
  rcases txrCommit_cases ht with ⟨-, -, rfl⟩ | ⟨hlen, -, -, rfl⟩
  · exact h
  · have := txrWindowLen_bound h
    exact ⟨h.rxr, h.txr.publish (by omega)⟩

/-- `TXR.COMMIT` always answers: what it stores lies in the first free window. -/
theorem txrCommit_ok {s : State} (h : RingsInv s) (inp : Window) :
    ∃ st t, txrCommit inp s = .ok (st, t) ∧ RingsInv t := by
  suffices hok : ∃ st t, txrCommit inp s = .ok (st, t) by
    obtain ⟨st, t, ht⟩ := hok
    exact ⟨st, t, ht, txrCommit_keeps_rings h ht⟩
  unfold txrCommit
  split
  · exact ⟨_, _, rfl⟩
  · have := txrWindowLen_bound h
    exact ⟨_, _, bind_eq_ok.2 ⟨_, memWrites_eq_ok.2 ⟨.inr (show s.txr.wr + inp.length ≤ s.params.txCap by omega), rfl⟩, rfl⟩⟩

/-! ## Composites -/

theorem rxrDecodePass_ok {s : State} (h : RingsInv s) (cap : Nat) :
    ∃ p, rxrDecodePass cap s = .ok p ∧ RingsInv p.state := by
  obtain ⟨w, s1, e1, h1⟩ := rxrWindow_ok h
  obtain ⟨s2, e2, h2⟩ := interlude_ok h1
  obtain ⟨s3, e3, h3⟩ := interlude_ok (s := { s2 with dec := (decStep s2.dec w.bytes cap).dec }) ⟨h2.rxr, h2.txr⟩
  exact ⟨_, rxrDecodePass_eq_ok.2 ⟨w, s1, s2, s3, e1, e2, e3, rfl⟩, rxrCommit_keeps_rings h3 _⟩

theorem txrEncodePass_ok {s : State} (h : RingsInv s) (inp : Window) (last : Bool) :
    ∃ p, txrEncodePass inp last s = .ok p ∧ RingsInv p.state := by
  obtain ⟨s1, e1, h1⟩ := interlude_ok h
  obtain ⟨s2, e2, h2⟩ := interlude_ok
    (s := { s1 with enc := (encStep s1.enc inp last (txrWindowLen s)).enc }) ⟨h1.rxr, h1.txr⟩
  obtain ⟨st, s3, e3, h3⟩ := txrCommit_ok h2 (encStep s1.enc inp last (txrWindowLen s)).out
  exact ⟨_, txrEncodePass_eq_ok.2 ⟨s1, s2, st, s3, e1, e2, e3, rfl⟩, h3⟩

theorem rxrDecode_ok {s : State} (h : RingsInv s) (cap : Nat) :
    ∃ p, rxrDecode cap s = .ok p ∧ RingsInv p.state := by
  obtain ⟨p1, e1, h1⟩ := rxrDecodePass_ok h cap
  obtain ⟨s', e', h'⟩ := interlude_ok h1
  obtain ⟨p2, e2, h2⟩ := rxrDecodePass_ok h' (cap - p1.out.length)
  simp only [rxrDecode, e1, ok_bind]
  split
  · exact ⟨p1, rfl, h1⟩
  · simp only [e', e2, ok_bind]
    exact ⟨_, rfl, h2⟩

theorem txrEncode_ok {s : State} (h : RingsInv s) (inp : Window) (last : Bool) :
    ∃ p, txrEncode inp last s = .ok p ∧ RingsInv p.state := by
  obtain ⟨p1, e1, h1⟩ := txrEncodePass_ok h inp last
  obtain ⟨s', e', h'⟩ := interlude_ok h1
  obtain ⟨p2, e2, h2⟩ := txrEncodePass_ok h' (inp.drop p1.consumed) last
  simp only [txrEncode, e1, ok_bind]
  split
  · exact ⟨p1, rfl, h1⟩
  · simp only [e', e2, ok_bind]
    exact ⟨_, rfl, h2⟩

end Sys2Proof.Machine

/-! SUPPORT. What an operation can come to: a result returned to `HOST`, or the stop of a CRC engine that no `INIT` has
written (00_scope.md R7, 10_state.md R31). -/

namespace Sys2Proof.Machine

open Sys2Proof

/-- The meaning answers a next state whose newest trace entry is a result returned to `HOST`. -/
def Returns (o : Out) : Prop := ∃ t r, o = .next t ∧ t.trace.getLast? = some (.returned r)

theorem returns_done (r : Response) (s : State) : Returns (done r s) := ⟨s.reply r, r, rfl, by simp⟩

theorem returns_orFault {α : Type} {x : Except Fault α} {k : α → Out} (hx : ∃ a, x = .ok a)
    (hk : ∀ a, Returns (k a)) : Returns (orFault x k) := by
  obtain ⟨a, rfl⟩ := hx
  exact hk a

/-- An update or final of the CRC-16 engine, by its word: the operations that read the accumulator (30_encoding.md
R71). -/
abbrev readsCrc16 (i : Instr) : Prop := unitField (opWord i) = 0 ∧ fnField (opWord i) ≠ 0

/-- An update or final of the CRC-32 engine, by its word. -/
abbrev readsCrc32 (i : Instr) : Prop := unitField (opWord i) = 1 ∧ fnField (opWord i) ≠ 0

theorem withCrc16_returns_or_faults {k : BitVec 16 → Out} (s : State) (hk : ∀ a, Returns (k a)) :
    Returns (withCrc16 s k) ∨ (s.crc16 = none ∧ withCrc16 s k = .fault .crc16BeforeInit) := by
  cases hs : s.crc16 with
  | none => exact .inr ⟨rfl, withCrc16_none hs k⟩
  | some a => exact .inl (withCrc16_some hs k ▸ hk a)

theorem withCrc32_returns_or_faults {k : BitVec 32 → Out} (s : State) (hk : ∀ a, Returns (k a)) :
    Returns (withCrc32 s k) ∨ (s.crc32 = none ∧ withCrc32 s k = .fault .crc32BeforeInit) := by
  cases hs : s.crc32 with
  | none => exact .inr ⟨rfl, withCrc32_none hs k⟩
  | some a => exact .inl (withCrc32_some hs k ▸ hk a)

theorem exec_returns_or_faults_of_readsCrc16 {i : Instr} (hi : readsCrc16 i) (s : State) :
    Returns (exec i s) ∨ (s.crc16 = none ∧ exec i s = .fault .crc16BeforeInit) := by
  cases i with
  | crc16Updb b => exact withCrc16_returns_or_faults s fun _ => returns_done _ _
  | crc16Upd inp => exact withCrc16_returns_or_faults s fun _ => returns_done _ _
  | crc16Final => exact withCrc16_returns_or_faults s fun _ => returns_done _ _
  | _ => exact absurd hi (by simp [opWord, unitField, fnField])

theorem exec_returns_or_faults_of_readsCrc32 {i : Instr} (hi : readsCrc32 i) (s : State) :
    Returns (exec i s) ∨ (s.crc32 = none ∧ exec i s = .fault .crc32BeforeInit) := by
  cases i with
  | crc32Updb b => exact withCrc32_returns_or_faults s fun _ => returns_done _ _
  | crc32Upd inp => exact withCrc32_returns_or_faults s fun _ => returns_done _ _
  | crc32Final => exact withCrc32_returns_or_faults s fun _ => returns_done _ _
  | _ => exact absurd hi (by simp [opWord, unitField, fnField])

/-- Every other operation returns. Only the four that reach storage need the rings in order. -/
theorem exec_returns {s : State} (h : RingsInv s) {i : Instr} (h16 : ¬ readsCrc16 i) (h32 : ¬ readsCrc32 i) :
    Returns (exec i s) := by
  cases i with
  | crc16Updb | crc16Upd | crc16Final => exact (h16 (by simp [readsCrc16, opWord, unitField, fnField])).elim
  | crc32Updb | crc32Upd | crc32Final => exact (h32 (by simp [readsCrc32, opWord, unitField, fnField])).elim
  | rxrWindow =>
    obtain ⟨w, t, e, -⟩ := rxrWindow_ok h
    exact returns_orFault ⟨_, e⟩ fun _ => returns_done _ _
  | rxrDecode cap =>
    obtain ⟨p, e, -⟩ := rxrDecode_ok h cap
    exact returns_orFault ⟨p, e⟩ fun _ => returns_done _ _
  | txrCommit inp =>
    obtain ⟨st, t, e, -⟩ := txrCommit_ok h inp
    exact returns_orFault ⟨_, e⟩ fun _ => returns_done _ _
  | txrEncode inp last =>
    obtain ⟨p, e, -⟩ := txrEncode_ok h inp last
    exact returns_orFault ⟨p, e⟩ fun _ => returns_done _ _
  | _ => exact returns_done _ _

/-- Settles O55: an operation of a CRC engine returns because the engine is initialised, every other one because the
rings are in order. -/
theorem everyOperationReturns : Obligations.EveryOperationReturns := by
  intro s i hs h16 h32
  by_cases hi16 : readsCrc16 i
  · exact (exec_returns_or_faults_of_readsCrc16 hi16 s).resolve_right fun ⟨hn, _⟩ => h16 hi16.1 hi16.2 hn
  by_cases hi32 : readsCrc32 i
  · exact (exec_returns_or_faults_of_readsCrc32 hi32 s).resolve_right fun ⟨hn, _⟩ => h32 hi32.1 hi32.2 hn
  exact exec_returns hs.rings hi16 hi32

/-! ## A step -/

/-- How a meaning in `s` may end: in a next state, or in the stop of a CRC engine that no `INIT` has written. -/
def StopsOnlyBeforeInit (s : State) (o : Out) : Prop :=
  (∃ t, o = .next t) ∨
  (s.crc16 = none ∧ o = .fault .crc16BeforeInit) ∨ (s.crc32 = none ∧ o = .fault .crc32BeforeInit)

theorem Returns.stopsOnlyBeforeInit {o : Out} (h : Returns o) (s : State) : StopsOnlyBeforeInit s o := by
  obtain ⟨t, -, ht, -⟩ := h
  exact .inl ⟨t, ht⟩

theorem exec_stopsOnlyBeforeInit {s : State} (h : RingsInv s) (i : Instr) : StopsOnlyBeforeInit s (exec i s) := by
  by_cases hi16 : readsCrc16 i
  · exact (exec_returns_or_faults_of_readsCrc16 hi16 s).elim (·.stopsOnlyBeforeInit s) fun hf => .inr (.inl hf)
  by_cases hi32 : readsCrc32 i
  · exact (exec_returns_or_faults_of_readsCrc32 hi32 s).elim (·.stopsOnlyBeforeInit s) fun hf => .inr (.inr hf)
  exact (exec_returns h hi16 hi32).stopsOnlyBeforeInit s

theorem hostTurn_stopsOnlyBeforeInit {s : State} (h : RingsInv s) : StopsOnlyBeforeInit s (hostTurn s) := by
  unfold hostTurn
  split
  · exact .inl ⟨s, rfl⟩
  · next r s' hf =>
    obtain ⟨rest, -, rfl⟩ := fetchRequest_eq_some.1 hf
    split
    · exact exec_stopsOnlyBeforeInit (s := { s with requests := rest }) ⟨h.rxr, h.txr⟩ _
    · exact (returns_done _ _).stopsOnlyBeforeInit s

theorem engineTurn_next {x : Except Fault State} {t : State} (hx : x = .ok t) : engineTurn x = .next t := by
  rw [hx]
  rfl

/-- Settles O56, by whose turn it is: an engine's turn always answers, and on `HOST`'s turn only an operation of a CRC
engine can stop. -/
theorem stepStopsOnlyBeforeInit : Obligations.StepStopsOnlyBeforeInit := by
  intro s hs
  have h (turns : List Turn) : RingsInv { s with sched := turns } := ⟨hs.rxr, hs.txr⟩
  unfold step
  rw [if_pos hs.params]
  split
  · next v rest _ =>
    obtain ⟨t, ht, -⟩ := rxengPut_ok (h rest) v
    exact .inl ⟨t, engineTurn_next ht⟩
  · next k rest _ =>
    obtain ⟨t, ht, -⟩ := txengTake_ok (h rest) k
    exact .inl ⟨t, engineTurn_next ht⟩
  · exact hostTurn_stopsOnlyBeforeInit (h _)
  · exact hostTurn_stopsOnlyBeforeInit hs.rings

end Sys2Proof.Machine

/-! SUPPORT. What each arm of the two codec loops keeps of the registers' invariants, so that every call of `ENC.STEP`
and `DEC.STEP` keeps them (10_state.md R15, R18). -/

namespace Sys2Proof.Machine

open Sys2Proof

/-! ## The encoder's registers -/

theorem EncInv.reset {e : Enc} (h : EncInv e) : EncInv (encReset e) :=
  ⟨h.buf_size, Nat.zero_le _, Nat.zero_le _, Nat.zero_le _, by simp [encRunHeld, zeroFree],
    fun _ => ⟨rfl, rfl, rfl, rfl, rfl⟩, by simp, by simp⟩

/-- A non-zero byte that joins the run is the last byte held (41_cobsr_encoder.md R131 (c)). -/
theorem encRunHeld_push {e : Enc} (h : e.len < e.buf.length) (b : Byte) :
    encRunHeld { e with buf := e.buf.set e.len b, len := e.len + 1 } = encRunHeld e ++ [b] := by
  simp [encRunHeld, List.take_add_one, List.take_set_of_le, h]

theorem EncInv.push {e : Enc} (h : EncInv e) (hp : e.phase = .accum) (hlen : e.len ≠ maxRun) {b : Byte}
    (hb : b ≠ 0x00#8) : EncInv { e with buf := e.buf.set e.len b, len := e.len + 1 } := by
  have hlt : e.len < 254 := Nat.lt_of_le_of_ne h.len_le hlen
  refine ⟨by simpa using h.buf_size, hlt, h.n_le, h.pos_le, ?_, h.in_accum, ?_, h.in_delim⟩
  · rw [encRunHeld_push (h.buf_size ▸ hlt)]
    intro v hv
    rcases List.mem_append.1 hv with hv | hv
    · exact h.held_nonzero v hv
    · exact List.mem_singleton.1 hv ▸ hb
  · simp [hp]

/-- The code of a run of at most 254 bytes is not zero (30_encoding.md R62). -/
theorem ofNat_succ_ne_zero {n : Nat} (h : n ≤ 254) : BitVec.ofNat 8 (n + 1) ≠ 0x00#8 := by
  simp only [ne_eq, BitVec.toNat_eq, BitVec.toNat_ofNat]
  omega

/-- Beginning to emit a run, when what is begun is a run in the sense of 10_state.md R15. -/
theorem EncInv.startFlush {e : Enc} (h : EncInv e) {code : Byte} {n : Nat} {final : Bool} {mode : RunMode}
    (hn : n ≤ e.len) (hc : code ≠ 0x00#8)
    (hm : mode = .reduced ↔ n + 1 = e.len ∧ final = true ∧ code = encBufAt e (e.len - 1)) :
    EncInv (startFlush e code n final mode) :=
  ⟨h.buf_size, h.len_le, hn.trans h.len_le, Nat.zero_le _, h.held_nonzero, by simp,
    fun _ => ⟨Nat.zero_le _, hn, hc, hm⟩, by simp⟩

/-- A run emitted plain and whole: it is not one byte short, so it is not reduced. -/
theorem EncInv.startFlush_plain {e : Enc} (h : EncInv e) {code : Byte} {final : Bool} (hc : code ≠ 0x00#8) :
    EncInv (Machine.startFlush e code e.len final .plain) :=
  h.startFlush (Nat.le_refl _) hc (by simp)

theorem EncInv.finalFlush {e : Enc} (h : EncInv e) : EncInv (encFinalFlush e) := by
  unfold encFinalFlush
  split
  · next hr =>
    obtain ⟨hlen, hcode⟩ := hr
    refine h.startFlush (Nat.sub_le _ _) (fun hz => ?_) (by simp; omega)
    simp [hz] at hcode
  · exact h.startFlush_plain (ofNat_succ_ne_zero h.len_le)

theorem EncInv.code_emitted {e : Enc} (h : EncInv e) (hp : e.phase = .code) :
    EncInv { e with pos := 0, phase := .data } := by
  obtain ⟨-, hn, hc, hm⟩ := h.in_run (.inl hp)
  exact ⟨h.buf_size, h.len_le, h.n_le, Nat.zero_le _, h.held_nonzero, by simp, fun _ => ⟨Nat.zero_le _, hn, hc, hm⟩,
    by simp⟩

theorem EncInv.data_emitted {e : Enc} (h : EncInv e) (hp : e.phase = .data) (hpos : e.pos < e.n) :
    EncInv { e with pos := e.pos + 1 } := by
  obtain ⟨-, hn, hc, hm⟩ := h.in_run (.inr hp)
  exact ⟨h.buf_size, h.len_le, h.n_le, Nat.le_trans hpos h.n_le, h.held_nonzero, by simp [hp],
    fun _ => ⟨hpos, hn, hc, hm⟩, by simp [hp]⟩

theorem EncInv.closeRun {e : Enc} (h : EncInv e) : EncInv (encCloseRun e) := by
  unfold encCloseRun
  split
  · next hf =>
    exact ⟨h.buf_size, Nat.zero_le _, h.n_le, h.pos_le, by simp [encRunHeld, zeroFree], by simp, by simp, fun _ => hf⟩
  · next hf =>
    exact ⟨h.buf_size, Nat.zero_le _, Nat.zero_le _, Nat.zero_le _, by simp [encRunHeld, zeroFree],
      fun _ => ⟨rfl, rfl, by simpa using hf, rfl, rfl⟩, by simp, by simp⟩

/-! ## The encoder's loop -/

/-- The registers after a repetition, whether it returns or goes on. -/
def EncTurn.enc : EncTurn → Enc
  | .again c => c.enc
  | .ret r => r.enc

section
variable {c : EncLoop}

theorem encArmCode_keeps_inv (h : EncInv c.enc) (hp : c.enc.phase = .code) : EncInv (encArmCode c).enc := by
  unfold encArmCode
  split
  · exact h
  · exact h.code_emitted hp

theorem encArmData_keeps_inv (h : EncInv c.enc) (hp : c.enc.phase = .data) : EncInv (encArmData c).enc := by
  unfold encArmData
  split
  · split
    · exact h
    · exact h.data_emitted hp ‹_›
  · exact h.closeRun

theorem encArmDelim_keeps_inv (h : EncInv c.enc) : EncInv (encArmDelim c).enc := by
  unfold encArmDelim
  split
  · exact h
  · exact h.reset

theorem encArmAccum_keeps_inv (last : Bool) (h : EncInv c.enc) (hp : c.enc.phase = .accum) :
    EncInv (encArmAccum last c).enc := by
  unfold encArmAccum
  split
  · split
    · next hfull => exact hfull ▸ h.startFlush_plain (by decide)
    · next hfull =>
      split
      · exact h.startFlush_plain (ofNat_succ_ne_zero h.len_le)
      · exact h.push hp hfull ‹_›
  · split
    · exact h.finalFlush
    · exact h

end

theorem encArm_keeps_inv (last : Bool) {c : EncLoop} (h : EncInv c.enc) : EncInv (encArm last c).enc := by
  unfold encArm
  split
  · exact encArmCode_keeps_inv h ‹_›
  · exact encArmData_keeps_inv h ‹_›
  · exact encArmDelim_keeps_inv h
  · exact encArmAccum_keeps_inv last h ‹_›

/-- A call of `ENC.STEP` keeps the encoder's invariant, whatever the windows. -/
theorem encStep_keeps_inv {e : Enc} (h : EncInv e) (inp : Window) (last : Bool) (cap : Nat) :
    EncInv (encStep e inp last cap).enc := by
  rw [encStep_eq_runOut]
  refine encRunOut_induct (P := fun c r => EncInv c.enc → EncInv r.enc) (fun c r hr hc => ?_)
    (fun c c' r ha ih hc => ih ?_) _ h
  · simpa [hr, EncTurn.enc] using encArm_keeps_inv last hc
  · simpa [ha, EncTurn.enc] using encArm_keeps_inv last hc

/-! ## The decoder's registers and loop -/

theorem DecInv.reset (d : Dec) : DecInv (decReset d) :=
  ⟨Nat.zero_le _, fun _ => Nat.zero_le _, fun _ => ⟨rfl, rfl⟩, by simp⟩

theorem DecInv.code_ne_zero {d : Dec} (h : DecInv d) (hr : 0 < d.run) : d.code ≠ 0x00#8 := by
  intro hc
  have := (h.at_start hc).1
  omega

/-- The delimiter came inside a run. -/
theorem DecInv.to_reduced {d : Dec} (h : DecInv d) (hr : 0 < d.run) : DecInv { d with mode := .reduced } :=
  ⟨h.run_le, h.run_lt_code, fun hc => absurd hc (h.code_ne_zero hr), fun _ => ⟨h.code_ne_zero hr, hr⟩⟩

/-- A data byte was copied. -/
theorem DecInv.byte_copied {d : Dec} (h : DecInv d) (hm : d.mode = .plain) (hr : 0 < d.run) :
    DecInv { d with run := d.run - 1 } :=
  ⟨Nat.le_trans (Nat.sub_le _ _) h.run_le, fun hc => Nat.le_trans (Nat.sub_le _ _) (h.run_lt_code hc),
    fun hc => absurd hc (h.code_ne_zero hr), by simp [hm]⟩

theorem DecInv.takeCode {d : Dec} (hm : d.mode = .plain) {b : Byte} (hb : b ≠ 0x00#8) : DecInv (decTakeCode d b) :=
  ⟨by have := b.isLt; simp only [decTakeCode_run]; omega, fun _ => Nat.le_refl _, fun hc => absurd hc hb,
    by simp [hm]⟩

theorem decArmReduced_keeps_inv {d : Dec} (h : DecInv d) (taken : Nat) (out : Window) (room : Nat) :
    DecInv (decArmReduced d taken out room).dec := by
  unfold decArmReduced
  split
  · exact h
  · exact .reset d

theorem decLoop_keeps_inv {d : Dec} (h : DecInv d) (taken : Nat) (out : Window) (room : Nat) (inp : Window) :
    DecInv (decLoop d taken out room inp).dec := by
  induction inp generalizing d taken out room with
  | nil =>
    unfold decLoop
    split
    · exact decArmReduced_keeps_inv h _ _ _
    · exact h
  | cons b rest ih =>
    unfold decLoop
    split
    · exact decArmReduced_keeps_inv h _ _ _
    next hred =>
    have hm : d.mode = .plain := by
      cases hd : d.mode with
      | plain => rfl
      | reduced => exact absurd hd hred
    split
    · next hr =>
      split
      · exact ih (h.to_reduced hr) _ _ _
      split
      · exact h
      · exact ih (h.byte_copied hm hr) _ _ _
    split
    · exact .reset d
    next hb =>
    split
    · split
      · exact h
      · exact ih (.takeCode hm hb) _ _ _
    · exact ih (.takeCode hm hb) _ _ _

/-- A call of `DEC.STEP` keeps the decoder's invariant, whatever the windows. -/
theorem decStep_keeps_inv {d : Dec} (h : DecInv d) (inp : Window) (cap : Nat) : DecInv (decStep d inp cap).dec :=
  decLoop_keeps_inv h 0 [] cap inp

end Sys2Proof.Machine

/-! SUPPORT. Every primitive, engine stretch, composite and operation keeps the invariant of the state. -/

namespace Sys2Proof.Machine

open Sys2Proof

theorem Inv.withEnc {s : State} (h : Inv s) {e : Enc} (he : EncInv e) : Inv { s with enc := e } :=
  ⟨h.params, he, h.dec, h.rxr, h.txr⟩

theorem Inv.withDec {s : State} (h : Inv s) {d : Dec} (hd : DecInv d) : Inv { s with dec := d } :=
  ⟨h.params, h.enc, hd, h.rxr, h.txr⟩

theorem Inv.withRxr {s : State} (h : Inv s) {r : Ring} (hr : RingInv s.params.rxCap r) (ovr : Bool) :
    Inv { s with rxr := r, rxrOvr := ovr } :=
  ⟨h.params, h.enc, h.dec, hr, h.txr⟩

theorem Inv.withTxr {s : State} (h : Inv s) {r : Ring} (hr : RingInv s.params.txCap r) : Inv { s with txr := r } :=
  ⟨h.params, h.enc, h.dec, h.rxr, hr⟩

/-- The engines touch no codec register and keep both rings in order. -/
theorem Inv.of_engineFrame {s t : State} (h : Inv s) (hf : EngineFrame s t) (hr : RingsInv t) : Inv t :=
  ⟨hf.params ▸ h.params, hf.enc ▸ h.enc, hf.dec ▸ h.dec, hr.rxr, hr.txr⟩

/-- A ring reset moves the cursors to slot 0 and leaves storage (43_transport_adapter.md R211, R221). -/
theorem RingInv.emptied {cap : Nat} {r : Ring} (h : RingInv cap r) : RingInv cap { r with rd := 0, wr := 0 } :=
  ⟨h.cap_pos, h.cap_pos, h.storage_wf, h.slots_lt⟩

/-! ## Primitives -/

theorem rxengPut_keeps_inv {v : Byte} {s t : State} (h : Inv s) (ht : rxengPut v s = .ok t) : Inv t :=
  h.of_engineFrame (rxengPut_frame ht) (rxengPut_keeps_rings h.rings ht)

theorem txengTake_keeps_inv {k : Nat} {s t : State} (h : Inv s) (ht : txengTake k s = .ok t) : Inv t :=
  h.of_engineFrame (txengTake_frame ht) (txengTake_keeps_rings h.rings ht)

theorem interlude_keeps_inv {s t : State} (h : Inv s) (ht : interlude s = .ok t) : Inv t := by
  obtain ⟨t', ht', hr⟩ := interlude_ok h.rings
  obtain rfl : t = t' := Except.ok.inj (ht.symm.trans ht')
  exact h.of_engineFrame (interlude_frame ht).2 hr

theorem rxrWindow_keeps_inv {s t : State} {w : RxWindow} (h : Inv s) (ht : rxrWindow s = .ok (w, t)) : Inv t := by
  rcases rxrWindow_cases ht with ⟨-, -, rfl⟩ | ⟨-, rfl, -⟩
  · exact ⟨h.params, h.enc, h.dec, h.rxr, h.txr⟩
  · exact h

theorem rxrCommit_keeps_inv {s : State} (h : Inv s) (n : Nat) : Inv (rxrCommit n s).2 := by
  rcases rxrCommit_cases n s with ⟨-, e⟩ | ⟨-, e⟩ <;> rw [e]
  · exact h
  · exact h.withRxr (h.rxr.release n) s.rxrOvr

theorem txrCommit_keeps_inv {inp : Window} {s t : State} {st : Status} (h : Inv s)
    (ht : txrCommit inp s = .ok (st, t)) : Inv t := by
  have hr := txrCommit_keeps_rings h.rings ht
  rcases txrCommit_cases ht with ⟨-, -, rfl⟩ | ⟨-, -, -, rfl⟩
  · exact h
  · exact h.withTxr hr.txr

/-! ## Composites -/

theorem rxrDecodePass_keeps_inv {cap : Nat} {s : State} {p : RxDecoded} (h : Inv s)
    (hp : rxrDecodePass cap s = .ok p) : Inv p.state := by
  obtain ⟨w, s1, s2, s3, e1, e2, e3, rfl⟩ := rxrDecodePass_eq_ok.1 hp
  have h2 : Inv s2 := interlude_keeps_inv (rxrWindow_keeps_inv h e1) e2
  have h3 : Inv s3 := interlude_keeps_inv (h2.withDec (decStep_keeps_inv h2.dec _ _)) e3
  exact rxrCommit_keeps_inv h3 _

theorem rxrDecode_keeps_inv {cap : Nat} {s : State} {p : RxDecoded} (h : Inv s) (hp : rxrDecode cap s = .ok p) :
    Inv p.state := by
  rcases rxrDecode_cases hp with ⟨e, -⟩ | ⟨p1, s', p2, e1, -, e', e2, rfl⟩
  · exact rxrDecodePass_keeps_inv h e
  · have h' : Inv s' := interlude_keeps_inv (rxrDecodePass_keeps_inv h e1) e'
    exact rxrDecodePass_keeps_inv (p := p2) h' e2

theorem rxrDecodeReturn_keeps_inv {cap : Nat} {p : RxDecoded} (h : Inv p.state) :
    Inv (rxrDecodeReturn cap p).state := by
  rcases rxrDecodeReturn_cases cap p with ⟨-, e⟩ | ⟨-, e⟩ <;> rw [e]
  · exact h
  · exact ⟨h.params, h.enc, h.dec, h.rxr, h.txr⟩

theorem txrEncodePass_keeps_inv {inp : Window} {last : Bool} {s : State} {p : TxEncoded} (h : Inv s)
    (hp : txrEncodePass inp last s = .ok p) : Inv p.state := by
  obtain ⟨s1, s2, st, s3, e1, e2, e3, rfl⟩ := txrEncodePass_eq_ok.1 hp
  have h1 : Inv s1 := interlude_keeps_inv h e1
  have h2 : Inv s2 := interlude_keeps_inv (h1.withEnc (encStep_keeps_inv h1.enc _ _ _)) e2
  exact txrCommit_keeps_inv h2 e3

theorem txrEncode_keeps_inv {inp : Window} {last : Bool} {s : State} {p : TxEncoded} (h : Inv s)
    (hp : txrEncode inp last s = .ok p) : Inv p.state := by
  rcases txrEncode_cases hp with ⟨e, -⟩ | ⟨p1, s', p2, e1, -, e', e2, rfl⟩
  · exact txrEncodePass_keeps_inv h e
  · have h' : Inv s' := interlude_keeps_inv (txrEncodePass_keeps_inv h e1) e'
    exact txrEncodePass_keeps_inv (p := p2) h' e2

/-! ## Outcomes -/

/-- The meaning, where it answers a next state, answers one that meets the invariant. -/
def KeepsInv (o : Out) : Prop := ∀ t, o = .next t → Inv t

theorem keepsInv_next {s : State} (h : Inv s) : KeepsInv (.next s) := by
  rintro t ⟨⟩
  exact h

theorem keepsInv_done {s : State} (h : Inv s) (r : Response) : KeepsInv (done r s) :=
  keepsInv_next ⟨h.params, h.enc, h.dec, h.rxr, h.txr⟩

theorem keepsInv_orFault {α : Type} {x : Except Fault α} {k : α → Out} (h : ∀ a, x = .ok a → KeepsInv (k a)) :
    KeepsInv (orFault x k) := by
  intro t ht
  obtain ⟨a, ha, hk⟩ := orFault_eq_next.1 ht
  exact h a ha t hk

theorem keepsInv_withCrc16 {s : State} {k : BitVec 16 → Out} (h : ∀ a, KeepsInv (k a)) :
    KeepsInv (withCrc16 s k) := by
  cases hs : s.crc16 with
  | none => simp [withCrc16_none hs, KeepsInv]
  | some a => exact withCrc16_some hs k ▸ h a

theorem keepsInv_withCrc32 {s : State} {k : BitVec 32 → Out} (h : ∀ a, KeepsInv (k a)) :
    KeepsInv (withCrc32 s k) := by
  cases hs : s.crc32 with
  | none => simp [withCrc32_none hs, KeepsInv]
  | some a => exact withCrc32_some hs k ▸ h a

/-- Every operation keeps the invariant of the state. -/
theorem exec_keepsInv {s : State} (h : Inv s) (i : Instr) : KeepsInv (exec i s) := by
  have hcrc (x : Option (BitVec 16)) (y : Option (BitVec 32)) : Inv { s with crc16 := x, crc32 := y } :=
    ⟨h.params, h.enc, h.dec, h.rxr, h.txr⟩
  cases i with
  | crc16Init => exact keepsInv_done (hcrc _ _) _
  | crc16Updb | crc16Upd => exact keepsInv_withCrc16 fun _ => keepsInv_done (hcrc _ _) _
  | crc16Final => exact keepsInv_withCrc16 fun _ => keepsInv_done h _
  | crc32Init => exact keepsInv_done (hcrc _ _) _
  | crc32Updb | crc32Upd => exact keepsInv_withCrc32 fun _ => keepsInv_done (hcrc _ _) _
  | crc32Final => exact keepsInv_withCrc32 fun _ => keepsInv_done h _
  | encReset => exact keepsInv_done (h.withEnc h.enc.reset) _
  | encStep | encStep2 => exact keepsInv_done (h.withEnc (encStep_keeps_inv h.enc _ _ _)) _
  | encOneshot => exact keepsInv_done (h.withEnc (encStep_keeps_inv h.enc.reset _ _ _).reset) _
  | decReset | decOneshot => exact keepsInv_done (h.withDec (.reset _)) _
  | decStep | decStep2 => exact keepsInv_done (h.withDec (decStep_keeps_inv h.dec _ _)) _
  | rxrReset => exact keepsInv_done (h.withRxr h.rxr.emptied _) _
  | rxrWindow => exact keepsInv_orFault fun _ e => keepsInv_done (rxrWindow_keeps_inv h e) _
  | rxrCommit n => exact keepsInv_done (rxrCommit_keeps_inv h n) _
  | rxrDecode =>
    exact keepsInv_orFault fun _ e => keepsInv_done (rxrDecodeReturn_keeps_inv (rxrDecode_keeps_inv h e)) _
  | txrReset => exact keepsInv_done (h.withTxr h.txr.emptied) _
  | txrWindow => exact keepsInv_done h _
  | txrCommit => exact keepsInv_orFault fun _ e => keepsInv_done (txrCommit_keeps_inv h e) _
  | txrEncode => exact keepsInv_orFault fun _ e => keepsInv_done (txrEncode_keeps_inv h e) _

/-! ## A step -/

theorem hostTurn_keepsInv {s : State} (h : Inv s) : KeepsInv (hostTurn s) := by
  unfold hostTurn
  split
  · exact keepsInv_next h
  · next r s' hf =>
    obtain ⟨rest, -, rfl⟩ := fetchRequest_eq_some.1 hf
    have h' : Inv { s with requests := rest } := ⟨h.params, h.enc, h.dec, h.rxr, h.txr⟩
    split
    · exact exec_keepsInv h' _
    · exact keepsInv_done h' _

theorem engineTurn_keepsInv {x : Except Fault State} (h : ∀ t, x = .ok t → Inv t) : KeepsInv (engineTurn x) :=
  keepsInv_orFault fun t ht => keepsInv_next (h t ht)

/-- Settles O54, by whose turn it is: the engines keep both rings in order and touch no codec register, and every
operation of `HOST` keeps the invariant. -/
theorem stepKeepsInvariant : Obligations.StepKeepsInvariant := by
  intro s t hs
  have h (turns : List Turn) : Inv { s with sched := turns } := ⟨hs.params, hs.enc, hs.dec, hs.rxr, hs.txr⟩
  suffices hk : KeepsInv (step s) from hk t
  unfold step
  rw [if_pos hs.params]
  split
  · exact engineTurn_keepsInv fun _ => rxengPut_keeps_inv (h _)
  · exact engineTurn_keepsInv fun _ => txengTake_keeps_inv (h _)
  · exact hostTurn_keepsInv (h _)
  · exact hostTurn_keepsInv hs

end Sys2Proof.Machine

/-! SUPPORT. No unit but a CRC engine reads or writes its accumulator (10_state.md R13): the other units' operations do
the same whatever the accumulators hold. -/

namespace Sys2Proof.Machine

open Sys2Proof

/-- The state with other contents in the two accumulators. -/
def State.withCrcs (s : State) (x : Option (BitVec 16)) (y : Option (BitVec 32)) : State :=
  { s with crc16 := x, crc32 := y }

@[simp] theorem withCrcs_self (s : State) : s.withCrcs s.crc16 s.crc32 = s := rfl

section
variable {s t : State} (x : Option (BitVec 16)) (y : Option (BitVec 32))

/-! ## Storage and engines -/

theorem memReads_withCrcs {id : RingId} {base len : Nat} {vs : List Byte} (h : memReads s id base len = .ok vs) :
    memReads (s.withCrcs x y) id base len = .ok vs := by
  rw [memReads_eq_ok] at h ⊢
  cases id <;> exact h

theorem rxengPut_withCrcs {v : Byte} (h : rxengPut v s = .ok t) :
    rxengPut v (s.withCrcs x y) = .ok (t.withCrcs x y) := by
  rcases rxengPut_cases h with ⟨ho, rfl⟩ | ⟨ho, hfull, rfl⟩ | ⟨ho, hfull, hlt, rfl⟩
  · exact if_pos ho
  · exact (if_neg (by simp [State.withCrcs, ho])).trans (if_pos hfull)
  · refine (if_neg (by simp [State.withCrcs, ho])).trans ((if_neg hfull).trans ?_)
    exact bind_eq_ok.2 ⟨_, memWrite_eq_ok.2 ⟨hlt, rfl⟩, rfl⟩

theorem txengTake_withCrcs {k : Nat} (h : txengTake k s = .ok t) :
    txengTake k (s.withCrcs x y) = .ok (t.withCrcs x y) := by
  rcases txengTake_cases h with ⟨hk, rfl⟩ | ⟨hk, hlt, rfl⟩
  · exact if_neg hk
  · exact (if_pos hk).trans (bind_eq_ok.2 ⟨_, memReads_withCrcs x y (memReads_eq_ok.2 ⟨.inr hlt, rfl⟩), rfl⟩)

theorem runEngines_withCrcs {turns : List Turn} (h : runEngines turns s = .ok t) :
    runEngines turns (s.withCrcs x y) = .ok (t.withCrcs x y) := by
  induction turns generalizing s with
  | nil => cases h; rfl
  | cons turn rest ih =>
    cases turn with
    | host => cases h; rfl
    | rxeng v =>
      obtain ⟨s1, h1, h2⟩ := bind_eq_ok.1 h
      exact bind_eq_ok.2 ⟨_, rxengPut_withCrcs x y h1, ih h2⟩
    | txeng k =>
      obtain ⟨s1, h1, h2⟩ := bind_eq_ok.1 h
      exact bind_eq_ok.2 ⟨_, txengTake_withCrcs x y h1, ih h2⟩

theorem interlude_withCrcs (h : interlude s = .ok t) : interlude (s.withCrcs x y) = .ok (t.withCrcs x y) :=
  runEngines_withCrcs x y h

/-! ## Ring primitives of `HOST` -/

theorem rxrWindow_withCrcs {w : RxWindow} (h : rxrWindow s = .ok (w, t)) :
    rxrWindow (s.withCrcs x y) = .ok (w, t.withCrcs x y) := by
  unfold rxrWindow at h ⊢
  split at h
  · next ho =>
    rw [if_pos (show (s.withCrcs x y).rxrOvr = true from ho)]
    cases h
    rfl
  · next ho =>
    rw [if_neg (show ¬ (s.withCrcs x y).rxrOvr = true from ho)]
    obtain ⟨bytes, h1, h2⟩ := bind_eq_ok.1 h
    cases h2
    exact bind_eq_ok.2 ⟨bytes, memReads_withCrcs x y h1, rfl⟩

theorem rxrCommit_withCrcs (n : Nat) (s : State) :
    rxrCommit n (s.withCrcs x y) = ((rxrCommit n s).1, (rxrCommit n s).2.withCrcs x y) := by
  rcases rxrCommit_cases n s with ⟨hn, e⟩ | ⟨hn, e⟩ <;> rw [e]
  · exact if_pos hn
  · exact if_neg (Nat.not_lt.2 hn)

theorem txrCommit_withCrcs {inp : Window} {st : Status} (h : txrCommit inp s = .ok (st, t)) :
    txrCommit inp (s.withCrcs x y) = .ok (st, t.withCrcs x y) := by
  rcases txrCommit_cases h with ⟨hlen, rfl, rfl⟩ | ⟨hlen, hb, rfl, rfl⟩
  · exact if_pos hlen
  · exact (if_neg (Nat.not_lt.2 hlen)).trans (bind_eq_ok.2 ⟨_, memWrites_eq_ok.2 ⟨hb, rfl⟩, rfl⟩)

/-! ## Composites -/

/-- What a pass or the whole of `RXR.DECODE` gave, with other contents in the accumulators. -/
def RxDecoded.withCrcs (p : RxDecoded) (x : Option (BitVec 16)) (y : Option (BitVec 32)) : RxDecoded :=
  { p with state := p.state.withCrcs x y }

/-- What a pass or the whole of `TXR.ENCODE` gave, with other contents in the accumulators. -/
def TxEncoded.withCrcs (p : TxEncoded) (x : Option (BitVec 16)) (y : Option (BitVec 32)) : TxEncoded :=
  { p with state := p.state.withCrcs x y }

theorem rxrDecodePass_withCrcs {cap : Nat} {p : RxDecoded} (h : rxrDecodePass cap s = .ok p) :
    rxrDecodePass cap (s.withCrcs x y) = .ok (p.withCrcs x y) := by
  obtain ⟨w, s1, s2, s3, e1, e2, e3, rfl⟩ := rxrDecodePass_eq_ok.1 h
  refine rxrDecodePass_eq_ok.2 ⟨w, _, _, _, rxrWindow_withCrcs x y e1, interlude_withCrcs x y e2,
    interlude_withCrcs x y e3, ?_⟩
  rw [rxrCommit_withCrcs]
  rfl

theorem rxrDecode_withCrcs {cap : Nat} {p : RxDecoded} (h : rxrDecode cap s = .ok p) :
    rxrDecode cap (s.withCrcs x y) = .ok (p.withCrcs x y) := by
  rcases rxrDecode_cases h with ⟨e, hst⟩ | ⟨p1, s', p2, e1, hst, e', e2, rfl⟩
  · exact bind_eq_ok.2 ⟨_, rxrDecodePass_withCrcs x y e, if_pos hst⟩
  · refine bind_eq_ok.2 ⟨_, rxrDecodePass_withCrcs x y e1, (if_neg (not_not_intro hst)).trans ?_⟩
    exact bind_eq_ok.2 ⟨_, interlude_withCrcs x y e', bind_eq_ok.2 ⟨_, rxrDecodePass_withCrcs x y e2, rfl⟩⟩

theorem rxrDecodeReturn_withCrcs (cap : Nat) (p : RxDecoded) :
    rxrDecodeReturn cap (p.withCrcs x y) = (rxrDecodeReturn cap p).withCrcs x y := by
  rcases rxrDecodeReturn_cases cap p with ⟨ho, e⟩ | ⟨ho, e⟩ <;> rw [e]
  · exact if_neg (by simp [RxDecoded.withCrcs, State.withCrcs, ho])
  · exact if_pos ho

theorem txrEncodePass_withCrcs {inp : Window} {last : Bool} {p : TxEncoded} (h : txrEncodePass inp last s = .ok p) :
    txrEncodePass inp last (s.withCrcs x y) = .ok (p.withCrcs x y) := by
  obtain ⟨s1, s2, st, s3, e1, e2, e3, rfl⟩ := txrEncodePass_eq_ok.1 h
  exact txrEncodePass_eq_ok.2 ⟨_, _, st, _, interlude_withCrcs x y e1, interlude_withCrcs x y e2,
    txrCommit_withCrcs x y e3, rfl⟩

theorem txrEncode_withCrcs {inp : Window} {last : Bool} {p : TxEncoded} (h : txrEncode inp last s = .ok p) :
    txrEncode inp last (s.withCrcs x y) = .ok (p.withCrcs x y) := by
  rcases txrEncode_cases h with ⟨e, hst⟩ | ⟨p1, s', p2, e1, hst, e', e2, rfl⟩
  · exact bind_eq_ok.2 ⟨_, txrEncodePass_withCrcs x y e, if_pos hst⟩
  · refine bind_eq_ok.2 ⟨_, txrEncodePass_withCrcs x y e1, (if_neg (not_not_intro hst)).trans ?_⟩
    exact bind_eq_ok.2 ⟨_, interlude_withCrcs x y e', bind_eq_ok.2 ⟨_, txrEncodePass_withCrcs x y e2, rfl⟩⟩

/-! ## Operations -/

theorem done_withCrcs {r : Response} (h : done r s = .next t) : done r (s.withCrcs x y) = .next (t.withCrcs x y) := by
  cases h
  rfl

theorem orFault_withCrcs {α β : Type} {a : Except Fault α} {b : Except Fault β} {k : α → Out} {k' : β → Out}
    (f : α → β) (ha : ∀ v, a = .ok v → b = .ok (f v))
    (hk : ∀ v, k v = .next t → k' (f v) = .next (t.withCrcs x y)) (h : orFault a k = .next t) :
    orFault b k' = .next (t.withCrcs x y) := by
  obtain ⟨v, hv, hkv⟩ := orFault_eq_next.1 h
  exact orFault_eq_next.2 ⟨f v, ha v hv, hk v hkv⟩

/-- An operation of a codec or ring unit neither reads nor writes an accumulator. -/
theorem exec_withCrcs {i : Instr} (h16 : unitField (opWord i) ≠ 0) (h32 : unitField (opWord i) ≠ 1)
    (h : exec i s = .next t) : exec i (s.withCrcs x y) = .next (t.withCrcs x y) := by
  cases i with
  | crc16Init | crc16Updb | crc16Upd | crc16Final => exact (h16 (by simp [opWord, unitField])).elim
  | crc32Init | crc32Updb | crc32Upd | crc32Final => exact (h32 (by simp [opWord, unitField])).elim
  | rxrWindow =>
    exact orFault_withCrcs x y (fun v => (v.1, v.2.withCrcs x y)) (fun _ => rxrWindow_withCrcs x y)
      (fun _ => done_withCrcs x y) h
  | rxrCommit n =>
    show execRxrCommit n _ = _
    rw [execRxrCommit, rxrCommit_withCrcs]
    exact done_withCrcs x y h
  | rxrDecode cap =>
    refine orFault_withCrcs x y (·.withCrcs x y) (fun _ => rxrDecode_withCrcs x y) (fun p hp => ?_) h
    simp only [rxrDecodeReturn_withCrcs]
    exact done_withCrcs x y hp
  | txrCommit inp =>
    exact orFault_withCrcs x y (fun v => (v.1, v.2.withCrcs x y)) (fun _ => txrCommit_withCrcs x y)
      (fun _ => done_withCrcs x y) h
  | txrEncode inp last =>
    exact orFault_withCrcs x y (·.withCrcs x y) (fun _ => txrEncode_withCrcs x y) (fun _ => done_withCrcs x y) h
  | _ => exact done_withCrcs x y h

end

/-! ## The two engines -/

theorem withCrc16_eq_next {s t : State} {k : BitVec 16 → Out} :
    withCrc16 s k = .next t ↔ ∃ a, s.crc16 = some a ∧ k a = .next t := by
  cases hs : s.crc16 <;> simp [withCrc16, hs]

theorem withCrc32_eq_next {s t : State} {k : BitVec 32 → Out} :
    withCrc32 s k = .next t ↔ ∃ a, s.crc32 = some a ∧ k a = .next t := by
  cases hs : s.crc32 <;> simp [withCrc32, hs]

/-- That an operation of a codec or ring unit does not write the accumulators follows from its not reading them: run
with the contents they have, it leaves those. -/
theorem exec_keeps_crcs {i : Instr} {s t : State} (h16 : unitField (opWord i) ≠ 0) (h32 : unitField (opWord i) ≠ 1)
    (h : exec i s = .next t) : t.crc16 = s.crc16 ∧ t.crc32 = s.crc32 := by
  have hs := exec_withCrcs s.crc16 s.crc32 h16 h32 h
  rw [withCrcs_self, h] at hs
  have he : t = t.withCrcs s.crc16 s.crc32 := Host.Outcome.next.inj hs
  exact ⟨(congrArg State.crc16 he :), (congrArg State.crc32 he :)⟩

/-- An operation of the CRC-32 engine neither reads nor writes the CRC-16 accumulator. -/
theorem exec_crc32_independent {i : Instr} {s t : State} (hi : unitField (opWord i) = 1) (h : exec i s = .next t) :
    t.crc16 = s.crc16 ∧ ∀ x, exec i (s.withCrcs x s.crc32) = .next (t.withCrcs x t.crc32) := by
  cases i with
  | crc32Init => cases h; exact ⟨rfl, fun _ => rfl⟩
  | crc32Updb | crc32Upd | crc32Final =>
    obtain ⟨a, ha, hk⟩ := withCrc32_eq_next.1 h
    cases hk
    exact ⟨rfl, fun _ => withCrc32_eq_next.2 ⟨a, ha, rfl⟩⟩
  | _ => exact absurd hi (by simp [opWord, unitField])

/-- An operation of the CRC-16 engine neither reads nor writes the CRC-32 accumulator. -/
theorem exec_crc16_independent {i : Instr} {s t : State} (hi : unitField (opWord i) = 0) (h : exec i s = .next t) :
    t.crc32 = s.crc32 ∧ ∀ y, exec i (s.withCrcs s.crc16 y) = .next (t.withCrcs t.crc16 y) := by
  cases i with
  | crc16Init => cases h; exact ⟨rfl, fun _ => rfl⟩
  | crc16Updb | crc16Upd | crc16Final =>
    obtain ⟨a, ha, hk⟩ := withCrc16_eq_next.1 h
    cases hk
    exact ⟨rfl, fun _ => withCrc16_eq_next.2 ⟨a, ha, rfl⟩⟩
  | _ => exact absurd hi (by simp [opWord, unitField])

/-- Settles O12, by the operation's unit: the other CRC engine, or a unit that reads neither accumulator. -/
theorem crcEnginesIndependent : Obligations.CrcEnginesIndependent := by
  intro i s t h
  refine ⟨fun h16 => ?_, fun h32 => ?_⟩
  · by_cases h32 : unitField (opWord i) = 1
    · exact exec_crc32_independent h32 h
    · obtain ⟨k16, k32⟩ := exec_keeps_crcs h16 h32 h
      exact ⟨k16, fun x => k32 ▸ exec_withCrcs x t.crc32 h16 h32 h⟩
  · by_cases h16 : unitField (opWord i) = 0
    · exact exec_crc16_independent h16 h
    · obtain ⟨k16, k32⟩ := exec_keeps_crcs h16 h32 h
      exact ⟨k32, fun y => k16 ▸ exec_withCrcs t.crc16 y h16 h32 h⟩

end Sys2Proof.Machine

/-! SUPPORT. What `HOST` leaves to the engines, and the engines to `HOST` (10_state.md R22). -/

namespace Sys2Proof.Machine

open Sys2Proof

/-! ## `HOST` -/

/-- The components that an engine owns hold what they held: `RXENG`'s in the receive ring, `TXENG`'s cursor and the
wire (10_state.md R22, R30). -/
structure EngineOwnedKept (s t : State) : Prop where
  rxr_wr : t.rxr.wr = s.rxr.wr
  rxr_storage : t.rxr.storage = s.rxr.storage
  rxrOvr : t.rxrOvr = s.rxrOvr
  txr_rd : t.txr.rd = s.txr.rd
  wireTx : t.wireTx = s.wireTx

theorem EngineOwnedKept.refl (s : State) : EngineOwnedKept s s := ⟨rfl, rfl, rfl, rfl, rfl⟩

theorem EngineOwnedKept.trans {s t u : State} (h : EngineOwnedKept s t) (h' : EngineOwnedKept t u) :
    EngineOwnedKept s u :=
  ⟨h'.rxr_wr.trans h.rxr_wr, h'.rxr_storage.trans h.rxr_storage, h'.rxrOvr.trans h.rxrOvr,
    h'.txr_rd.trans h.txr_rd, h'.wireTx.trans h.wireTx⟩

/-- With no engine turn listed, a primitive or composite leaves what the engines own, and no engine turn is listed
after it: what a composite's next part needs. -/
structure HostOnly (s t : State) : Prop where
  kept : EngineOwnedKept s t
  still_quiet : quiet t.sched

theorem HostOnly.trans {s t u : State} (h : HostOnly s t) (h' : HostOnly t u) : HostOnly s u :=
  ⟨h.kept.trans h'.kept, h'.still_quiet⟩

theorem interlude_hostOnly {s t : State} (hq : quiet s.sched) (h : interlude s = .ok t) : HostOnly s t := by
  obtain rfl := Except.ok.inj ((interlude_quiet hq).symm.trans h)
  exact ⟨⟨rfl, rfl, rfl, rfl, rfl⟩, fun turn hturn => hq turn (List.mem_of_mem_tail hturn)⟩

theorem rxrWindow_hostOnly {s t : State} {w : RxWindow} (hq : quiet s.sched) (h : rxrWindow s = .ok (w, t)) :
    HostOnly s t := by
  rcases rxrWindow_cases h with ⟨-, -, rfl⟩ | ⟨-, rfl, -⟩
  · exact ⟨⟨rfl, rfl, rfl, rfl, rfl⟩, hq⟩
  · exact ⟨.refl _, hq⟩

theorem rxrCommit_hostOnly {s : State} (hq : quiet s.sched) (n : Nat) : HostOnly s (rxrCommit n s).2 := by
  rcases rxrCommit_cases n s with ⟨-, e⟩ | ⟨-, e⟩ <;> rw [e]
  · exact ⟨.refl _, hq⟩
  · exact ⟨⟨rfl, rfl, rfl, rfl, rfl⟩, hq⟩

theorem txrCommit_hostOnly {inp : Window} {s t : State} {st : Status} (hq : quiet s.sched)
    (h : txrCommit inp s = .ok (st, t)) : HostOnly s t := by
  rcases txrCommit_cases h with ⟨-, -, rfl⟩ | ⟨-, -, -, rfl⟩
  · exact ⟨.refl _, hq⟩
  · exact ⟨⟨rfl, rfl, rfl, rfl, rfl⟩, hq⟩

theorem withDec_hostOnly {s : State} (hq : quiet s.sched) (d : Dec) : HostOnly s { s with dec := d } :=
  ⟨⟨rfl, rfl, rfl, rfl, rfl⟩, hq⟩

theorem withEnc_hostOnly {s : State} (hq : quiet s.sched) (e : Enc) : HostOnly s { s with enc := e } :=
  ⟨⟨rfl, rfl, rfl, rfl, rfl⟩, hq⟩

theorem rxrDecodePass_hostOnly {cap : Nat} {s : State} {p : RxDecoded} (hq : quiet s.sched)
    (h : rxrDecodePass cap s = .ok p) : HostOnly s p.state := by
  obtain ⟨w, s1, s2, s3, e1, e2, e3, rfl⟩ := rxrDecodePass_eq_ok.1 h
  have h1 := rxrWindow_hostOnly hq e1
  have h2 := interlude_hostOnly h1.still_quiet e2
  have hd := withDec_hostOnly h2.still_quiet (decStep s2.dec w.bytes cap).dec
  have h3 := interlude_hostOnly hd.still_quiet e3
  exact h1.trans (h2.trans (hd.trans (h3.trans (rxrCommit_hostOnly h3.still_quiet _))))

theorem rxrDecode_hostOnly {cap : Nat} {s : State} {p : RxDecoded} (hq : quiet s.sched)
    (h : rxrDecode cap s = .ok p) : HostOnly s p.state := by
  rcases rxrDecode_cases h with ⟨e, -⟩ | ⟨p1, s', p2, e1, -, e', e2, rfl⟩
  · exact rxrDecodePass_hostOnly hq e
  · have h1 := rxrDecodePass_hostOnly hq e1
    have h' := interlude_hostOnly h1.still_quiet e'
    exact h1.trans (h'.trans (rxrDecodePass_hostOnly (p := p2) h'.still_quiet e2))

theorem rxrDecodeReturn_kept (cap : Nat) (p : RxDecoded) :
    EngineOwnedKept p.state (rxrDecodeReturn cap p).state := by
  rcases rxrDecodeReturn_cases cap p with ⟨-, e⟩ | ⟨-, e⟩ <;> rw [e]
  · exact .refl _
  · exact ⟨rfl, rfl, rfl, rfl, rfl⟩

theorem txrEncodePass_hostOnly {inp : Window} {last : Bool} {s : State} {p : TxEncoded} (hq : quiet s.sched)
    (h : txrEncodePass inp last s = .ok p) : HostOnly s p.state := by
  obtain ⟨s1, s2, st, s3, e1, e2, e3, rfl⟩ := txrEncodePass_eq_ok.1 h
  have h1 := interlude_hostOnly hq e1
  have he := withEnc_hostOnly h1.still_quiet (encStep s1.enc inp last (txrWindowLen s)).enc
  have h2 := interlude_hostOnly he.still_quiet e2
  exact h1.trans (he.trans (h2.trans (txrCommit_hostOnly h2.still_quiet e3)))

theorem txrEncode_hostOnly {inp : Window} {last : Bool} {s : State} {p : TxEncoded} (hq : quiet s.sched)
    (h : txrEncode inp last s = .ok p) : HostOnly s p.state := by
  rcases txrEncode_cases h with ⟨e, -⟩ | ⟨p1, s', p2, e1, -, e', e2, rfl⟩
  · exact txrEncodePass_hostOnly hq e
  · have h1 := txrEncodePass_hostOnly hq e1
    have h' := interlude_hostOnly h1.still_quiet e'
    exact h1.trans (h'.trans (txrEncodePass_hostOnly (p := p2) h'.still_quiet e2))

theorem EngineOwnedKept.of_done {s s' t : State} {r : Response} (hk : EngineOwnedKept s s') (h : done r s' = .next t) :
    EngineOwnedKept s t := by
  cases h
  exact ⟨hk.rxr_wr, hk.rxr_storage, hk.rxrOvr, hk.txr_rd, hk.wireTx⟩

/-- With no engine turn listed, every operation but the two ring resets leaves what the engines own. -/
theorem exec_engineOwnedKept {i : Instr} {s t : State} (hq : quiet s.sched) (hrx : i ≠ .rxrReset)
    (htx : i ≠ .txrReset) (h : exec i s = .next t) : EngineOwnedKept s t := by
  cases i with
  | rxrReset => exact absurd rfl hrx
  | txrReset => exact absurd rfl htx
  | crc16Updb | crc16Upd | crc16Final =>
    obtain ⟨a, -, hk⟩ := withCrc16_eq_next.1 h
    cases hk
    exact ⟨rfl, rfl, rfl, rfl, rfl⟩
  | crc32Updb | crc32Upd | crc32Final =>
    obtain ⟨a, -, hk⟩ := withCrc32_eq_next.1 h
    cases hk
    exact ⟨rfl, rfl, rfl, rfl, rfl⟩
  | rxrWindow =>
    obtain ⟨_, e, hk⟩ := orFault_eq_next.1 h
    exact (rxrWindow_hostOnly hq e).kept.of_done hk
  | rxrCommit n => exact (rxrCommit_hostOnly hq n).kept.of_done h
  | rxrDecode cap =>
    obtain ⟨p, e, hk⟩ := orFault_eq_next.1 h
    exact ((rxrDecode_hostOnly hq e).kept.trans (rxrDecodeReturn_kept cap p)).of_done hk
  | txrCommit inp =>
    obtain ⟨_, e, hk⟩ := orFault_eq_next.1 h
    exact (txrCommit_hostOnly hq e).kept.of_done hk
  | txrEncode inp last =>
    obtain ⟨p, e, hk⟩ := orFault_eq_next.1 h
    exact (txrEncode_hostOnly hq e).kept.of_done hk
  | _ =>
    cases h
    exact ⟨rfl, rfl, rfl, rfl, rfl⟩

/-! ## The engines -/

/-- Only a configuration of the block takes steps (93_implementation_defined.md U10). -/
theorem valid_of_step_next {s t : State} (h : step s = .next t) : s.params.valid := by
  unfold step at h
  split at h
  · assumption
  · cases h

theorem engineTurn_eq_next {x : Except Fault State} {t : State} : engineTurn x = .next t ↔ x = .ok t := by
  simp [engineTurn, orFault_eq_next]

theorem rxengPut_of_step {s t : State} {v : Byte} {rest : List Turn} (hs : s.sched = .rxeng v :: rest)
    (h : step s = .next t) : rxengPut v { s with sched := rest } = .ok t := by
  rw [step, if_pos (valid_of_step_next h), hs] at h
  exact engineTurn_eq_next.1 h

theorem txengTake_of_step {s t : State} {k : Nat} {rest : List Turn} (hs : s.sched = .txeng k :: rest)
    (h : step s = .next t) : txengTake k { s with sched := rest } = .ok t := by
  rw [step, if_pos (valid_of_step_next h), hs] at h
  exact engineTurn_eq_next.1 h

/-- `RXENG` writes nothing but the receive ring's storage, `wr` and flag. -/
theorem rxengPut_writes_only {v : Byte} {s t : State} (h : rxengPut v s = .ok t) :
    t = { s with rxr := ⟨t.rxr.storage, s.rxr.rd, t.rxr.wr⟩, rxrOvr := t.rxrOvr, tick := t.tick } := by
  rcases rxengPut_cases h with ⟨-, rfl⟩ | ⟨-, -, rfl⟩ | ⟨-, -, -, rfl⟩ <;> rfl

/-- `TXENG` writes nothing but the transmit ring's `rd`, the wire and the trace. -/
theorem txengTake_writes_only {k : Nat} {s t : State} (h : txengTake k s = .ok t) :
    t = { s with txr := ⟨s.txr.storage, t.txr.rd, s.txr.wr⟩, wireTx := t.wireTx, trace := t.trace } := by
  rcases txengTake_cases h with ⟨-, rfl⟩ | ⟨-, -, rfl⟩ <;> rfl

/-- Settles O57: each ring reset writes only its own ring; every other operation, and each engine, only what is its
own. -/
theorem cursorOwnership : Obligations.CursorOwnership := by
  refine ⟨fun i s t hq h => ?_, fun s t v rest hs h => ?_, fun s t k rest hs h => ?_⟩
  · by_cases hrx : i = .rxrReset
    · subst hrx
      cases h
      exact ⟨fun hne => absurd rfl hne, fun _ => rfl, rfl⟩
    by_cases htx : i = .txrReset
    · subst htx
      cases h
      exact ⟨fun _ => ⟨rfl, rfl, rfl⟩, fun hne => absurd rfl hne, rfl⟩
    have hk := exec_engineOwnedKept hq hrx htx h
    exact ⟨fun _ => ⟨hk.rxr_wr, hk.rxr_storage, hk.rxrOvr⟩, fun _ => hk.txr_rd, hk.wireTx⟩
  · exact rxengPut_writes_only (rxengPut_of_step hs h)
  · exact txengTake_writes_only (txengTake_of_step hs h)

end Sys2Proof.Machine

/-! SUPPORT. A step at `HOST`'s turn, an engine before its `INIT`, and the view of the receive engine's cursor. -/

namespace Sys2Proof.Machine

open Sys2Proof

/-- At `HOST`'s turn a step is `hostTurn`, the turn taken off the schedule. -/
theorem step_host {s : State} (hp : s.params.valid) (hs : s.sched = [] ∨ ∃ turns, s.sched = .host :: turns) :
    step s = hostTurn { s with sched := s.sched.tail } := by
  rcases hs with hs | ⟨turns, hs⟩
  · have hself : { s with sched := s.sched.tail } = s := by rw [hs, List.tail_nil, ← hs]
    rw [hself, step, if_pos hp, hs]
  · rw [step, if_pos hp, hs]
    rfl

/-- `HOST` issues the request at the head of its list: the operation it decodes to is run. -/
theorem hostTurn_of_decode {s : State} {r : Request} {rest : List Request} {i : Instr} (hr : s.requests = r :: rest)
    (hd : decode r = .ok i) : hostTurn s = exec i { s with requests := rest } := by
  simp [hostTurn, fetchRequest, hr, hd]

/-- Settles O4: the step is `HOST`'s turn, and `HOST`'s turn runs what the head of its list decodes to. -/
theorem stepRunsDecodedOperation : Obligations.StepRunsDecodedOperation := by
  intro s r rest i hp hs hr hd _
  rw [step_host hp hs]
  exact hostTurn_of_decode (s := { s with sched := s.sched.tail }) hr hd

/-- Settles O9: update and final look at the accumulator first, and an engine before its `INIT` has none. -/
theorem crcBeforeInitFaults : Obligations.CrcBeforeInitFaults := by
  intro s b inp
  refine ⟨fun h => ?_, fun h => ?_⟩
  · exact ⟨withCrc16_none h _, withCrc16_none h _, withCrc16_none h _⟩
  · exact ⟨withCrc32_none h _, withCrc32_none h _, withCrc32_none h _⟩

/-- Settles O36: the cursor lies inside the ring, so `CAP - (CAP - wr)` is `wr` and is its own remainder. -/
theorem rxrRemainingView : Obligations.RxrRemainingView := by
  intro s hs
  have hwr : s.rxr.wr < s.params.rxCap := hs.rxr.wr_lt
  unfold rxrRemaining
  refine ⟨rfl, Nat.sub_pos_of_lt hwr, Nat.sub_le _ _, ?_⟩
  rw [Nat.sub_sub_self hwr.le, Nat.mod_eq_of_lt hwr]

end Sys2Proof.Machine

/-! SUPPORT. The opcode map as a table of words (30_encoding.md R71, R72, R75): which words are assigned, what a word
decodes to, and which operands are looked at. -/

namespace Sys2Proof

/-! ## Words -/

/-- The word of unit `u` and function `f` (30_encoding.md R70). -/
def wordOf (u f : Nat) : Byte := BitVec.ofNat 8 (16 * u + f)

/-- An operation word is its two fields (30_encoding.md R70). -/
theorem wordOf_fields (w : Byte) : wordOf (unitField w) (fnField w) = w := by
  simp [wordOf, unitField, fnField, Nat.div_add_mod]

/-- The 24 assigned words, by unit and function. -/
theorem assignedWord_cases {w : Byte} (h : assignedWord w) : ∃ (u : Fin 6) (f : Fin 4), w = wordOf u f := by
  obtain ⟨hu, hf⟩ := h
  exact ⟨⟨unitField w, Nat.lt_succ_of_le hu⟩, ⟨fnField w, Nat.lt_succ_of_le hf⟩, (wordOf_fields w).symm⟩

/-! ## Operand places -/

/-- The places that a format names, every other place idle (30_encoding.md R72). -/
def Operands.named (o : Operands) : Format → Operands
  | .n => .idle
  | .b => { Operands.idle with byte := o.byte }
  | .w => { Operands.idle with win0 := o.win0 }
  | .c => { Operands.idle with num0 := o.num0 }
  | .wc => { Operands.idle with win0 := o.win0, num0 := o.num0 }
  | .wl => { Operands.idle with win0 := o.win0, last := o.last }
  | .wlc => { Operands.idle with win0 := o.win0, last := o.last, num0 := o.num0 }
  | .wwcc => { Operands.idle with win0 := o.win0, win1 := o.win1, num0 := o.num0, num1 := o.num1 }
  | .wwlcc => { o with byte := 0x00#8 }

theorem onlyUses_iff {o : Operands} {f : Format} : o.onlyUses f = true ↔ o = o.named f := by
  cases f <;> exact beq_iff_eq

/-- A well-formed request fills no place but those of its word's format. -/
theorem wellFormed_iff {r : Request} :
    r.wellFormed = true ↔ ∃ f, wordFormat r.word = some f ∧ r.operands = r.operands.named f := by
  unfold Request.wellFormed
  cases wordFormat r.word with
  | none => simp
  | some f => simp [onlyUses_iff]

/-! ## Decoding -/

/-- One row of the opcode map (30_encoding.md R71): the operation that a word decodes to is written with that word and
with what stood in the places of the word's format. -/
theorem decode_wordOf (u : Fin 6) (fn : Fin 4) (o : Operands) :
    ∃ i f, wordFormat (wordOf u fn) = some f ∧ decode ⟨wordOf u fn, o⟩ = .ok i ∧
      encode i = ⟨wordOf u fn, o.named f⟩ := by
  fin_cases u <;> fin_cases fn <;> exact ⟨_, _, by rfl, by with_unfolding_all rfl, by rfl⟩

theorem decode_assigned {r : Request} (h : assignedWord r.word) :
    ∃ i f, wordFormat r.word = some f ∧ decode r = .ok i ∧ encode i = ⟨r.word, r.operands.named f⟩ := by
  obtain ⟨w, o⟩ := r
  obtain ⟨u, fn, rfl⟩ := assignedWord_cases h
  exact decode_wordOf u fn o

/-- A reserved word is rejected, whatever operands accompany it (30_encoding.md R75, 60_exceptions.md R252). -/
theorem decode_reserved {r : Request} (h : ¬ assignedWord r.word) : ∃ e, decode r = .error e := by
  unfold decode
  split
  case h_25 => split <;> exact ⟨_, rfl⟩
  all_goals
    next hu hf => exact absurd (show assignedWord r.word by simp [assignedWord, hu, hf]) h

theorem decode_eq_ok_iff_assigned {r : Request} : (∃ i, decode r = .ok i) ↔ assignedWord r.word := by
  refine ⟨fun ⟨i, hi⟩ => ?_, fun h => ?_⟩
  · by_contra h
    obtain ⟨e, he⟩ := decode_reserved h
    simp [he] at hi
  · obtain ⟨i, -, -, hi, -⟩ := decode_assigned h
    exact ⟨i, hi⟩

/-- Every operation's request is well formed and decodes to it. -/
theorem encode_wellFormed_decode (i : Instr) : Laws.RoundTrip.Statement i := by
  cases i with
  | crc16Init => exact Laws.RoundTrip.crc16Init
  | crc16Updb b => exact Laws.RoundTrip.crc16Updb b
  | crc16Upd inp => exact Laws.RoundTrip.crc16Upd inp
  | crc16Final => exact Laws.RoundTrip.crc16Final
  | crc32Init => exact Laws.RoundTrip.crc32Init
  | crc32Updb b => exact Laws.RoundTrip.crc32Updb b
  | crc32Upd inp => exact Laws.RoundTrip.crc32Upd inp
  | crc32Final => exact Laws.RoundTrip.crc32Final
  | encReset => exact Laws.RoundTrip.encReset
  | encStep inp last cap => exact Laws.RoundTrip.encStep inp last cap
  | encStep2 in0 in1 last cap0 cap1 => exact Laws.RoundTrip.encStep2 in0 in1 last cap0 cap1
  | encOneshot inp cap => exact Laws.RoundTrip.encOneshot inp cap
  | decReset => exact Laws.RoundTrip.decReset
  | decStep inp cap => exact Laws.RoundTrip.decStep inp cap
  | decStep2 in0 in1 cap0 cap1 => exact Laws.RoundTrip.decStep2 in0 in1 cap0 cap1
  | decOneshot inp cap => exact Laws.RoundTrip.decOneshot inp cap
  | rxrReset => exact Laws.RoundTrip.rxrReset
  | rxrWindow => exact Laws.RoundTrip.rxrWindow
  | rxrCommit n => exact Laws.RoundTrip.rxrCommit n
  | rxrDecode cap => exact Laws.RoundTrip.rxrDecode cap
  | txrReset => exact Laws.RoundTrip.txrReset
  | txrWindow => exact Laws.RoundTrip.txrWindow
  | txrCommit inp => exact Laws.RoundTrip.txrCommit inp
  | txrEncode inp last => exact Laws.RoundTrip.txrEncode inp last

/-- A well-formed request is the one written form of the operation it decodes to. -/
theorem encode_of_decode {r : Request} {i : Instr} (hr : r.wellFormed = true) (hi : decode r = .ok i) :
    encode i = r := by
  obtain ⟨i', f, hf, hi', he⟩ := decode_assigned (decode_eq_ok_iff_assigned.1 ⟨i, hi⟩)
  obtain ⟨f', hf', ho⟩ := wellFormed_iff.1 hr
  obtain rfl : i' = i := Except.ok.inj (hi'.symm.trans hi)
  obtain rfl : f = f' := Option.some.inj (hf.symm.trans hf')
  rw [he, ← ho]

/-- Settles O1, from the rows of the opcode map: each operation's own, and each assigned word's. -/
theorem requestRoundTrip : Obligations.RequestRoundTrip :=
  ⟨fun i _ => encode_wellFormed_decode i, fun _ _ => encode_of_decode, fun _ => decode_eq_ok_iff_assigned⟩

/-- Settles O2: six rows of the opcode map, each word read by its two fields. -/
theorem sampleWordsDecode : Obligations.SampleWordsDecode := by
  intro o
  refine ⟨?_, ?_, ?_, ?_, ?_, ?_⟩ <;> simp [decode, unitField, fnField]

namespace Machine

/-- `HOST` issues a reserved word: the request is taken off its list and `ERR_ILLEGAL_OP` returned (30_encoding.md
R75). -/
theorem hostTurn_of_reserved {s : State} {r : Request} {rest : List Request} (hr : s.requests = r :: rest)
    (hw : ¬ assignedWord r.word) :
    hostTurn s = .next ({ s with requests := rest }.reply (.status .errIllegalOp)) := by
  obtain ⟨e, he⟩ := decode_reserved hw
  simp [hostTurn, fetchRequest, hr, he, illegalOp]

/-- Settles O3: the step is `HOST`'s turn, and the word at the head of its list decodes to nothing. -/
theorem reservedWordChangesNothing : Obligations.ReservedWordChangesNothing := by
  intro s r rest hp hs hr hw
  rw [step_host hp hs]
  exact hostTurn_of_reserved (s := { s with sched := s.sched.tail }) hr hw

end Machine

end Sys2Proof

/-! SUPPORT. `ENC.STEP` against the frame as a pure function: each repetition of the loop of 41_cobsr_encoder.md R127
puts out, or leaves in the registers, exactly what the encoder owed before it. -/

namespace Sys2Proof.Machine

open Sys2Proof

/-! ## What one repetition can do -/

/-- The ways a repetition goes on to the next (41_cobsr_encoder.md R128 to R131). -/
inductive EncGoesOn (last : Bool) (c : EncLoop) : EncLoop → Prop where
  | codeOut (hp : c.enc.phase = .code) (hroom : c.room ≠ 0) :
    EncGoesOn last c (encEmit c c.enc.code { c.enc with pos := 0, phase := .data })
  | dataOut (hp : c.enc.phase = .data) (hpos : c.enc.pos < c.enc.n) (hroom : c.room ≠ 0) :
    EncGoesOn last c (encEmit c (encBufAt c.enc c.enc.pos) { c.enc with pos := c.enc.pos + 1 })
  | runClosed (hp : c.enc.phase = .data) (hpos : ¬ c.enc.pos < c.enc.n) :
    EncGoesOn last c { c with enc := encCloseRun c.enc }
  | runFull (hp : c.enc.phase = .accum) (hlen : c.enc.len = maxRun) {b : Byte} {rest : Window}
    (hrest : c.rest = b :: rest) : EncGoesOn last c { c with enc := startFlush c.enc 0xFF#8 maxRun false .plain }
  | zeroTaken (hp : c.enc.phase = .accum) (hlen : c.enc.len ≠ maxRun) {rest : Window}
    (hrest : c.rest = 0x00#8 :: rest) :
    EncGoesOn last c { c with
      enc := startFlush c.enc (BitVec.ofNat 8 (c.enc.len + 1)) c.enc.len false .plain
      rest := rest, taken := c.taken + 1 }
  | byteTaken (hp : c.enc.phase = .accum) (hlen : c.enc.len ≠ maxRun) {b : Byte} {rest : Window} (hb : b ≠ 0x00#8)
    (hrest : c.rest = b :: rest) :
    EncGoesOn last c { c with
      enc := { c.enc with buf := c.enc.buf.set c.enc.len b, len := c.enc.len + 1 }
      rest := rest, taken := c.taken + 1 }
  | messageEnded (hp : c.enc.phase = .accum) (hrest : c.rest = []) (hlast : last = true) :
    EncGoesOn last c { c with enc := encFinalFlush c.enc }

/-- The ways a repetition returns: something is owed and there is no room for it, the delimiter has gone out, or the
window is used up and the message is not over. -/
inductive EncReturns (last : Bool) (c : EncLoop) : EncResult → Prop where
  | noRoom (hroom : c.room = 0)
    (hp : c.enc.phase = .code ∨ (c.enc.phase = .data ∧ c.enc.pos < c.enc.n) ∨ c.enc.phase = .delim) :
    EncReturns last c ⟨c.enc, c.taken, c.out, .moreOutput⟩
  | delimOut (hp : c.enc.phase = .delim) (hroom : c.room ≠ 0) :
    EncReturns last c ⟨encReset c.enc, c.taken, c.out ++ [delim], .frameComplete⟩
  | windowUsedUp (hp : c.enc.phase = .accum) (hrest : c.rest = []) (hlast : last = false) :
    EncReturns last c ⟨c.enc, c.taken, c.out, .moreInput⟩

/-- What a repetition comes to. -/
def EncTurn.Meets (last : Bool) (c : EncLoop) : EncTurn → Prop
  | .again c' => EncGoesOn last c c'
  | .ret r => EncReturns last c r

theorem encArm_meets (last : Bool) (c : EncLoop) : (encArm last c).Meets last c := by
  unfold encArm
  split
  · next hp =>
    unfold encArmCode
    split
    · exact .noRoom ‹_› (.inl hp)
    · exact .codeOut hp ‹_›
  · next hp =>
    unfold encArmData
    split
    · next hpos =>
      split
      · exact .noRoom ‹_› (.inr (.inl ⟨hp, hpos⟩))
      · exact .dataOut hp hpos ‹_›
    · exact .runClosed hp ‹_›
  · next hp =>
    unfold encArmDelim
    split
    · exact .noRoom ‹_› (.inr (.inr hp))
    · exact .delimOut hp ‹_›
  · next hp =>
    unfold encArmAccum
    split
    · next hrest =>
      split
      · exact .runFull hp ‹_› hrest
      · next hlen =>
        split
        · next hb => exact .zeroTaken hp hlen (hb ▸ hrest)
        · exact .byteTaken hp hlen ‹_› hrest
    · next hrest =>
      split
      · exact .messageEnded hp hrest ‹_›
      · exact .windowUsedUp hp hrest (Bool.eq_false_iff.2 ‹_›)

theorem encArm_again {last : Bool} {c c' : EncLoop} (h : encArm last c = .again c') : EncGoesOn last c c' := by
  simpa [h, EncTurn.Meets] using encArm_meets last c

theorem encArm_ret {last : Bool} {c : EncLoop} {r : EncResult} (h : encArm last c = .ret r) : EncReturns last c r := by
  simpa [h, EncTurn.Meets] using encArm_meets last c

/-- Each repetition takes at most one byte of input, the next. -/
theorem EncGoesOn.input {last : Bool} {c c' : EncLoop} (h : EncGoesOn last c c') :
    (c'.rest = c.rest ∧ c'.taken = c.taken) ∨ (c.rest ≠ [] ∧ c'.rest = c.rest.tail ∧ c'.taken = c.taken + 1) := by
  cases h with
  | codeOut | dataOut | runClosed | runFull | messageEnded => exact .inl ⟨rfl, rfl⟩
  | zeroTaken _ _ hrest | byteTaken _ _ _ hrest => exact .inr (by simp [hrest])

/-- A byte put out takes the room of one byte. -/
theorem EncGoesOn.space {last : Bool} {c c' : EncLoop} (h : EncGoesOn last c c') :
    c'.out.length + c'.room = c.out.length + c.room := by
  cases h with
  | codeOut _ hroom | dataOut _ _ hroom =>
    simp
    omega
  | runClosed | runFull | zeroTaken | byteTaken | messageEnded => rfl

/-! ## The run held -/

theorem EncInv.length_held {e : Enc} (h : EncInv e) : (encRunHeld e).length = e.len := by
  have := h.buf_size
  have := h.len_le
  simp [encRunHeld]
  omega

theorem runCode_held {e : Enc} (h : EncInv e) : runCode (encRunHeld e) = BitVec.ofNat 8 (e.len + 1) := by
  rw [runCode, h.length_held]

/-- The last byte of a run that is not empty. -/
theorem getLast?_held {e : Enc} (h : EncInv e) (hlen : 1 ≤ e.len) :
    (encRunHeld e).getLast? = some (encBufAt e (e.len - 1)) := by
  have hb := h.buf_size
  have hl := h.len_le
  rw [List.getLast?_eq_getElem?, h.length_held, encRunHeld, List.getElem?_take_of_lt (by omega), encBufAt,
    List.getD_eq_getElem?_getD, List.getElem?_eq_getElem (by omega)]
  rfl

theorem dropLast_held {e : Enc} (h : EncInv e) : (encRunHeld e).dropLast = e.buf.take (e.len - 1) := by
  rw [List.dropLast_eq_take, h.length_held, encRunHeld, List.take_take, Nat.min_eq_left (Nat.sub_le _ _)]

/-- A run whose bytes are being put out owes its next byte first. -/
theorem drop_data {e : Enc} (h : EncInv e) (hpos : e.pos < e.n) :
    (e.buf.take e.n).drop e.pos = encBufAt e e.pos :: (e.buf.take e.n).drop (e.pos + 1) := by
  have hb := h.buf_size
  have hn := h.n_le
  rw [List.drop_eq_getElem_cons (by simp; omega), List.getElem_take, encBufAt, List.getD_eq_getElem _ _ (by omega)]

/-! ## What is owed, phase by phase -/

section
variable {e : Enc} (x : Window)

theorem encOwes_accum (hp : e.phase = .accum) : encOwes e x = encRun (encRunHeld e) x ++ [delim] := by
  simp [encOwes, hp]

/-- A byte that has joined the run is owed with it. -/
theorem encOwes_push (hp : e.phase = .accum) (hlt : e.len < e.buf.length) (b : Byte) :
    encOwes { e with buf := e.buf.set e.len b, len := e.len + 1 } x = encRun (encRunHeld e ++ [b]) x ++ [delim] := by
  rw [← encRunHeld_push hlt]
  exact encOwes_accum x hp

theorem encOwes_code (hp : e.phase = .code) :
    encOwes e x = e.code :: e.buf.take e.n ++ (if e.final then [delim] else encRun [] x ++ [delim]) := by
  simp [encOwes, encOwes.afterRun, hp]

theorem encOwes_data (hp : e.phase = .data) :
    encOwes e x = (e.buf.take e.n).drop e.pos ++ (if e.final then [delim] else encRun [] x ++ [delim]) := by
  simp [encOwes, encOwes.afterRun, hp]

theorem encOwes_delim (hp : e.phase = .delim) : encOwes e x = [delim] := by
  simp [encOwes, hp]

/-- The delimiter is owed until the frame is complete. -/
theorem encOwes_ne_nil (e : Enc) : encOwes e x ≠ [] := by
  cases hp : e.phase with
  | accum => simp [encOwes_accum x hp]
  | code => simp [encOwes_code x hp]
  | data =>
    rw [encOwes_data x hp]
    split <;> simp
  | delim => simp [encOwes_delim x hp]

theorem encOwes_startFlush (code : Byte) (n : Nat) (final : Bool) (mode : RunMode) :
    encOwes (startFlush e code n final mode) x =
      code :: e.buf.take n ++ (if final then [delim] else encRun [] x ++ [delim]) :=
  encOwes_code x rfl

/-- Beginning to put out the run held, whole. -/
theorem encOwes_startFlush_held (code : Byte) (final : Bool) (mode : RunMode) :
    encOwes (startFlush e code e.len final mode) x =
      code :: encRunHeld e ++ (if final then [delim] else encRun [] x ++ [delim]) :=
  encOwes_startFlush x code e.len final mode

/-- A run put out to its end: what follows it is owed. -/
theorem encOwes_closeRun : encOwes (encCloseRun e) x = if e.final then [delim] else encRun [] x ++ [delim] := by
  unfold encCloseRun
  split
  · simp [encOwes_delim]
  · simp [encOwes_accum, encRunHeld]

end

/-- The final flush begins to put out the final block of the run held (41_cobsr_encoder.md R120, R122, R131 (d)). -/
theorem encOwes_finalFlush {e : Enc} (h : EncInv e) (x : Window) :
    encOwes (encFinalFlush e) x = finalBlock (encRunHeld e) ++ [delim] := by
  unfold encFinalFlush finalBlock reducedCode
  by_cases hlen : 1 ≤ e.len
  · rw [getLast?_held h hlen, h.length_held]
    by_cases hv : (encBufAt e (e.len - 1)).toNat ≥ e.len + 1
    · simp [encOwes_startFlush, hlen, hv, dropLast_held h]
    · simp [encOwes_startFlush_held, hlen, hv, runCode_held h]
  · have hzero : e.len = 0 := by omega
    simp [encOwes_startFlush, hzero, encRunHeld, runCode]

/-! ## The loop pays what is owed -/

/-- All that a call puts out up to the end of the frame, seen from the middle of its loop: what it has put out and what
the encoder still owes. `y` is the message after this window. -/
def EncLoop.total (c : EncLoop) (y : Window) : Window := c.out ++ encOwes c.enc (c.rest ++ y)

theorem EncGoesOn.total_eq {last : Bool} {c c' : EncLoop} {y : Window} (h : EncGoesOn last c c') (hc : EncInv c.enc)
    (hy : last = true → y = []) : c'.total y = c.total y := by
  cases h with
  | codeOut hp =>
    simp [EncLoop.total, encOwes_code _ hp, encOwes_data]
  | dataOut hp hpos =>
    simp [EncLoop.total, encOwes_data _ hp, encOwes_data, hp, drop_data hc hpos]
  | runClosed hp hpos =>
    have hdone : (c.enc.buf.take c.enc.n).drop c.enc.pos = [] := List.drop_eq_nil_of_le (by simp; omega)
    simp [EncLoop.total, encOwes_data _ hp, encOwes_closeRun, hdone]
  | runFull hp hlen hrest =>
    simp [EncLoop.total, encOwes_accum _ hp, hrest, encRun_full (hc.length_held.trans hlen), ← hlen,
      encOwes_startFlush_held]
  | zeroTaken hp hlen hrest =>
    simp [EncLoop.total, encOwes_accum _ hp, hrest, encRun_zero (hc.length_held.trans_ne hlen),
      encOwes_startFlush_held, runCode_held hc]
  | byteTaken hp hlen hb hrest =>
    have hlt : c.enc.len < c.enc.buf.length := hc.buf_size ▸ Nat.lt_of_le_of_ne hc.len_le hlen
    simp [EncLoop.total, encOwes_accum _ hp, hrest, encRun_byte (hc.length_held.trans_ne hlen) hb,
      encOwes_push _ hp hlt]
  | messageEnded hp hrest hlast =>
    simp [EncLoop.total, encOwes_accum _ hp, hrest, hy hlast, encOwes_finalFlush hc]

/-- Where a call stands in the middle of its loop: the input split into what it took and what is left, the space into
what it used and what is left, and of what was owed at the start nothing lost. -/
structure EncUnderWay (inp y : Window) (cap : Nat) (owed : Window) (c : EncLoop) : Prop where
  inv : EncInv c.enc
  taken_le : c.taken ≤ inp.length
  rest_eq : c.rest = inp.drop c.taken
  space : c.out.length + c.room = cap
  paid : c.total y = owed

/-- What a call comes to: it has put out the front of what was owed, and the registers it leaves owe the rest. -/
structure EncPaid (last : Bool) (inp y : Window) (cap : Nat) (owed : Window) (r : EncResult) : Prop where
  consumed_le : r.consumed ≤ inp.length
  out_le : r.out.length ≤ cap
  paid : owed = r.out ++ (if r.status = .frameComplete then [] else encOwes r.enc (inp.drop r.consumed ++ y))
  more_input : r.status = .moreInput → last = false
  more_output : r.status = .moreOutput → r.out.length = cap
  status : r.status = .moreInput ∨ r.status = .moreOutput ∨ r.status = .frameComplete

section
variable {last : Bool} {inp y owed : Window} {cap : Nat} {c : EncLoop}

theorem EncUnderWay.again {c' : EncLoop} (h : EncUnderWay inp y cap owed c) (hy : last = true → y = [])
    (ha : encArm last c = .again c') : EncUnderWay inp y cap owed c' := by
  have hgo := encArm_again ha
  have hinv : EncInv c'.enc := by simpa [ha, EncTurn.enc] using encArm_keeps_inv last h.inv
  have hinput : c'.taken ≤ inp.length ∧ c'.rest = inp.drop c'.taken := by
    rcases hgo.input with ⟨hr, ht⟩ | ⟨hne, hr, ht⟩
    · rw [hr, ht]
      exact ⟨h.taken_le, h.rest_eq⟩
    · rw [h.rest_eq, ne_eq, List.drop_eq_nil_iff] at hne
      rw [hr, ht, h.rest_eq, List.tail_drop]
      exact ⟨by omega, rfl⟩
  exact ⟨hinv, hinput.1, hinput.2, hgo.space.trans h.space, (hgo.total_eq h.inv hy).trans h.paid⟩

theorem EncUnderWay.ret {r : EncResult} (h : EncUnderWay inp y cap owed c) (ha : encArm last c = .ret r) :
    EncPaid last inp y cap owed r := by
  have hspace := h.space
  have hpaid : owed = c.out ++ encOwes c.enc (inp.drop c.taken ++ y) := by
    rw [← h.paid, EncLoop.total, h.rest_eq]
  cases encArm_ret ha with
  | noRoom hroom => exact ⟨h.taken_le, by simp; omega, by simpa using hpaid, by simp, by simp; omega, by simp⟩
  | delimOut hp hroom =>
    rw [encOwes_delim _ hp] at hpaid
    exact ⟨h.taken_le, by simp; omega, by simpa using hpaid, by simp, by simp, by simp⟩
  | windowUsedUp _ _ hlast =>
    exact ⟨h.taken_le, by simp; omega, by simpa using hpaid, by simp [hlast], by simp, by simp⟩

theorem encRunOut_pays (h : EncUnderWay inp y cap owed c) (hy : last = true → y = []) :
    EncPaid last inp y cap owed (encRunOut last c) :=
  encRunOut_induct (P := fun c r => EncUnderWay inp y cap owed c → EncPaid last inp y cap owed r)
    (fun _ _ ha h => h.ret ha) (fun _ _ _ ha ih h => ih (h.again hy ha)) c h

/-- One call of `ENC.STEP` puts out the front of what the encoder owed, and leaves the rest owed. -/
theorem encStep_pays {e : Enc} (h : EncInv e) (inp : Window) {y : Window} (hy : last = true → y = []) (cap : Nat) :
    EncPaid last inp y cap (encOwes e (inp ++ y)) (encStep e inp last cap) := by
  rw [encStep_eq_runOut]
  exact encRunOut_pays ⟨h, Nat.zero_le _, rfl, by simp, by simp [EncLoop.total]⟩ hy

end

end Sys2Proof.Machine

/-! SUPPORT. The length of a frame, and the pseudo-operations of 30_encoding.md R78. -/

namespace Sys2Proof.Machine

open Sys2Proof

/-! ## The length of a frame -/

theorem length_finalBlock_le (r : Window) : (finalBlock r).length ≤ r.length + 1 := by
  unfold finalBlock
  split <;> simp

/-- A run under way and the message after it: one code byte for every 254 bytes, and at least one (30_encoding.md
R65). -/
theorem length_encRun_le (r x : Window) (hr : r.length ≤ maxRun) :
    (encRun r x).length ≤ r.length + x.length + max 1 ((r.length + x.length + 253) / 254) := by
  fun_induction encRun r x with
  | case1 r =>
    have := length_finalBlock_le r
    simp
    omega
  | case2 r b x hfull ihNil ihByte =>
    have hlen : r.length = 254 := hfull
    have := ihNil (by simp)
    have := ihByte (by simp)
    split <;> simp only [List.length_append, List.length_cons, List.length_nil] at * <;> omega
  | case3 r x hlen ih =>
    have := ih (by simp)
    simp only [List.length_append, List.length_cons, List.length_nil] at *
    omega
  | case4 r b x hlen hb ih =>
    have := ih (by simp; omega)
    simp only [List.length_append, List.length_cons, List.length_nil] at *
    omega

/-- The capacity that `ENC.FRAME` passes on suffices for the frame (30_encoding.md R78). -/
theorem length_frameOf_le (x : Window) : (frameOf x).length ≤ x.length + (x.length + 253) / 254 + 2 := by
  have hbody := length_encRun_le [] x (Nat.zero_le _)
  simp only [frameOf, encBody, List.length_append, List.length_cons, List.length_nil] at hbody ⊢
  omega

/-! ## A message in one call -/

theorem encInv_encReset {e : Enc} (h : e.buf.length = 254) : EncInv (encReset e) :=
  ⟨h, Nat.zero_le _, Nat.zero_le _, Nat.zero_le _, by simp [encRunHeld, zeroFree], fun _ => ⟨rfl, rfl, rfl, rfl, rfl⟩,
    by simp, by simp⟩

/-- The reset encoder owes the frame of the message. -/
theorem encOwes_encReset (e : Enc) (x : Window) : encOwes (encReset e) x = frameOf x := by
  simp [encOwes_accum x (encReset_phase e), encRunHeld, frameOf, encBody]

/-- The whole message in one call, with space for its frame: the frame comes out complete. -/
theorem encStep_gives_frame {e : Enc} {x : Window} {cap : Nat} (h : e.buf.length = 254)
    (hcap : (frameOf x).length ≤ cap) :
    (encStep (encReset e) x true cap).out = frameOf x ∧
      (encStep (encReset e) x true cap).status = .frameComplete := by
  have hp := encStep_pays (last := true) (encInv_encReset h) x (y := []) (fun _ => rfl) cap
  generalize encStep (encReset e) x true cap = r at hp ⊢
  have hpaid := hp.paid
  rw [List.append_nil, encOwes_encReset] at hpaid
  rcases hp.status with hst | hst | hst
  · exact absurd (hp.more_input hst) (by simp)
  · have howes := List.length_pos_of_ne_nil (encOwes_ne_nil (x.drop r.consumed ++ []) r.enc)
    have hlen := hp.more_output hst
    rw [hpaid, hst] at hcap
    simp at hcap howes
    omega
  · exact ⟨by simpa [hst] using hpaid.symm, hst⟩

theorem exec_encOneshot_of_fits {s : State} {x : Window} {cap : Nat} (h : s.enc.buf.length = 254)
    (hcap : (frameOf x).length ≤ cap) :
    ∃ t, exec (.encOneshot x cap) s = .next t ∧ t.trace.getLast? = some (.returned (.out (frameOf x) .ok)) := by
  obtain ⟨hout, hst⟩ := encStep_gives_frame h hcap
  exact ⟨_, rfl, by simp [hout, hst, encOneshotStatus]⟩

/-! ## Sequences of operations -/

theorem execAll_cons {i : Instr} {is : List Instr} {s t : State} (h : exec i s = .next t) :
    execAll (i :: is) s = execAll is t := by
  simp [execAll, h]

/-- `CRC16.CALC` is `INIT`, `UPD` and `FINAL` run one after the other on the accumulator that `INIT` loads. -/
theorem execAll_crc16Calc (s : State) (x : Window) :
    ∃ t, execAll (crc16Calc x) s = .next t ∧
      t.trace.getLast? = some (.returned (.crc16 (crc16Of s.params x) .ok)) :=
  ⟨_, rfl, by simp [crc16Of]⟩

/-- The same for `CRC32.CALC`. -/
theorem execAll_crc32Calc (s : State) (x : Window) :
    ∃ t, execAll (crc32Calc x) s = .next t ∧
      t.trace.getLast? = some (.returned (.crc32 (crc32Of s.params x) .ok)) :=
  ⟨_, rfl, by simp [crc32Of]⟩

/-- `ENC.FRAME` is one `ENC.ONESHOT` whose capacity the frame never exceeds. -/
theorem execAll_encFrame {s : State} (h : s.enc.buf.length = 254) (x : Window) :
    ∃ t, execAll (encFrame x) s = .next t ∧ t.trace.getLast? = some (.returned (.out (frameOf x) .ok)) := by
  obtain ⟨t, ht, htrace⟩ := exec_encOneshot_of_fits h (length_frameOf_le x)
  exact ⟨t, execAll_cons ht, htrace⟩

/-- Settles O60: the two checksums by running the three operations, the frame by what one call of `ENC.STEP` pays. -/
theorem pseudoOperationsReturn : Obligations.PseudoOperationsReturn :=
  fun s x => ⟨execAll_crc16Calc s x, execAll_crc32Calc s x, fun h => execAll_encFrame h x⟩

end Sys2Proof.Machine

/-! SUPPORT. The CRC engines (40_crc.md): the division step bit by bit, its linearity over XOR and what follows from it
for the byte update, and each operation of the two engines as an equation. -/

namespace Sys2Proof.Machine

open Sys2Proof

/-! ## The division step -/

section
variable {w : Nat} (poly : BitVec w)

/-- Each bit moves down one place, and the polynomial is XORed in where the bit that falls out is 1. -/
theorem getLsbD_crcShift (c : BitVec w) (i : Nat) :
    (crcShift poly c).getLsbD i = (c.getLsbD (i + 1) ^^ (c.getLsbD 0 && poly.getLsbD i)) := by
  unfold crcShift
  cases c.getLsbD 0 <;> simp [Nat.add_comm]

/-- The linearity on which 40_crc.md R92 rests. -/
theorem crcShift_xor (c d : BitVec w) : crcShift poly (c ^^^ d) = crcShift poly c ^^^ crcShift poly d := by
  refine BitVec.eq_of_getLsbD_eq fun i _ => ?_
  simp only [getLsbD_crcShift, BitVec.getLsbD_xor, Bool.and_xor_distrib_right, Bool.xor_assoc, Bool.xor_left_comm]

theorem crcShifts_xor (n : Nat) (c d : BitVec w) :
    crcShifts poly n (c ^^^ d) = crcShifts poly n c ^^^ crcShifts poly n d := by
  induction n generalizing c d with
  | zero => rfl
  | succ n ih => simp only [crcShifts, crcShift_xor, ih]

theorem crcShift_of_even {c : BitVec w} (h : c.getLsbD 0 = false) : crcShift poly c = c >>> 1 := by
  simp [crcShift, h]

/-- While zeros fall out, the polynomial is never XORed in. -/
theorem crcShifts_of_low_zero {n : Nat} {c : BitVec w} (h : ∀ i < n, c.getLsbD i = false) :
    crcShifts poly n c = c >>> n := by
  induction n generalizing c with
  | zero => simp [crcShifts]
  | succ n ih =>
    have hshifted : ∀ i < n, (c >>> 1).getLsbD i = false := fun i hi => by
      simpa [Nat.add_comm] using h (i + 1) (by omega)
    rw [crcShifts, crcShift_of_even poly (h 0 n.succ_pos), ih hshifted, ← BitVec.shiftRight_add, Nat.add_comm]

/-- With the polynomial's top bit set, the top bit of the result is the bit that fell out, so no two accumulator values
give the same one. -/
theorem crcShift_injective (h : poly.getLsbD (w - 1) = true) : Function.Injective (crcShift poly) := by
  intro c d hcd
  have hbit (i : Nat) : (c.getLsbD (i + 1) ^^ (c.getLsbD 0 && poly.getLsbD i)) =
      (d.getLsbD (i + 1) ^^ (d.getLsbD 0 && poly.getLsbD i)) := by
    rw [← getLsbD_crcShift, hcd, getLsbD_crcShift]
  have habove (e : BitVec w) : e.getLsbD (w - 1 + 1) = false := BitVec.getLsbD_of_ge e _ (by omega)
  have hlow : c.getLsbD 0 = d.getLsbD 0 := by simpa [h, habove] using hbit (w - 1)
  refine BitVec.eq_of_getLsbD_eq fun i _ => ?_
  cases i with
  | zero => exact hlow
  | succ i => simpa [hlow] using hbit i

theorem crcShifts_injective (h : poly.getLsbD (w - 1) = true) (n : Nat) : Function.Injective (crcShifts poly n) := by
  induction n with
  | zero => exact Function.injective_id
  | succ n ih => exact ih.comp (crcShift_injective poly h)

/-! ## The byte update -/

/-- A word is its low byte XOR the rest. -/
theorem eq_high_xor_low (x : BitVec w) : x = (x >>> 8 <<< 8) ^^^ (x.setWidth 8).setWidth w := by
  refine BitVec.eq_of_getLsbD_eq fun i hi => ?_
  by_cases hlow : i < 8
  · simp [hi, hlow]
  · simp [hi, hlow, Nat.add_sub_of_le (Nat.le_of_not_lt hlow)]

/-- Eight steps shift the high part down and leave it as it is. -/
theorem crcShifts_high (x : BitVec w) : crcShifts poly 8 (x >>> 8 <<< 8) = x >>> 8 := by
  rw [crcShifts_of_low_zero poly fun i hi => by simp [hi]]
  refine BitVec.eq_of_getLsbD_eq fun i _ => ?_
  simpa using BitVec.lt_of_getLsbD

theorem setWidth_byte_ushiftRight (b : Byte) : b.setWidth w >>> 8 = 0#w := by
  refine BitVec.eq_of_getLsbD_eq fun i _ => ?_
  simp

/-- The table-driven update is the bit-serial one (40_crc.md R92): the steps on the low byte are the table's entry, and
those on the high part are the shift by 8, which the byte XORed in does not reach. -/
theorem crcUpd1_eq_serial (a : BitVec w) (b : Byte) : crcUpd1 poly a b = crcUpd1Serial poly a b := by
  have hshift : (a ^^^ b.setWidth w) >>> 8 = a >>> 8 := by
    rw [BitVec.ushiftRight_xor_distrib, setWidth_byte_ushiftRight, BitVec.xor_zero]
  unfold crcUpd1 crcUpd1Serial crcTable
  rw [← hshift]
  generalize a ^^^ b.setWidth w = x
  rw [← crcShifts_high poly x, ← crcShifts_xor, ← eq_high_xor_low]

theorem crcUpd1_bijective (h : poly.getLsbD (w - 1) = true) (b : Byte) :
    Function.Bijective fun a => crcUpd1 poly a b := by
  have hinj : Function.Injective fun a => crcUpd1 poly a b := by
    simp only [crcUpd1_eq_serial]
    exact (crcShifts_injective poly h 8).comp fun _ _ => (BitVec.xor_left_inj _).1
  exact hinj.bijective_of_finite

/-! ## The bulk update -/

theorem crcUpd_eq_foldl (a : BitVec w) (s : Window) : crcUpd poly a s = s.foldl (crcUpd1Serial poly) a := by
  induction s generalizing a with
  | nil => rfl
  | cons b s ih => rw [crcUpd, ih, crcUpd1_eq_serial, List.foldl_cons]

theorem crcUpd_append (a : BitVec w) (s t : Window) : crcUpd poly a (s ++ t) = crcUpd poly (crcUpd poly a s) t := by
  simp only [crcUpd_eq_foldl, List.foldl_append]

end

/-! ## The operations as equations, their accumulator being the only register they write -/

section
variable {s : State}

theorem exec_crc16Init (s : State) :
    exec .crc16Init s = .next ({ s with crc16 := some s.params.crc16Seed }.reply (.status .ok)) := rfl

theorem exec_crc32Init (s : State) :
    exec .crc32Init s = .next ({ s with crc32 := some s.params.crc32Seed }.reply (.status .ok)) := rfl

theorem exec_crc16Updb {a : BitVec 16} (h : s.crc16 = some a) (b : Byte) : exec (.crc16Updb b) s =
    .next ({ s with crc16 := some (crcUpd1 s.params.crc16Poly a b) }.reply (.status .ok)) := withCrc16_some h _

theorem exec_crc32Updb {a : BitVec 32} (h : s.crc32 = some a) (b : Byte) : exec (.crc32Updb b) s =
    .next ({ s with crc32 := some (crcUpd1 s.params.crc32Poly a b) }.reply (.status .ok)) := withCrc32_some h _

theorem exec_crc16Upd {a : BitVec 16} (h : s.crc16 = some a) (inp : Window) : exec (.crc16Upd inp) s =
    .next ({ s with crc16 := some (crcUpd s.params.crc16Poly a inp) }.reply (.status .ok)) := withCrc16_some h _

theorem exec_crc32Upd {a : BitVec 32} (h : s.crc32 = some a) (inp : Window) : exec (.crc32Upd inp) s =
    .next ({ s with crc32 := some (crcUpd s.params.crc32Poly a inp) }.reply (.status .ok)) := withCrc32_some h _

theorem exec_crc16Final {a : BitVec 16} (h : s.crc16 = some a) :
    exec .crc16Final s = .next (s.reply (.crc16 (a ^^^ s.params.crc16Xorout) .ok)) := withCrc16_some h _

theorem exec_crc32Final {a : BitVec 32} (h : s.crc32 = some a) :
    exec .crc32Final s = .next (s.reply (.crc32 (a ^^^ s.params.crc32Xorout) .ok)) := withCrc32_some h _

end

/-- A CRC-16 sum over two fragments: each operation finds the accumulator that the one before it left. -/
theorem execAll_crc16_fragments (s : State) (u v : Window) :
    execAll [.crc16Init, .crc16Upd u, .crc16Upd v, .crc16Final] s = .next { s with
      crc16 := some (crcUpd s.params.crc16Poly s.params.crc16Seed (u ++ v))
      trace := s.trace ++ [.returned (.status .ok), .returned (.status .ok), .returned (.status .ok),
        .returned (.crc16 (crc16Of s.params (u ++ v)) .ok)] } := by
  rw [execAll_cons (exec_crc16Init s), execAll_cons (exec_crc16Upd rfl u), execAll_cons (exec_crc16Upd rfl v),
    execAll_cons (exec_crc16Final rfl)]
  simp [execAll, State.reply, crc16Of, crcUpd_append]

/-- The same for CRC-32. -/
theorem execAll_crc32_fragments (s : State) (u v : Window) :
    execAll [.crc32Init, .crc32Upd u, .crc32Upd v, .crc32Final] s = .next { s with
      crc32 := some (crcUpd s.params.crc32Poly s.params.crc32Seed (u ++ v))
      trace := s.trace ++ [.returned (.status .ok), .returned (.status .ok), .returned (.status .ok),
        .returned (.crc32 (crc32Of s.params (u ++ v)) .ok)] } := by
  rw [execAll_cons (exec_crc32Init s), execAll_cons (exec_crc32Upd rfl u), execAll_cons (exec_crc32Upd rfl v),
    execAll_cons (exec_crc32Final rfl)]
  simp [execAll, State.reply, crc32Of, crcUpd_append]

/-! ## The obligations -/

/-- Settles O6, from the equality of the two forms of the byte update. -/
theorem crcByteUpdateIsBitSerial : Obligations.CrcByteUpdateIsBitSerial := by
  intro s b
  constructor
  · intro a h
    rw [exec_crc16Updb h, crcUpd1_eq_serial, crcUpd1Serial]
  · intro a h
    rw [exec_crc32Updb h, crcUpd1_eq_serial, crcUpd1Serial]

/-- Settles O7: the bulk update is the fold of the bit-serial byte update. -/
theorem crcBulkUpdateFoldsBytes : Obligations.CrcBulkUpdateFoldsBytes := by
  intro s inp
  constructor
  · intro a h
    rw [exec_crc16Upd h, crcUpd_eq_foldl]
  · intro a h
    rw [exec_crc32Upd h, crcUpd_eq_foldl]

/-- Settles O10, by running the four operations; the two updates are one over the joined bytes. -/
theorem crcOfFragments : Obligations.CrcOfFragments :=
  fun s u v => ⟨⟨_, execAll_crc16_fragments s u v, rfl⟩, ⟨_, execAll_crc32_fragments s u v, rfl⟩⟩

/-- Settles O11, from the bijectivity of the byte update at every width. -/
theorem crcByteUpdateBijective : Obligations.CrcByteUpdateBijective :=
  ⟨fun poly b h => crcUpd1_bijective poly h b, fun poly b h => crcUpd1_bijective poly h b⟩

/-- Settles O5: `INIT` by its equation, the two seeds by the default parameters. -/
theorem crcInitLoadsSeed : Obligations.CrcInitLoadsSeed := by
  refine fun s => ⟨exec_crc16Init s, exec_crc32Init s, fun hp => ?_⟩
  rw [hp]
  exact ⟨rfl, rfl⟩

/-- Settles O8, by the equation of `FINAL` for each engine. -/
theorem crcFinalReturnsXor : Obligations.CrcFinalReturnsXor :=
  fun _ => ⟨fun _ => exec_crc16Final, fun _ => exec_crc32Final⟩

end Sys2Proof.Machine

/-! SUPPORT. The canonical body of a message (41_cobsr_encoder.md R120): its bytes, its length, and that the meaning of
42_cobsr_decoder.md R160 takes it back to the message. -/

namespace Sys2Proof.Machine

open Sys2Proof

/-! ## The blocks of a body -/

theorem toNat_runCode {r : Window} (h : r.length ≤ maxRun) : (runCode r).toNat = r.length + 1 := by
  have hlen : r.length ≤ 254 := h
  rw [runCode, BitVec.toNat_ofNat]
  exact Nat.mod_eq_of_lt (by omega)

theorem runCode_ne_zero {r : Window} (h : r.length ≤ maxRun) : runCode r ≠ 0x00#8 := ofNat_succ_ne_zero h

/-- Only a full run has the code `0xFF` (30_encoding.md R62). -/
theorem runCode_ne_full {r : Window} (h : r.length < maxRun) : runCode r ≠ 0xFF#8 := by
  intro hc
  have hlen : r.length < 254 := h
  have hnat : 255 = r.length + 1 := (congrArg BitVec.toNat hc).symm.trans (toNat_runCode h.le)
  omega

theorem reducedCode_eq_some {r : Window} {v : Byte} :
    reducedCode r = some v ↔ r.getLast? = some v ∧ r.length + 1 ≤ v.toNat := by
  unfold reducedCode
  cases r.getLast? with
  | none => simp
  | some u =>
    simp only [Option.some.injEq]
    grind

/-- The final run is either reduced, its last byte standing in the place of the code, or plain. -/
theorem finalBlock_cases (r : Window) :
    (∃ t v, r = t ++ [v] ∧ r.length + 1 ≤ v.toNat ∧ finalBlock r = v :: t) ∨ finalBlock r = runCode r :: r := by
  cases hr : reducedCode r with
  | none => exact .inr (by simp [finalBlock, hr])
  | some v =>
    obtain ⟨hlast, hv⟩ := reducedCode_eq_some.1 hr
    exact .inl ⟨r.dropLast, v, (List.dropLast_append_getLast? v hlast).symm, hv, by simp [finalBlock, hr]⟩

/-! ## The bytes and the length of a body -/

theorem zeroFree_finalBlock {r : Window} (hr : zeroFree r) (hlen : r.length ≤ maxRun) : zeroFree (finalBlock r) := by
  rcases finalBlock_cases r with ⟨t, v, rfl, -, heq⟩ | heq <;> rw [heq]
  · simpa [zeroFree, or_comm, forall_and] using hr
  · simpa [zeroFree] using ⟨runCode_ne_zero hlen, hr⟩

theorem zeroFree_encRun {r x : Window} (hr : zeroFree r) (hlen : r.length ≤ maxRun) : zeroFree (encRun r x) := by
  fun_induction encRun r x with
  | case1 r => exact zeroFree_finalBlock hr hlen
  | case2 r b x hfull ihNil ihByte =>
    have hnil := ihNil (by simp [zeroFree]) (by simp)
    split
    · have hcode := runCode_ne_zero (r := []) (by simp)
      grind
    · have hbyte := ihByte (by simpa [zeroFree]) (by simp)
      grind
  | case3 r x hne ih =>
    have hnil := ih (by simp [zeroFree]) (by simp)
    have hcode := runCode_ne_zero hlen
    grind
  | case4 r b x hne hb ih =>
    exact ih (by grind) (by simp; omega)

theorem length_finalBlock_ge (r : Window) : max r.length 1 ≤ (finalBlock r).length := by
  rcases finalBlock_cases r with ⟨t, v, rfl, -, heq⟩ | heq <;> simp [heq]

/-- No byte of the message is lost, and a body is never empty (30_encoding.md R61). -/
theorem length_encRun_ge (r x : Window) : max (r.length + x.length) 1 ≤ (encRun r x).length := by
  fun_induction encRun r x with
  | case1 r => simpa using length_finalBlock_ge r
  | case2 r b x hfull ihNil ihByte =>
    split <;> simp only [List.length_append, List.length_cons, List.length_nil] at * <;> omega
  | case3 r x hne ih | case4 r b x hne hb ih =>
    simp only [List.length_append, List.length_cons, List.length_nil] at *
    omega

theorem encRun_ne_nil (r x : Window) : encRun r x ≠ [] := by
  have := length_encRun_ge r x
  exact List.ne_nil_of_length_pos (by omega)

/-- Settles O23, from the bytes and the two length bounds of the body of a run under way. -/
theorem canonicalBodyShape : Obligations.CanonicalBodyShape := by
  intro x
  have hlower := length_encRun_ge [] x
  have hupper := length_encRun_le [] x (Nat.zero_le _)
  simp only [List.length_nil, Nat.zero_add] at hlower hupper
  refine ⟨zeroFree_encRun (by simp [zeroFree]) (Nat.zero_le _), hlower, ?_, fun hx => ?_, by simp [frameOf]⟩
  · rintro rfl
    rfl
  · have := List.length_pos_of_ne_nil hx
    rw [encBody]
    omega

/-! ## Decoding a body -/

/-- The second case of `dec`, as 42_cobsr_decoder.md R160 writes it. -/
theorem decBody_cons (c : Byte) (t : Window) :
    decBody (c :: t) =
      if c.toNat - 1 > t.length then t ++ [c]
      else if c.toNat - 1 = t.length then t
      else if c = 0xFF#8 then t.take maxRun ++ decBody (t.drop maxRun)
      else t.take (c.toNat - 1) ++ 0x00#8 :: decBody (t.drop (c.toNat - 1)) := by
  have hfuel : ∀ k, decBlocks t.length (t.drop k) = decBody (t.drop k) :=
    fun k => decBlocks_fuel (by simp) (Nat.le_refl _)
  rw [decBody, List.length_cons, decBlocks]
  simp only [hfuel]

/-- A block that is not full, with more of the body behind it. -/
theorem decBody_block {r u : Window} (hr : r.length < maxRun) (hu : u ≠ []) :
    decBody (runCode r :: r ++ u) = r ++ 0x00#8 :: decBody u := by
  have hcode := toNat_runCode hr.le
  have hpos := List.length_pos_of_ne_nil hu
  rw [List.cons_append, decBody_cons, if_neg (by simp; omega), if_neg (by simp; omega), if_neg (runCode_ne_full hr)]
  simp [hcode]

/-- A full block, with more of the body behind it: no zero stands between them. -/
theorem decBody_full_block {r u : Window} (hr : r.length = maxRun) (hu : u ≠ []) :
    decBody (0xFF#8 :: r ++ u) = r ++ decBody u := by
  have hpos := List.length_pos_of_ne_nil hu
  have hlen : r.length = 254 := hr
  rw [List.cons_append, decBody_cons, if_neg (by simp; omega), if_neg (by simp; omega), if_pos rfl, ← hr]
  simp

theorem decBody_finalBlock {r : Window} (hr : r.length ≤ maxRun) : decBody (finalBlock r) = r := by
  rcases finalBlock_cases r with ⟨t, v, rfl, hv, heq⟩ | heq
  · rw [heq, decBody_cons, if_pos (by simp at hv; omega)]
  · rw [heq, decBody_cons, toNat_runCode hr]
    simp

theorem decBody_encRun {r x : Window} (hr : r.length ≤ maxRun) : decBody (encRun r x) = r ++ x := by
  fun_induction encRun r x with
  | case1 r => simpa using decBody_finalBlock hr
  | case2 r b x hfull ihNil ihByte =>
    split
    · next hb =>
      have hblock := decBody_block (r := []) (by simp) (encRun_ne_nil [] x)
      rw [decBody_full_block hfull (by simp), ← List.nil_append (encRun [] x), ← List.cons_append, hblock,
        ihNil (by simp), hb]
      simp
    · rw [decBody_full_block hfull (encRun_ne_nil _ _), ihByte (by simp)]
      simp
  | case3 r x hne ih =>
    rw [decBody_block (Nat.lt_of_le_of_ne hr hne) (encRun_ne_nil _ _), ih (by simp)]
    simp
  | case4 r b x hne hb ih =>
    rw [ih (by simp; omega)]
    simp

/-- Settles O24: the body of a message is the body of the empty run with the message after it. -/
theorem decodingInvertsEncoding : Obligations.DecodingInvertsEncoding :=
  fun _ => decBody_encRun (Nat.zero_le _)

end Sys2Proof.Machine

/-! SUPPORT. What one call of `ENC.STEP` comes to from any registers, and how calls go on from one another: a window cut
in two, an output cut in two, and a whole sequence of calls (41_cobsr_encoder.md R133 to R141). -/

namespace Sys2Proof.Machine

open Sys2Proof

/-! ## `ENC.STEP` and its results -/

theorem exec_encStep (inp : Window) (last : Bool) (cap : Nat) (s : State) :
    exec (.encStep inp last cap) s =
      .next ({ s with enc := (encStep s.enc inp last cap).enc }.reply
        (.step (encStep s.enc inp last cap).consumed (encStep s.enc inp last cap).out
          (encStep s.enc inp last cap).status)) := execEncStep_eq inp last cap s

@[simp] theorem lastStep_reply_step (s : State) (c : Nat) (o : Window) (st : Status) :
    lastStep (s.reply (.step c o st)) = some (c, o, st) := by
  simp [lastStep]

/-- The call that a state and its newest result come from. -/
theorem encStep_of_exec {s t : State} {inp : Window} {last : Bool} {cap c : Nat} {o : Window} {st : Status}
    (h : exec (.encStep inp last cap) s = .next t) (hl : lastStep t = some (c, o, st)) :
    encStep s.enc inp last cap = ⟨t.enc, c, o, st⟩ := by
  rw [exec_encStep] at h
  cases h
  simp only [lastStep_reply_step, Option.some.injEq, Prod.mk.injEq] at hl
  obtain ⟨rfl, rfl, rfl⟩ := hl
  rfl

theorem exec_of_encStep {s : State} {inp : Window} {last : Bool} {cap : Nat} {r : EncResult}
    (h : encStep s.enc inp last cap = r) :
    exec (.encStep inp last cap) s = .next ({ s with enc := r.enc }.reply (.step r.consumed r.out r.status)) :=
  h ▸ exec_encStep inp last cap s

/-- Settles O13, by the definition of the reset. -/
theorem encResetRestores : Obligations.EncResetRestores := fun _ => rfl

/-- Settles O14: what a call pays, and that it keeps the invariant. -/
theorem encStepPaysWhatIsOwed : Obligations.EncStepPaysWhatIsOwed := by
  intro s inp y last cap h hy
  have hp := encStep_pays h inp hy cap
  exact ⟨_, _, _, _, exec_encStep inp last cap s, encStep_keeps_inv h inp last cap, hp.consumed_le, hp.out_le,
    hp.paid⟩

/-! ## How a call ends -/

/-- Where a call stands in the middle of its loop, whatever the registers: the input split into what it took and what is
left, the space into what it used and what is left. -/
structure EncWithin (inp : Window) (cap : Nat) (c : EncLoop) : Prop where
  taken_le : c.taken ≤ inp.length
  rest_eq : c.rest = inp.drop c.taken
  space : c.out.length + c.room = cap

/-- The ways a call ends (41_cobsr_encoder.md R133). -/
inductive EncEnds (inp : Window) (last : Bool) (cap : Nat) : EncResult → Prop where
  | moreInput {e : Enc} {o : Window} (hp : e.phase = .accum) (hlast : last = false) (ho : o.length ≤ cap) :
    EncEnds inp last cap ⟨e, inp.length, o, .moreInput⟩
  | moreOutput {e : Enc} {c : Nat} {o : Window}
    (hp : e.phase = .code ∨ (e.phase = .data ∧ e.pos < e.n) ∨ e.phase = .delim) (hc : c ≤ inp.length)
    (ho : o.length = cap) : EncEnds inp last cap ⟨e, c, o, .moreOutput⟩
  | frameComplete {e : Enc} {c : Nat} {o : Window} (hc : c ≤ inp.length) (ho : o.length < cap) :
    EncEnds inp last cap ⟨encReset e, c, o ++ [delim], .frameComplete⟩

section
variable {inp : Window} {last : Bool} {cap : Nat} {c : EncLoop}

theorem EncWithin.start (e : Enc) (inp : Window) (cap : Nat) : EncWithin inp cap ⟨e, inp, 0, [], cap⟩ :=
  ⟨Nat.zero_le _, rfl, Nat.zero_add _⟩

theorem EncWithin.again {c' : EncLoop} (h : EncWithin inp cap c) (hgo : EncGoesOn last c c') :
    EncWithin inp cap c' := by
  have hspace := hgo.space.trans h.space
  rcases hgo.input with ⟨hr, ht⟩ | ⟨hne, hr, ht⟩
  · exact ⟨ht ▸ h.taken_le, by rw [hr, ht, h.rest_eq], hspace⟩
  · rw [h.rest_eq, ne_eq, List.drop_eq_nil_iff] at hne
    exact ⟨by omega, by rw [hr, ht, h.rest_eq, List.tail_drop], hspace⟩

theorem EncWithin.ret {r : EncResult} (h : EncWithin inp cap c) (hr : EncReturns last c r) :
    EncEnds inp last cap r := by
  obtain ⟨htaken, hrest, hspace⟩ := h
  cases hr with
  | noRoom hroom hp => exact .moreOutput hp htaken (by omega)
  | delimOut _ hroom => exact .frameComplete htaken (by omega)
  | windowUsedUp hp hnil hlast =>
    have hle := List.drop_eq_nil_iff.1 (hrest.symm.trans hnil)
    rw [Nat.le_antisymm htaken hle]
    exact .moreInput hp hlast (by omega)

theorem encStep_ends (e : Enc) (inp : Window) (last : Bool) (cap : Nat) :
    EncEnds inp last cap (encStep e inp last cap) := by
  rw [encStep_eq_runOut]
  exact encRunOut_induct (P := fun c r => EncWithin inp cap c → EncEnds inp last cap r)
    (fun _ _ ha h => h.ret (encArm_ret ha)) (fun _ _ _ ha ih h => ih (h.again (encArm_again ha))) _ (.start e inp cap)

theorem EncEnds.out_le {r : EncResult} (h : EncEnds inp last cap r) : r.out.length ≤ cap := by
  cases h with
  | moreInput _ _ ho => exact ho
  | moreOutput _ _ ho => exact ho.le
  | frameComplete _ ho => simpa using ho

theorem EncEnds.consumed_eq {r : EncResult} (h : EncEnds inp last cap r) (hst : r.status = .moreInput) :
    r.consumed = inp.length := by
  cases h with
  | moreInput => rfl
  | moreOutput | frameComplete => cases hst

theorem EncEnds.out_eq {r : EncResult} (h : EncEnds inp last cap r) (hst : r.status = .moreOutput) :
    r.out.length = cap := by
  cases h with
  | moreOutput _ _ ho => exact ho
  | moreInput | frameComplete => cases hst

end

/-- Settles O15, by the ways a call ends. -/
theorem encStepStatuses : Obligations.EncStepStatuses := by
  intro s inp last cap
  refine ⟨_, _, _, _, exec_encStep inp last cap s, ?_⟩
  have hends := encStep_ends s.enc inp last cap
  generalize encStep s.enc inp last cap = r at hends ⊢
  cases hends with
  | moreInput hp hlast => exact .inl ⟨rfl, hp, rfl, hlast⟩
  | moreOutput hp _ ho => exact .inr (.inl ⟨rfl, ho, hp⟩)
  | frameComplete => exact .inr (.inr ⟨rfl, rfl, by simp⟩)

/-- Settles O20: at the end of the message a call ends with its space used up or the delimiter out, and of the ways a
call ends only the two that R138 names put nothing out. -/
theorem encStepProgress : Obligations.EncStepProgress := by
  intro s inp last cap _
  refine ⟨_, _, _, _, exec_encStep inp last cap s, ?_⟩
  have hends := encStep_ends s.enc inp last cap
  generalize encStep s.enc inp last cap = r at hends ⊢
  cases hends with
  | moreInput hp hlast =>
    exact ⟨by simp [hlast], fun he hc _ => .inl ⟨he ▸ hp, List.length_eq_zero_iff.1 hc, hlast⟩⟩
  | moreOutput hp _ ho =>
    refine ⟨fun _ hcap => ho ▸ hcap, fun he _ hnil => .inr ⟨fun hacc => ?_, ?_⟩⟩
    · obtain rfl : _ = s.enc := he
      simp [hacc] at hp
    · exact ho ▸ List.length_eq_zero_iff.2 hnil
  | frameComplete => simp

/-! ## The split forms (41_cobsr_encoder.md R141, 42_cobsr_decoder.md R178) -/

theorem decArmReduced_out_le (d : Dec) (taken : Nat) (out : Window) (room : Nat) :
    (decArmReduced d taken out room).out.length ≤ out.length + room := by
  by_cases hroom : room = 0
  · simp [hroom, decArmReduced_full]
  · rw [decArmReduced_space hroom]
    simp
    omega

theorem decLoop_out_le (d : Dec) (taken : Nat) (out : Window) (room : Nat) (inp : Window) :
    (decLoop d taken out room inp).out.length ≤ out.length + room := by
  fun_induction decLoop d taken out room inp with
  | case1 | case3 => exact decArmReduced_out_le _ _ _ _
  | case2 | case5 | case7 | case8 => simp
  | case4 _ _ _ _ _ _ _ ih | case10 _ _ _ _ _ _ _ _ _ _ ih => exact ih
  | case6 _ _ _ _ _ _ _ _ _ hroom ih | case9 _ _ _ _ _ _ _ _ _ _ hroom ih =>
    simp only [List.length_append, List.length_singleton] at ih
    omega

theorem decStep_out_le (d : Dec) (inp : Window) (cap : Nat) : (decStep d inp cap).out.length ≤ cap := by
  simpa [decStep] using decLoop_out_le d 0 [] cap inp

theorem firstOut_eq (o : Window) (cap0 : Nat) : firstOut o cap0 = o.take cap0 := by
  rcases Nat.le_total o.length cap0 with h | h <;> simp [firstOut, splitPoint, h, List.take_of_length_le]

theorem secondOut_eq (o : Window) (cap0 : Nat) : secondOut o cap0 = o.drop cap0 := by
  rcases Nat.le_total o.length cap0 with h | h <;> simp [secondOut, splitPoint, h]

theorem exec_encStep2 {s : State} {in0 in1 : Window} {last : Bool} {cap0 cap1 : Nat} {r : EncResult}
    (h : encStep s.enc (in0 ++ in1) last (cap0 + cap1) = r) :
    exec (.encStep2 in0 in1 last cap0 cap1) s =
      .next ({ s with enc := r.enc }.reply (.step2 r.consumed (r.out.take cap0) (r.out.drop cap0) r.status)) := by
  rw [← h, ← firstOut_eq, ← secondOut_eq]
  rfl

theorem exec_decStep2 {s : State} {in0 in1 : Window} {cap0 cap1 : Nat} {r : DecResult}
    (h : decStep s.dec (in0 ++ in1) (cap0 + cap1) = r) :
    exec (.decStep2 in0 in1 cap0 cap1) s =
      .next ({ s with dec := r.dec }.reply (.step2 r.consumed (r.out.take cap0) (r.out.drop cap0) r.status)) := by
  rw [← h, ← firstOut_eq, ← secondOut_eq]
  rfl

/-- What does not fit the first window fits the second. -/
theorem length_drop_le_of_length_le {o : Window} {cap0 cap1 : Nat} (h : o.length ≤ cap0 + cap1) :
    (o.drop cap0).length ≤ cap1 := by
  rw [List.length_drop]
  omega

/-- Settles O21, by the split forms as equations; the output of each unit fits the space of both windows. -/
theorem splitFormsDealOutput : Obligations.SplitFormsDealOutput := fun s _ _ _ _ _ =>
  ⟨⟨_, _, _, _, exec_encStep _ _ _ s, exec_encStep2 rfl,
      length_drop_le_of_length_le (encStep_ends _ _ _ _).out_le⟩,
    ⟨_, _, _, _, execDecStep_eq _ _ s, exec_decStep2 rfl,
      length_drop_le_of_length_le (decStep_out_le _ _ _)⟩⟩

/-! ## Going on from a call (41_cobsr_encoder.md R134, R139) -/

/-- The same point of the loop with more input behind the window and more space. -/
def EncLoop.grow (c : EncLoop) (more : Window) (space : Nat) : EncLoop :=
  { c with rest := c.rest ++ more, room := c.room + space }

/-- The same point of the loop when earlier calls consumed `k` bytes and put out `o`. -/
def EncLoop.after (c : EncLoop) (k : Nat) (o : Window) : EncLoop :=
  { c with taken := k + c.taken, out := o ++ c.out }

/-- What a call returns, counted from the start of earlier calls that consumed `k` bytes and put out `o`. -/
def EncResult.after (r : EncResult) (k : Nat) (o : Window) : EncResult :=
  { r with consumed := k + r.consumed, out := o ++ r.out }

/-- The same, for a repetition. -/
def EncTurn.after : EncTurn → Nat → Window → EncTurn
  | .again c, k, o => .again (c.after k o)
  | .ret r, k, o => .ret (r.after k o)

/-- A repetition does not look at what was consumed and put out before it. -/
theorem encArm_after (last : Bool) (c : EncLoop) (k : Nat) (o : Window) :
    encArm last (c.after k o) = (encArm last c).after k o := by
  cases hp : c.enc.phase with
  | code =>
    by_cases hroom : c.room = 0 <;>
      simp [encArm, encArmCode, encReturn, encEmit, EncTurn.after, EncResult.after, EncLoop.after, hp, hroom]
  | data =>
    simp only [encArm, EncLoop.after, hp, encArmData]
    split
    · split <;> simp [encReturn, encEmit, EncTurn.after, EncResult.after, EncLoop.after]
    · rfl
  | delim =>
    by_cases hroom : c.room = 0 <;>
      simp [encArm, encArmDelim, encReturn, encEmit, EncTurn.after, EncResult.after, EncLoop.after, hp, hroom]
  | accum =>
    simp only [encArm, EncLoop.after, hp, encArmAccum]
    split
    · split
      · rfl
      · split <;> rfl
    · split <;> rfl

theorem encRunOut_after (last : Bool) (c : EncLoop) (k : Nat) (o : Window) :
    encRunOut last (c.after k o) = (encRunOut last c).after k o := by
  refine encRunOut_induct (P := fun c r => encRunOut last (c.after k o) = r.after k o) (fun c r ha => ?_)
    (fun c c' r ha ih => ?_) c <;> rw [encRunOut_eq, encArm_after, ha]
  · rfl
  · exact ih

/-- A repetition that goes on does so too with more input behind the window and more space. Only in phase `ACCUM` does
it matter whether the window is used up: there either the message was not over, or nothing is added to it. -/
theorem encArm_grow {last last' : Bool} {c c' : EncLoop} {more : Window} (space : Nat) (hgo : EncGoesOn last c c')
    (hcut : c.enc.phase = .accum → last = false ∨ (last' = last ∧ more = [])) :
    encArm last' (c.grow more space) = .again (c'.grow more space) := by
  cases hgo with
  | codeOut hp hroom =>
    simp [encArm, encArmCode, EncLoop.grow, encEmit, hp, hroom]
    omega
  | dataOut hp hpos hroom =>
    simp [encArm, encArmData, EncLoop.grow, encEmit, hp, hpos, hroom]
    omega
  | runClosed hp hpos => simp [encArm, encArmData, EncLoop.grow, hp, hpos]
  | runFull hp hlen hrest => simp [encArm, encArmAccum, EncLoop.grow, hp, hlen, hrest]
  | zeroTaken hp hlen hrest => simp [encArm, encArmAccum, EncLoop.grow, hp, hlen, hrest]
  | byteTaken hp hlen hb hrest => simp [encArm, encArmAccum, EncLoop.grow, hp, hlen, hb, hrest]
  | messageEnded hp hrest hlast =>
    obtain ⟨rfl, rfl⟩ := (hcut hp).resolve_left (by simp [hlast])
    simp [encArm, encArmAccum, EncLoop.grow, hp, hrest, hlast]

/-- A call that stops before the end of the frame is a front of every longer call: with more input or more space the
loop comes to the point at which the call returned and goes on from there. -/
theorem encStep_resume {e : Enc} {inp : Window} {last : Bool} {cap : Nat} {r : EncResult}
    (hr : encStep e inp last cap = r) (hst : r.status ≠ .frameComplete) {last' : Bool} {more : Window} (space : Nat)
    (hcut : last = false ∨ (last' = last ∧ more = [])) :
    encStep e (inp ++ more) last' (cap + space) =
      (encStep r.enc (inp.drop r.consumed ++ more) last' (cap - r.out.length + space)).after r.consumed r.out := by
  subst hr
  revert hst
  rw [encStep_eq_runOut, encStep_eq_runOut, encStep_eq_runOut, ← encRunOut_after]
  refine encRunOut_induct (P := fun c r => EncWithin inp cap c → r.status ≠ .frameComplete →
    encRunOut last' (c.grow more space) = encRunOut last' (EncLoop.after
      ⟨r.enc, inp.drop r.consumed ++ more, 0, [], cap - r.out.length + space⟩ r.consumed r.out))
    (fun c r ha h hst => ?_) (fun c c' r ha ih h hst => ?_) _ (.start e inp cap)
  · have hroom : cap - c.out.length = c.room := by have := h.space; omega
    cases encArm_ret ha with
    | noRoom | windowUsedUp => simp [EncLoop.grow, EncLoop.after, h.rest_eq, hroom]
    | delimOut => exact absurd rfl hst
  · have hgo := encArm_again ha
    rw [encRunOut_eq, encArm_grow space hgo fun _ => hcut]
    exact ih (h.again hgo) hst

/-- Settles O16: the first call returned with its window used up, so the longer call goes on with the second window. -/
theorem encStepResumesInput : Obligations.EncStepResumesInput := by
  intro s t0 t1 in0 in1 last cap c0 c1 o0 o1 st h0 hl0 h1 hl1
  have hcall0 := encStep_of_exec h0 hl0
  have hcall1 := encStep_of_exec h1 hl1
  have hused : c0 = in0.length := (hcall0 ▸ encStep_ends s.enc in0 false cap).consumed_eq rfl
  have hjoined := encStep_resume hcall0 (by simp) (last' := last) (more := in1) 0 (.inl rfl)
  simp only [hused, List.drop_length, List.nil_append, Nat.add_zero, hcall1] at hjoined
  exact ⟨_, exec_of_encStep hjoined, rfl, by simp [EncResult.after, hused]⟩

/-- Settles O17: the first call returned with its space used up, so the longer call goes on with the fresh space. -/
theorem encStepResumesOutput : Obligations.EncStepResumesOutput := by
  intro s t0 t1 inp last cap0 cap1 c0 c1 o0 o1 st h0 hl0 h1 hl1
  have hcall0 := encStep_of_exec h0 hl0
  have hcall1 := encStep_of_exec h1 hl1
  have hused : o0.length = cap0 := (hcall0 ▸ encStep_ends s.enc inp last cap0).out_eq rfl
  have hjoined := encStep_resume hcall0 (by simp) cap1 (.inr ⟨rfl, rfl⟩)
  simp only [hused, List.append_nil, Nat.sub_self, Nat.zero_add, hcall1] at hjoined
  exact ⟨_, exec_of_encStep hjoined, rfl, by simp [EncResult.after]⟩

/-! ## The final flush (41_cobsr_encoder.md R135) -/

/-- The final flush has begun: the last run of the message, or the delimiter, is being put out. -/
structure FinalFlush (e : Enc) : Prop where
  final : e.final = true
  not_accum : e.phase ≠ .accum

theorem EncInv.finalFlush_begun {e : Enc} (h : EncInv e) (hf : e.final = true) : FinalFlush e := by
  refine ⟨hf, fun hp => ?_⟩
  obtain ⟨-, -, hfalse, -⟩ := h.in_accum hp
  simp [hf] at hfalse

section
variable {last : Bool} {c c' : EncLoop}

theorem FinalFlush.again (h : FinalFlush c.enc) (hgo : EncGoesOn last c c') :
    FinalFlush c'.enc ∧ c'.taken = c.taken := by
  cases hgo with
  | codeOut => exact ⟨⟨h.final, by simp⟩, rfl⟩
  | dataOut => exact ⟨⟨h.final, h.not_accum⟩, rfl⟩
  | runClosed =>
    rw [encCloseRun, if_pos h.final]
    exact ⟨⟨h.final, by simp⟩, rfl⟩
  | runFull hp | zeroTaken hp | byteTaken hp | messageEnded hp => exact absurd hp h.not_accum

/-- A repetition that returns does so too with more input behind the window, when it does not look at the input. -/
theorem encArm_grow_ret {r : EncResult} (hr : EncReturns last c r) (hp : c.enc.phase ≠ .accum) (last' : Bool)
    (more : Window) : encArm last' (c.grow more 0) = .ret r := by
  cases hr with
  | noRoom hroom howed =>
    rcases howed with hcode | ⟨hdata, hpos⟩ | hdelim
    · simp [encArm, encArmCode, EncLoop.grow, encReturn, hcode, hroom]
    · simp [encArm, encArmData, EncLoop.grow, encReturn, hdata, hpos, hroom]
    · simp [encArm, encArmDelim, EncLoop.grow, encReturn, hdelim, hroom]
  | delimOut hdelim hroom => simp [encArm, encArmDelim, EncLoop.grow, encReturn, encEmit, hdelim, hroom]
  | windowUsedUp haccum => exact absurd haccum hp

/-- Once the final flush has begun the loop takes nothing, whatever the window and `last`. -/
theorem FinalFlush.runOut (h : FinalFlush c.enc) (last' : Bool) (more : Window) :
    encRunOut last' (c.grow more 0) = encRunOut last c ∧ (encRunOut last c).consumed = c.taken := by
  refine encRunOut_induct
    (P := fun c r => FinalFlush c.enc → encRunOut last' (c.grow more 0) = r ∧ r.consumed = c.taken)
    (fun c r ha h => ?_) (fun c c' r ha ih h => ?_) c h
  · have hr := encArm_ret ha
    rw [encRunOut_eq, encArm_grow_ret hr h.not_accum]
    cases hr <;> exact ⟨rfl, rfl⟩
  · have hgo := encArm_again ha
    obtain ⟨hflush, htaken⟩ := h.again hgo
    rw [encRunOut_eq, encArm_grow 0 hgo fun hp => absurd hp h.not_accum, ← htaken]
    exact ih hflush

end

/-- Settles O19: the call on the empty window ends as the call on any window, and with `last = 1` it does not ask for
more input. -/
theorem encFinalFlushIgnoresInput : Obligations.EncFinalFlushIgnoresInput := by
  intro s inp last cap h hf
  obtain ⟨hsame, htaken⟩ :=
    FinalFlush.runOut (last := true) (c := ⟨s.enc, [], 0, [], cap⟩) (h.finalFlush_begun hf) last inp
  rw [← encStep_eq_runOut] at hsame htaken
  have hcall : encStep s.enc inp last cap = encStep s.enc [] true cap := (encStep_eq_runOut _ _ _ _).trans hsame
  have hends := encStep_ends s.enc [] true cap
  generalize hr : encStep s.enc [] true cap = r at hcall htaken hends
  refine ⟨r.enc, r.out, r.status, ?_, ?_, ?_⟩
  · rw [exec_of_encStep hcall, htaken]
  · rw [exec_of_encStep hr, htaken]
  · cases hends with
    | moreInput _ hlast => cases hlast
    | moreOutput | frameComplete => simp

/-! ## Sequences of calls (41_cobsr_encoder.md R137) -/

theorem EncEnds.reset_of_complete {inp : Window} {last : Bool} {cap : Nat} {r : EncResult}
    (h : EncEnds inp last cap r) (hst : r.status = .frameComplete) : r.enc = encReset r.enc := by
  cases h with
  | frameComplete => rfl
  | moreInput | moreOutput => cases hst

/-- What is left of the window after a call, and what is behind the window, is what is left of the message. -/
theorem drop_take_append_drop {x : Window} {n c : Nat} (hc : c ≤ (x.take n).length) :
    (x.take n).drop c ++ x.drop n = x.drop c := by
  rw [← List.drop_append_of_le_length hc, List.take_append_drop]

/-- What a sequence of calls comes to, by the result of its first call. -/
theorem encodeCalls_cons {s t : State} {x out : Window} {n cap : Nat} {calls : List (Nat × Nat)} {r : EncResult}
    (hr : encStep s.enc (x.take n) (decide (x.length ≤ n)) cap = r)
    (h : encodeCalls s x ((n, cap) :: calls) = some (out, t)) :
    (r.status = .frameComplete ∧ out = r.out ∧
      t = { s with enc := r.enc }.reply (.step r.consumed r.out r.status)) ∨
    (r.status ≠ .frameComplete ∧ ∃ os, out = r.out ++ os ∧
      encodeCalls ({ s with enc := r.enc }.reply (.step r.consumed r.out r.status)) (x.drop r.consumed) calls =
        some (os, t)) := by
  rw [encodeCalls, exec_of_encStep hr] at h
  simp only [lastStep_reply_step] at h
  split at h
  · next hst =>
    cases h
    exact .inl ⟨hst, rfl, rfl⟩
  · next hst =>
    obtain ⟨⟨os, u⟩, hrest, heq⟩ := Option.map_eq_some_iff.1 h
    cases heq
    exact .inr ⟨hst, os, rfl, hrest⟩

/-- The calls put out what was owed at their start. -/
theorem encodeCalls_pay {s t : State} {x out : Window} {calls : List (Nat × Nat)} (h : EncInv s.enc)
    (hcalls : encodeCalls s x calls = some (out, t)) :
    out = encOwes s.enc x ∧ t.enc = encReset t.enc ∧ t = { s with enc := t.enc, trace := t.trace } := by
  induction calls generalizing s x out with
  | nil => cases hcalls
  | cons call calls ih =>
    obtain ⟨n, cap⟩ := call
    have hends := encStep_ends s.enc (x.take n) (decide (x.length ≤ n)) cap
    have hinv := encStep_keeps_inv h (x.take n) (decide (x.length ≤ n)) cap
    have hpays := encStep_pays (last := decide (x.length ≤ n)) h (x.take n) (y := x.drop n) (by simp) cap
    generalize hr : encStep s.enc (x.take n) (decide (x.length ≤ n)) cap = r at hends hinv hpays
    have hpaid := hpays.paid
    rw [List.take_append_drop, drop_take_append_drop hpays.consumed_le] at hpaid
    rcases encodeCalls_cons hr hcalls with ⟨hst, rfl, rfl⟩ | ⟨hst, os, rfl, hrest⟩
    · exact ⟨by simpa [hst] using hpaid.symm, hends.reset_of_complete hst, rfl⟩
    · obtain ⟨hos, hreset, hframe⟩ := ih (by exact hinv) hrest
      rw [if_neg hst] at hpaid
      exact ⟨by rw [hpaid, hos]; rfl, hreset, hframe⟩

/-- Settles O18: what a reset encoder owes is the frame of the message. -/
theorem encodeCallsSpellFrame : Obligations.EncodeCallsSpellFrame := by
  intro s t x out calls h hreset hcalls
  obtain ⟨hout, hrest⟩ := encodeCalls_pay h hcalls
  rw [hreset, encOwes_encReset] at hout
  exact ⟨hout, hrest⟩

/-! ## A whole message in one call (41_cobsr_encoder.md R142) -/

/-- The whole message in one call, without space for its frame: the front of the frame comes out. -/
theorem encStep_gives_front {e : Enc} {x : Window} {cap : Nat} (h : e.buf.length = 254)
    (hcap : cap < (frameOf x).length) :
    (encStep (encReset e) x true cap).out = (frameOf x).take cap ∧
      (encStep (encReset e) x true cap).status = .moreOutput := by
  have hends := encStep_ends (encReset e) x true cap
  have hpaid := (encStep_pays (last := true) (encInv_encReset h) x (y := []) (fun _ => rfl) cap).paid
  rw [List.append_nil, encOwes_encReset] at hpaid
  generalize encStep (encReset e) x true cap = r at hends hpaid ⊢
  cases hends with
  | moreInput _ hlast => cases hlast
  | moreOutput _ _ ho => exact ⟨by simp [hpaid, ← ho], rfl⟩
  | frameComplete _ ho =>
    rw [hpaid] at hcap
    simp at hcap
    omega

theorem exec_encOneshot {s : State} {inp : Window} {cap : Nat} {r : EncResult}
    (h : encStep (encReset s.enc) inp true cap = r) :
    exec (.encOneshot inp cap) s =
      .next ({ s with enc := encReset r.enc }.reply (.out r.out (encOneshotStatus r.status))) :=
  h ▸ rfl

/-- Settles O22, by whether the frame fits. -/
theorem encOneshotGivesFrame : Obligations.EncOneshotGivesFrame := by
  intro s inp cap h
  refine ⟨_, (encStep_keeps_inv (encInv_encReset h) inp true cap).buf_size, ?_⟩
  rw [exec_encOneshot rfl]
  split
  · next hfits =>
    obtain ⟨hout, hst⟩ := encStep_gives_frame h hfits
    rw [hout, hst]
    rfl
  · next hlong =>
    obtain ⟨hout, hst⟩ := encStep_gives_front h (Nat.lt_of_not_le hlong)
    rw [hout, hst]
    rfl

end Sys2Proof.Machine

/-! SUPPORT. What one call of `DEC.STEP` comes to from any registers, and how calls go on from one another: a window cut
in two, an output cut in two, a whole sequence of calls, and a whole frame in one call (42_cobsr_decoder.md R166 to
R179). -/

namespace Sys2Proof.Machine

open Sys2Proof

/-! ## `DEC.STEP` and its results -/

theorem exec_of_decStep {s : State} {inp : Window} {cap : Nat} {r : DecResult} (h : decStep s.dec inp cap = r) :
    exec (.decStep inp cap) s = .next ({ s with dec := r.dec }.reply (.step r.consumed r.out r.status)) :=
  h ▸ execDecStep_eq inp cap s

/-- The call that a state and its newest result come from. -/
theorem decStep_of_exec {s t : State} {inp : Window} {cap c : Nat} {o : Window} {st : Status}
    (h : exec (.decStep inp cap) s = .next t) (hl : lastStep t = some (c, o, st)) :
    decStep s.dec inp cap = ⟨t.dec, c, o, st⟩ := by
  rw [exec_of_decStep rfl] at h
  cases h
  simp only [lastStep_reply_step, Option.some.injEq, Prod.mk.injEq] at hl
  obtain ⟨rfl, rfl, rfl⟩ := hl
  rfl

/-- Settles O25, by the definition of the reset. -/
theorem decResetRestores : Obligations.DecResetRestores := fun _ => rfl

/-! ## One repetition of the loop -/

/-- A repetition that goes on (42_cobsr_decoder.md R169, R170): the byte it takes, what it puts out and the registers it
leaves. -/
inductive DecTakes (d : Dec) : Byte → Window → Dec → Prop where
  | delimInRun (hm : d.mode = .plain) (hr : 0 < d.run) : DecTakes d 0x00#8 [] { d with mode := .reduced }
  | dataByte (hm : d.mode = .plain) (hr : 0 < d.run) {b : Byte} (hb : b ≠ 0x00#8) :
    DecTakes d b [b] { d with run := d.run - 1 }
  | codeFirst (hm : d.mode = .plain) (hr : d.run = 0) {b : Byte} (hb : b ≠ 0x00#8) (hz : ¬ zeroOwed d) :
    DecTakes d b [] (decTakeCode d b)
  | codeAfterZero (hm : d.mode = .plain) (hr : d.run = 0) {b : Byte} (hb : b ≠ 0x00#8) (hz : zeroOwed d) :
    DecTakes d b [0x00#8] (decTakeCode d b)

/-- A byte is to be put out before any more input is taken: the reduced byte, or on a non-zero byte of the input a data
byte of a run or an owed zero (42_cobsr_decoder.md R171). -/
def decOwesByte (d : Dec) (inp : Window) : Prop :=
  d.mode = .reduced ∨ (d.mode = .plain ∧ ∃ b, inp.head? = some b ∧ b ≠ 0x00#8 ∧ (0 < d.run ∨ zeroOwed d))

/-- The same result of a call that had taken `k` bytes and put out `o` before. -/
@[simps] def DecResult.after (r : DecResult) (k : Nat) (o : Window) : DecResult :=
  ⟨r.dec, k + r.consumed, o ++ r.out, r.status⟩

/-- What a call comes to, repetition by repetition (42_cobsr_decoder.md R173). -/
inductive DecRuns : Dec → Window → Nat → DecResult → Prop where
  | windowUsedUp {d : Dec} {cap : Nat} (hm : d.mode = .plain) : DecRuns d [] cap ⟨d, 0, [], .moreInput⟩
  | noRoom {d : Dec} {inp : Window} (howed : decOwesByte d inp) : DecRuns d inp 0 ⟨d, 0, [], .moreOutput⟩
  | reducedOut {d : Dec} {inp : Window} {cap : Nat} (hm : d.mode = .reduced) (hcap : cap ≠ 0) :
    DecRuns d inp cap ⟨decReset d, 0, [d.code], .frameComplete⟩
  | delim {d : Dec} {rest : Window} {cap : Nat} (hm : d.mode = .plain) (hr : d.run = 0) :
    DecRuns d (0x00#8 :: rest) cap ⟨decReset d, 1, [], .frameComplete⟩
  | takes {d d' : Dec} {b : Byte} {o rest : Window} {cap : Nat} {r : DecResult} (ht : DecTakes d b o d')
    (ho : o.length ≤ cap) (h : DecRuns d' rest (cap - o.length) r) : DecRuns d (b :: rest) cap (r.after 1 o)

section
variable {d d' : Dec} {b : Byte} {o inp rest : Window} {cap : Nat} {r : DecResult}

/-- The loop's counter and output are carried along and never looked at. -/
theorem decLoop_eq_after (d : Dec) (taken : Nat) (out : Window) (room : Nat) (inp : Window) :
    decLoop d taken out room inp = (decLoop d 0 [] room inp).after taken out := by
  induction inp generalizing d taken out room with
  | nil =>
    simp only [decLoop, decArmReduced]
    grind [DecResult.after]
  | cons b rest ih =>
    simp only [decLoop, decArmReduced]
    grind [DecResult.after]

/-- A call whose first repetition goes on is the call on the rest of the input with what is left of the space. -/
theorem DecTakes.decStep_eq (h : DecTakes d b o d') (ho : o.length ≤ cap) :
    decStep d (b :: rest) cap = (decStep d' rest (cap - o.length)).after 1 o := by
  rw [decStep, decStep, ← decLoop_eq_after]
  cases h with
  | delimInRun hm hr => exact decLoop_run_delim hm hr
  | dataByte hm hr hb => exact decLoop_run_byte hm hr hb (Nat.ne_of_gt ho)
  | codeFirst hm hr hb hz => exact decLoop_code_first hm hr hb hz
  | codeAfterZero hm hr hb hz => exact decLoop_code_zero hm hr hb hz (Nat.ne_of_gt ho)

theorem decStep_reduced (hm : d.mode = .reduced) (hcap : cap ≠ 0) :
    decStep d inp cap = ⟨decReset d, 0, [d.code], .frameComplete⟩ := by
  rw [decStep, decLoop_reduced hm, decArmReduced_space hcap, List.nil_append]

theorem decStep_delim (hm : d.mode = .plain) (hr : d.run = 0) :
    decStep d (0x00#8 :: rest) cap = ⟨decReset d, 1, [], .frameComplete⟩ := decLoop_code_delim hm hr

/-- With a byte owed and no space a call changes nothing. -/
theorem decStep_noRoom (h : decOwesByte d inp) : decStep d inp 0 = ⟨d, 0, [], .moreOutput⟩ := by
  rcases h with hm | ⟨hm, b, hb, hne, howed⟩
  · rw [decStep, decLoop_reduced hm, decArmReduced_full]
  obtain ⟨rest, rfl⟩ := List.head?_eq_some_iff.1 hb
  rcases Nat.eq_zero_or_pos d.run with hr | hr
  · exact decLoop_code_full hm hr hne (howed.resolve_left (by omega))
  · exact decLoop_run_full hm hr hne

/-- What a non-zero byte of the input meets in mode `PLAIN`: it is taken, or a byte is owed before it and there is no
space. -/
theorem decTakes_or_noRoom (hm : d.mode = .plain) (hb : b ≠ 0x00#8) (rest : Window) (cap : Nat) :
    (∃ o d', DecTakes d b o d' ∧ o.length ≤ cap) ∨ (decOwesByte d (b :: rest) ∧ cap = 0) := by
  have howes (h : 0 < d.run ∨ zeroOwed d) : decOwesByte d (b :: rest) := .inr ⟨hm, b, rfl, hb, h⟩
  rcases Nat.eq_zero_or_pos d.run with hr | hr
  · by_cases hz : zeroOwed d
    · rcases Nat.eq_zero_or_pos cap with hcap | hcap
      · exact .inr ⟨howes (.inr hz), hcap⟩
      · exact .inl ⟨_, _, .codeAfterZero hm hr hb hz, hcap⟩
    · exact .inl ⟨_, _, .codeFirst hm hr hb hz, Nat.zero_le _⟩
  · rcases Nat.eq_zero_or_pos cap with hcap | hcap
    · exact .inr ⟨howes (.inl hr), hcap⟩
    · exact .inl ⟨_, _, .dataByte hm hr hb, hcap⟩

theorem decStep_runs_of_reduced (hm : d.mode = .reduced) (inp : Window) (cap : Nat) :
    DecRuns d inp cap (decStep d inp cap) := by
  by_cases hcap : cap = 0
  · rw [hcap, decStep_noRoom (.inl hm)]
    exact .noRoom (.inl hm)
  · rw [decStep_reduced hm hcap]
    exact .reducedOut hm hcap

/-- Every call is such a run, from any registers. -/
theorem decStep_runs (d : Dec) (inp : Window) (cap : Nat) : DecRuns d inp cap (decStep d inp cap) := by
  induction inp generalizing d cap with
  | nil =>
    cases hm : d.mode with
    | reduced => exact decStep_runs_of_reduced hm [] cap
    | plain =>
      rw [decStep, decLoop_nil hm]
      exact .windowUsedUp hm
  | cons b rest ih =>
    cases hm : d.mode with
    | reduced => exact decStep_runs_of_reduced hm _ cap
    | plain =>
      have htakes {o : Window} {d' : Dec} (ht : DecTakes d b o d') (ho : o.length ≤ cap) :
          DecRuns d (b :: rest) cap (decStep d (b :: rest) cap) :=
        ht.decStep_eq ho ▸ .takes ht ho (ih d' _)
      by_cases hb : b = 0x00#8
      · subst hb
        rcases Nat.eq_zero_or_pos d.run with hr | hr
        · rw [decStep_delim hm hr]
          exact .delim hm hr
        · exact htakes (.delimInRun hm hr) (Nat.zero_le _)
      · rcases decTakes_or_noRoom hm hb rest cap with ⟨o, d', ht, ho⟩ | ⟨howed, rfl⟩
        · exact htakes ht ho
        · rw [decStep_noRoom howed]
          exact .noRoom howed

/-! ## How a call ends (42_cobsr_decoder.md R171) -/

/-- What each status says of the registers, the input and the output. -/
structure DecEnds (inp : Window) (cap : Nat) (r : DecResult) : Prop where
  consumed_le : r.consumed ≤ inp.length
  more_input : r.status = .moreInput → r.consumed = inp.length ∧ r.dec.mode = .plain
  more_output : r.status = .moreOutput → r.out.length = cap ∧ decOwesByte r.dec (inp.drop r.consumed)
  complete : r.status = .frameComplete → r.dec = ⟨0x00#8, 0, .plain⟩
  status : r.status = .moreInput ∨ r.status = .moreOutput ∨ r.status = .frameComplete

theorem DecRuns.ends (h : DecRuns d inp cap r) : DecEnds inp cap r := by
  induction h with
  | windowUsedUp hm => exact ⟨Nat.zero_le _, fun _ => ⟨rfl, hm⟩, nofun, nofun, .inl rfl⟩
  | noRoom howed => exact ⟨Nat.zero_le _, nofun, fun _ => ⟨rfl, howed⟩, nofun, .inr (.inl rfl)⟩
  | reducedOut => exact ⟨Nat.zero_le _, nofun, nofun, fun _ => rfl, .inr (.inr rfl)⟩
  | delim => exact ⟨by simp, nofun, nofun, fun _ => rfl, .inr (.inr rfl)⟩
  | takes _ ho _ ih =>
    refine ⟨?_, fun hst => ?_, fun hst => ?_, ih.complete, ih.status⟩
    · have := ih.consumed_le
      simp only [DecResult.after_consumed, List.length_cons]
      omega
    · obtain ⟨hc, hm⟩ := ih.more_input hst
      exact ⟨by simp [hc, Nat.add_comm], hm⟩
    · obtain ⟨hlen, howed⟩ := ih.more_output hst
      refine ⟨by simp only [DecResult.after_out, List.length_append]; omega, ?_⟩
      rwa [DecResult.after_consumed, Nat.add_comm, List.drop_succ_cons]

theorem decStep_ends (d : Dec) (inp : Window) (cap : Nat) : DecEnds inp cap (decStep d inp cap) :=
  (decStep_runs d inp cap).ends

end

/-- Settles O28, by what each status says. -/
theorem decStepStatuses : Obligations.DecStepStatuses := by
  intro s inp cap
  refine ⟨_, _, _, _, exec_of_decStep rfl, ?_⟩
  have hends := decStep_ends s.dec inp cap
  generalize decStep s.dec inp cap = r at hends ⊢
  rcases hends.status with hst | hst | hst
  · exact .inl ⟨hst, hends.more_input hst⟩
  · obtain ⟨hlen, howed⟩ := hends.more_output hst
    rw [decOwesByte, List.head?_drop] at howed
    exact .inr (.inl ⟨hst, hlen, howed⟩)
  · exact .inr (.inr ⟨hst, hends.complete hst⟩)

/-! ## Going on after a call (42_cobsr_decoder.md R172, R177, R178) -/

/-- A call that stops before the end of the frame is a front of every longer call. -/
theorem decStep_resume {d : Dec} {inp : Window} {cap : Nat} {r : DecResult} (hr : decStep d inp cap = r)
    (hst : r.status ≠ .frameComplete) (more : Window) (space : Nat) :
    decStep d (inp ++ more) (cap + space) =
      (decStep r.dec (inp.drop r.consumed ++ more) (cap - r.out.length + space)).after r.consumed r.out := by
  have hruns := hr ▸ decStep_runs d inp cap
  clear hr
  induction hruns with
  | windowUsedUp | noRoom => simp [DecResult.after]
  | reducedOut | delim => exact absurd rfl hst
  | takes ht ho _ ih =>
    rw [List.cons_append, ht.decStep_eq (by omega), Nat.sub_add_comm ho, ih hst]
    simp [DecResult.after, Nat.add_assoc, Nat.add_comm 1, Nat.sub_sub]

/-- Settles O29: the first call returned with its window used up, so the longer call goes on with the second window. -/
theorem decStepResumesInput : Obligations.DecStepResumesInput := by
  intro s t0 t1 in0 in1 cap c0 c1 o0 o1 st h0 hl0 h1 hl1
  have hcall0 := decStep_of_exec h0 hl0
  have hcall1 := decStep_of_exec h1 hl1
  obtain ⟨hused : c0 = in0.length, -⟩ := (hcall0 ▸ decStep_ends s.dec in0 cap).more_input rfl
  have hjoined := decStep_resume hcall0 (by simp) in1 0
  simp only [hused, List.drop_length, List.nil_append, Nat.add_zero, hcall1] at hjoined
  exact ⟨_, exec_of_decStep hjoined, rfl, by simp [hused]⟩

/-- Settles O30: the first call returned with its space used up, so the longer call goes on with the fresh space. -/
theorem decStepResumesOutput : Obligations.DecStepResumesOutput := by
  intro s t0 t1 inp cap0 cap1 c0 c1 o0 o1 st h0 hl0 h1 hl1
  have hcall0 := decStep_of_exec h0 hl0
  have hcall1 := decStep_of_exec h1 hl1
  obtain ⟨hused : o0.length = cap0, -⟩ := (hcall0 ▸ decStep_ends s.dec inp cap0).more_output rfl
  have hjoined := decStep_resume hcall0 (by simp) [] cap1
  simp only [hused, List.append_nil, Nat.sub_self, Nat.zero_add, hcall1] at hjoined
  exact ⟨_, exec_of_decStep hjoined, rfl, by simp⟩

/-! ## The two frames with nothing in them (42_cobsr_decoder.md R175) -/

/-- Settles O34: a reset decoder expects a code and owes no zero, and the code `0x01` opens an empty run. -/
theorem emptyFramesComplete : Obligations.EmptyFramesComplete := by
  refine ⟨rfl, fun s rest cap hs => ?_⟩
  have hreset (d : Dec) : decReset d = s.dec := hs ▸ rfl
  have hm : s.dec.mode = .plain := by rw [hs]
  have hr : s.dec.run = 0 := by rw [hs]
  have hbare : decStep s.dec (0x00#8 :: rest) cap = ⟨s.dec, 1, [], .frameComplete⟩ := by
    rw [decStep_delim hm hr, hreset]
  have hempty : decStep s.dec (0x01#8 :: 0x00#8 :: rest) cap = ⟨s.dec, 2, [], .frameComplete⟩ := by
    have htakes : DecTakes s.dec 0x01#8 [] (decTakeCode s.dec 0x01#8) :=
      .codeFirst hm hr (by decide) (by simp [zeroOwed, hs])
    rw [htakes.decStep_eq (Nat.zero_le _), decStep_delim (d := decTakeCode s.dec 0x01#8) hm rfl, hreset]
    rfl
  exact ⟨exec_of_decStep hbare, exec_of_decStep hempty⟩

/-! ## What the decoder owes -/

/-- Settles O26, the cut-off being no part of the equations. -/
theorem decBodyFollowsRule : Obligations.DecBodyFollowsRule := ⟨decBody_nil, decBody_cons⟩

/-- The meaning of a block and what follows it is what a decoder owes that has taken the block's code. -/
theorem decBody_cons_eq_afterBlock {c : Byte} (hc : c ≠ 0x00#8) (t : Window) :
    decBody (c :: t) =
      if c.toNat - 1 > t.length then t ++ [c]
      else t.take (c.toNat - 1) ++ decAfterBlock c (t.drop (c.toNat - 1)) := by
  rw [decBody_cons]
  split
  · rfl
  split
  · next hlen => simp [hlen, decAfterBlock]
  have hne : t.drop (c.toNat - 1) ≠ [] := by
    rw [ne_eq, List.drop_eq_nil_iff]
    omega
  split
  · next hfull =>
    subst hfull
    simp [decAfterBlock] at hne ⊢
    omega
  · next hfull => simp [decAfterBlock, hne, hc, hfull]

section
variable {d d' : Dec} {b : Byte} {o inp rest stream : Window} {cap : Nat} {r : DecResult}

theorem decOwes_reduced (h : d.mode = .reduced) (stream : Window) : decOwes d stream = [d.code] := if_pos h

/-- A delimiter where a code is expected: nothing is owed. -/
theorem decOwes_delim (hm : d.mode = .plain) (hr : d.run = 0) (rest : Window) :
    decOwes d (0x00#8 :: rest) = [] := by
  simp [decOwes, hm, hr, decAfterBlock]

/-- A code expected, and a code. -/
theorem decOwes_code (hm : d.mode = .plain) (hr : d.run = 0) (hb : b ≠ 0x00#8) (rest : Window) :
    decOwes d (b :: rest) = (if zeroOwed d then [0x00#8] else []) ++ decOwes (decTakeCode d b) rest := by
  have hbody : (b :: rest).takeWhile (· ≠ 0x00#8) = b :: rest.takeWhile (· ≠ 0x00#8) := by simp [hb]
  have hlater : decOwes (decTakeCode d b) rest = decBody (b :: rest.takeWhile (· ≠ 0x00#8)) := by
    rw [decBody_cons_eq_afterBlock hb]
    simp [decOwes, hm]
  rw [hlater, decOwes, hbody, hm, hr]
  by_cases hz : zeroOwed d
  · rw [if_pos hz]
    simp [decAfterBlock, hz]
  · rw [if_neg hz]
    simp [decAfterBlock, hz]

/-- Inside a run, a data byte. -/
theorem decOwes_data (hm : d.mode = .plain) (hr : 0 < d.run) (hb : b ≠ 0x00#8) (rest : Window) :
    decOwes d (b :: rest) = b :: decOwes { d with run := d.run - 1 } rest := by
  obtain ⟨n, hn⟩ := Nat.exists_eq_add_one_of_ne_zero (Nat.ne_of_gt hr)
  simp [decOwes, hm, hn, hb, apply_ite (b :: ·)]

/-- A repetition puts out the front of what was owed. -/
theorem DecTakes.owes_eq (h : DecTakes d b o d') (rest : Window) : decOwes d (b :: rest) = o ++ decOwes d' rest := by
  cases h with
  | delimInRun hm hr => simp [decOwes, hm, hr]
  | dataByte hm hr hb => exact decOwes_data hm hr hb rest
  | codeFirst hm hr hb hz => rw [decOwes_code hm hr hb, if_neg hz]
  | codeAfterZero hm hr hb hz => rw [decOwes_code hm hr hb, if_pos hz]

/-- A reset decoder owes the meaning of the body before the first delimiter. -/
theorem decOwes_atReset (stream : Window) :
    decOwes ⟨0x00#8, 0, .plain⟩ stream = decBody (stream.takeWhile (· ≠ 0x00#8)) := by
  simp only [decOwes, decAfterBlock]
  by_cases hbody : stream.takeWhile (· ≠ 0x00#8) = []
  · rw [hbody]
    rfl
  · simp at hbody
    simp [hbody]

/-- With the input used up at most one byte is owed, the last of a run cut short. -/
theorem length_decOwes_nil_le (d : Dec) : (decOwes d []).length ≤ 1 := by
  cases hm : d.mode with
  | reduced => simp [decOwes_reduced hm]
  | plain =>
    rcases Nat.eq_zero_or_pos d.run with hr | hr <;> simp [decOwes, decAfterBlock, hm, hr]

theorem decOwes_ne_nil (h : decOwesByte d stream) : decOwes d stream ≠ [] := by
  rcases h with hm | ⟨hm, b, hb, hne, howed⟩
  · simp [decOwes_reduced hm]
  obtain ⟨rest, rfl⟩ := List.head?_eq_some_iff.1 hb
  rcases Nat.eq_zero_or_pos d.run with hr | hr
  · simp [decOwes_code hm hr hne, howed.resolve_left (by omega)]
  · simp [decOwes_data hm hr hne]

/-- How many bytes of the stream the decoder has still to take to the end of the frame, the delimiter counted: none in
mode `REDUCED`, in which it has been taken (42_cobsr_decoder.md R167). -/
def decAwaits (d : Dec) (stream : Window) : Nat :=
  if d.mode = .reduced then 0 else (stream.takeWhile (· ≠ 0x00#8)).length + 1

theorem decAwaits_plain (h : d.mode = .plain) (stream : Window) :
    decAwaits d stream = (stream.takeWhile (· ≠ 0x00#8)).length + 1 := by
  simp [decAwaits, h]

theorem DecTakes.awaits_eq (h : DecTakes d b o d') (rest : Window) :
    decAwaits d (b :: rest) = 1 + decAwaits d' rest := by
  cases h with
  | delimInRun hm => simp [decAwaits, hm]
  | dataByte hm _ hb | codeFirst hm _ hb | codeAfterZero hm _ hb => simp [decAwaits, hm, hb]; omega

/-! ## What a call pays -/

/-- What a call comes to: it has put out the front of what was owed and taken the front of what was awaited, and the
registers it leaves owe and await the rest, `y` being the stream after the window. -/
structure DecPays (d : Dec) (inp y : Window) (r : DecResult) : Prop where
  paid : decOwes d (inp ++ y) =
    r.out ++ (if r.status = .frameComplete then [] else decOwes r.dec (inp.drop r.consumed ++ y))
  awaited : decAwaits d (inp ++ y) =
    r.consumed + (if r.status = .frameComplete then 0 else decAwaits r.dec (inp.drop r.consumed ++ y))

theorem DecRuns.pays (h : DecRuns d inp cap r) (y : Window) : DecPays d inp y r := by
  induction h with
  | windowUsedUp | noRoom => exact ⟨by simp, by simp⟩
  | reducedOut hm => exact ⟨by simp [decOwes_reduced hm], by simp [decAwaits, hm]⟩
  | delim hm hr => exact ⟨by simp [decOwes_delim hm hr], by simp [decAwaits, hm]⟩
  | takes ht _ _ ih =>
    refine ⟨?_, ?_⟩
    · simp [ht.owes_eq, ih.paid, Nat.add_comm 1]
    · simp [ht.awaits_eq, ih.awaited, Nat.add_comm 1, Nat.add_assoc]

/-- One call of `DEC.STEP` puts out the front of what the decoder owed, and leaves the rest owed. -/
theorem decStep_pays (d : Dec) (inp y : Window) (cap : Nat) : DecPays d inp y (decStep d inp cap) :=
  (decStep_runs d inp cap).pays y

end

/-- Settles O27: what a call pays, and that it keeps the invariant. -/
theorem decStepPaysWhatIsOwed : Obligations.DecStepPaysWhatIsOwed := fun s inp y cap h =>
  ⟨_, _, _, _, exec_of_decStep rfl, decStep_keeps_inv h inp cap, (decStep_ends s.dec inp cap).consumed_le,
    decStep_out_le s.dec inp cap, (decStep_pays s.dec inp y cap).paid⟩

/-! ## Sequences of calls (42_cobsr_decoder.md R174) -/

/-- What a sequence of calls comes to, by the result of its first call. -/
theorem decodeCalls_cons {s t : State} {stream out : Window} {n cap k : Nat} {calls : List (Nat × Nat)} {r : DecResult}
    (hr : decStep s.dec (stream.take n) cap = r)
    (h : decodeCalls s stream ((n, cap) :: calls) = some (out, k, t)) :
    (r.status = .frameComplete ∧ out = r.out ∧ k = r.consumed ∧
      t = { s with dec := r.dec }.reply (.step r.consumed r.out r.status)) ∨
    (r.status ≠ .frameComplete ∧ ∃ os ks, out = r.out ++ os ∧ k = r.consumed + ks ∧
      decodeCalls ({ s with dec := r.dec }.reply (.step r.consumed r.out r.status)) (stream.drop r.consumed) calls =
        some (os, ks, t)) := by
  rw [decodeCalls, exec_of_decStep hr] at h
  simp only [lastStep_reply_step] at h
  split at h
  · next hst =>
    cases h
    exact .inl ⟨hst, rfl, rfl, rfl⟩
  · next hst =>
    obtain ⟨⟨os, ks, u⟩, hrest, heq⟩ := Option.map_eq_some_iff.1 h
    cases heq
    exact .inr ⟨hst, os, ks, rfl, rfl, hrest⟩

/-- The calls put out what was owed at their start and take what was awaited. -/
theorem decodeCalls_pay {s t : State} {stream out : Window} {k : Nat} {calls : List (Nat × Nat)}
    (hcalls : decodeCalls s stream calls = some (out, k, t)) :
    out = decOwes s.dec stream ∧ k = decAwaits s.dec stream ∧ t.dec = ⟨0x00#8, 0, .plain⟩ ∧
      t = { s with dec := t.dec, trace := t.trace } := by
  induction calls generalizing s stream out k with
  | nil => cases hcalls
  | cons call calls ih =>
    obtain ⟨n, cap⟩ := call
    have hends := decStep_ends s.dec (stream.take n) cap
    have hpays := decStep_pays s.dec (stream.take n) (stream.drop n) cap
    generalize hr : decStep s.dec (stream.take n) cap = r at hends hpays
    obtain ⟨hpaid, hawaited⟩ := hpays
    rw [List.take_append_drop, drop_take_append_drop hends.consumed_le] at hpaid hawaited
    rcases decodeCalls_cons hr hcalls with ⟨hst, rfl, rfl, rfl⟩ | ⟨hst, os, ks, rfl, rfl, hrest⟩
    · exact ⟨by simpa [hst] using hpaid.symm, by simpa [hst] using hawaited.symm, hends.complete hst, rfl⟩
    · obtain ⟨hos, hks, hreset, hframe⟩ := ih hrest
      rw [if_neg hst] at hpaid hawaited
      exact ⟨by rw [hpaid, hos]; rfl, by rw [hawaited, hks]; rfl, hreset, hframe⟩

/-- The body before the first delimiter of a stream. -/
theorem takeWhile_append_delim {m : Window} (h : zeroFree m) (y : Window) :
    (m ++ delim :: y).takeWhile (· ≠ 0x00#8) = m := by
  rw [List.takeWhile_append_of_pos (by simpa using h)]
  simp

/-- Settles O31: a reset decoder owes the meaning of the body, and awaits the body and its delimiter. -/
theorem decodeCallsGiveMessage : Obligations.DecodeCallsGiveMessage := by
  intro s t m y out k calls hs hm hcalls
  obtain ⟨hout, hk, hrest⟩ := decodeCalls_pay hcalls
  rw [hs, decOwes_atReset, takeWhile_append_delim hm] at hout
  rw [hs, decAwaits_plain rfl, takeWhile_append_delim hm] at hk
  exact ⟨hout, hk, hrest⟩

/-! ## A whole frame in one call (42_cobsr_decoder.md R179) -/

/-- The outcomes of `DEC.ONESHOT`: what the buffer is, the bytes returned and the status. -/
inductive DecOneshotGives (inp : Window) (cap : Nat) : Window → Status → Prop where
  | ok {m : Window} (hinp : inp = m ++ [delim]) (hm : zeroFree m) : DecOneshotGives inp cap (decBody m) .ok
  | truncated {out owed : Window} (hinp : zeroFree inp) (hout : decBody inp = out ++ owed) (howed : owed.length ≤ 1) :
    DecOneshotGives inp cap out .errTruncated
  | strayZero {m y : Window} (hinp : inp = m ++ delim :: y) (hm : zeroFree m) (hy : y ≠ []) :
    DecOneshotGives inp cap (decBody m) .errStrayZero
  | overflow {out owed : Window} (hout : decBody (inp.takeWhile (· ≠ 0x00#8)) = out ++ owed) (hlen : out.length = cap)
    (howed : owed ≠ []) : DecOneshotGives inp cap out .errOutOverflow

/-- Two kinds of buffer: one with no delimiter, and one with a body, its delimiter and whatever follows. -/
theorem zeroFree_or_delim (inp : Window) : zeroFree inp ∨ ∃ m y, inp = m ++ delim :: y ∧ zeroFree m := by
  induction inp with
  | nil => exact .inl (by simp [zeroFree])
  | cons b rest ih =>
    by_cases hb : b = 0x00#8
    · exact .inr ⟨[], rest, by rw [hb]; rfl, by simp [zeroFree]⟩
    · rcases ih with hfree | ⟨m, y, rfl, hm⟩
      · exact .inl (by simpa [zeroFree, hb] using hfree)
      · exact .inr ⟨b :: m, y, rfl, by simpa [zeroFree, hb] using hm⟩

theorem takeWhile_of_zeroFree {inp : Window} (h : zeroFree inp) : inp.takeWhile (· ≠ 0x00#8) = inp :=
  List.takeWhile_eq_self_iff.2 (by simpa using h)

/-- One call on the whole buffer from a reset decoder, with the status that `DEC.ONESHOT` makes of it. -/
theorem decStep_atReset_gives {inp : Window} {cap : Nat} {r : DecResult}
    (hr : decStep ⟨0x00#8, 0, .plain⟩ inp cap = r) :
    DecOneshotGives inp cap r.out (decOneshotStatus r.status r.consumed inp.length) := by
  have hends := hr ▸ decStep_ends ⟨0x00#8, 0, .plain⟩ inp cap
  obtain ⟨hpaid, hawaited⟩ := hr ▸ decStep_pays ⟨0x00#8, 0, .plain⟩ inp [] cap
  simp only [List.append_nil] at hpaid hawaited
  rw [decOwes_atReset] at hpaid
  rw [decAwaits_plain rfl] at hawaited
  have hle := hends.consumed_le
  rcases hends.status with hst | hst | hst <;> rw [hst] at hpaid hawaited ⊢
  · obtain ⟨hused, hm⟩ := hends.more_input hst
    simp only [reduceCtorEq, if_false, hused, List.drop_length] at hpaid hawaited
    rcases zeroFree_or_delim inp with hfree | ⟨m, y, rfl, hfree⟩
    · rw [takeWhile_of_zeroFree hfree] at hpaid
      exact .truncated hfree hpaid (length_decOwes_nil_le _)
    · simp only [takeWhile_append_delim hfree, decAwaits_plain hm, List.length_append, List.length_cons] at hawaited
      omega
  · obtain ⟨hlen, howed⟩ := hends.more_output hst
    exact .overflow hpaid hlen (decOwes_ne_nil howed)
  · simp only [if_true, List.append_nil, Nat.add_zero] at hpaid hawaited
    rcases zeroFree_or_delim inp with hfree | ⟨m, y, rfl, hfree⟩
    · rw [takeWhile_of_zeroFree hfree] at hawaited
      omega
    · rw [takeWhile_append_delim hfree] at hpaid hawaited
      rw [← hpaid, ← hawaited]
      cases y with
      | nil => simpa [decOneshotStatus] using .ok rfl hfree
      | cons b y => simpa [decOneshotStatus] using .strayZero rfl hfree (List.cons_ne_nil b y)

theorem exec_decOneshot {s : State} {inp : Window} {cap : Nat} {r : DecResult}
    (h : decStep ⟨0x00#8, 0, .plain⟩ inp cap = r) :
    exec (.decOneshot inp cap) s = .next ({ s with dec := ⟨0x00#8, 0, .plain⟩ }.reply
      (.out r.out (decOneshotStatus r.status r.consumed inp.length))) :=
  h ▸ rfl

/-- A body with its delimiter whose meaning fits has one outcome. -/
theorem DecOneshotGives.of_fits {m out : Window} {cap : Nat} {st : Status}
    (h : DecOneshotGives (m ++ [delim]) cap out st) (hm : zeroFree m) (hcap : (decBody m).length ≤ cap) :
    st = .ok ∧ out = decBody m := by
  generalize hinp : m ++ [delim] = inp at h
  cases h with
  | ok hok =>
    obtain rfl := List.append_cancel_right (hinp.trans hok)
    exact ⟨rfl, rfl⟩
  | truncated hfree => exact absurd rfl (hfree 0x00#8 (by simp [← hinp]))
  | strayZero hstray hm' hy =>
    have hbodies := congrArg (List.takeWhile (· ≠ 0x00#8)) (hinp.trans hstray)
    rw [takeWhile_append_delim hm, takeWhile_append_delim hm'] at hbodies
    subst hbodies
    exact absurd (by simpa using (hinp.trans hstray).symm) hy
  | overflow hout hlen howed =>
    rw [← hinp, takeWhile_append_delim hm] at hout
    have := List.length_pos_of_ne_nil howed
    simp [hout] at hcap
    omega

/-- Settles O32, by the outcomes of the one call. -/
theorem decOneshotOutcomes : Obligations.DecOneshotOutcomes := by
  intro s inp cap
  have hgives := decStep_atReset_gives (inp := inp) (cap := cap) rfl
  refine ⟨_, _, exec_decOneshot rfl, decStep_out_le _ _ _, ?_⟩
  generalize (decStep _ inp cap).out = out, decOneshotStatus _ _ _ = st at hgives ⊢
  refine ⟨?_, fun m hinp hm hcap => (hinp ▸ hgives).of_fits hm hcap, ?_⟩
  · cases hgives <;> simp
  cases hgives with
  | ok hinp hm => exact ⟨fun _ => ⟨_, hinp, hm, rfl⟩, nofun, nofun, nofun⟩
  | truncated hfree hout howed =>
    exact ⟨nofun, fun _ => ⟨hfree, ⟨_, hout.symm⟩, by simp [hout]; omega⟩, nofun, nofun⟩
  | strayZero hinp hm hy => exact ⟨nofun, nofun, fun _ => ⟨_, _, hinp, hm, hy, rfl⟩, nofun⟩
  | overflow hout hlen howed =>
    have := List.length_pos_of_ne_nil howed
    exact ⟨nofun, nofun, nofun, fun _ => ⟨by rw [hout, List.length_append]; omega, by rw [hout, ← hlen]; simp⟩⟩

/-- Settles O33: the frame is a zero-free body with its delimiter, and its meaning is the message. -/
theorem oneshotRoundTrip : Obligations.OneshotRoundTrip := by
  intro s x cap cap' h hcap hcap'
  obtain ⟨hframe, hcomplete⟩ := encStep_gives_frame h hcap
  have hmeaning : decBody (encBody x) = x := decBody_encRun (Nat.zero_le _)
  have hfree : zeroFree (encBody x) := zeroFree_encRun (by simp [zeroFree]) (Nat.zero_le _)
  obtain ⟨hst, hout⟩ := (decStep_atReset_gives rfl).of_fits hfree (hmeaning.symm ▸ hcap')
  refine ⟨_, _, frameOf x, exec_encOneshot rfl, by simp [hframe, hcomplete, encOneshotStatus], exec_decOneshot rfl, ?_⟩
  rw [hmeaning] at hout
  rw [reply_trace, frameOf, hst, hout]

end Sys2Proof.Machine

/-! SUPPORT. What a ring holds, byte by byte, and what releasing and publishing bytes makes of it
(43_transport_adapter.md section 1). -/

namespace Sys2Proof.Machine

open Sys2Proof

/-! ## Cursors and counts -/

section
variable {cap rd wr : Nat}

/-- Advancing a cursor by at most the whole ring wraps at most once. -/
theorem advance_eq_wrap {p n : Nat} (hp : p < cap) (hn : n ≤ cap) :
    advance cap p n = if p + n < cap then p + n else p + n - cap := by
  unfold advance
  split
  · exact Nat.mod_eq_of_lt ‹_›
  · rw [Nat.mod_eq_sub_mod (by omega), Nat.mod_eq_of_lt (by omega)]

/-- The distance from one slot to another, going up and around. -/
theorem distance_eq {a b : Nat} (ha : a < cap) (hb : b < cap) :
    (b + cap - a) % cap = if a ≤ b then b - a else b + cap - a := by
  split
  · rw [show b + cap - a = (b - a) + cap by omega, Nat.add_mod_right, Nat.mod_eq_of_lt (by omega)]
  · exact Nat.mod_eq_of_lt (by omega)

theorem occupied_eq (hr : rd < cap) (hw : wr < cap) :
    occupied cap rd wr = if rd ≤ wr then wr - rd else wr + cap - rd := distance_eq hr hw

theorem occupied_lt (hr : rd < cap) (wr : Nat) : occupied cap rd wr < cap := Nat.mod_lt _ (by omega)

/-- The first occupied window is the occupied region, cut at the end of storage. -/
theorem occLen_eq_min (hr : rd < cap) (hw : wr < cap) : occLen cap rd wr = min (occupied cap rd wr) (cap - rd) := by
  rw [occupied_eq hr hw]
  unfold occLen
  split_ifs <;> omega

/-- The second is what the cut leaves. -/
theorem occLen2_eq_sub (hr : rd < cap) (hw : wr < cap) : occLen2 rd wr = occupied cap rd wr - (cap - rd) := by
  rw [occupied_eq hr hw]
  unfold occLen2
  split_ifs <;> omega

/-- The first free window is the free region, cut at the end of storage. -/
theorem freeLen_eq_min (hr : rd < cap) (hw : wr < cap) : freeLen cap wr rd = min (freeSlots cap rd wr) (cap - wr) := by
  rw [freeSlots, occupied_eq hr hw]
  unfold freeLen
  split_ifs <;> omega

/-- The second is what the cut leaves. -/
theorem freeLen2_eq_sub (hr : rd < cap) (hw : wr < cap) : freeLen2 wr rd = freeSlots cap rd wr - (cap - wr) := by
  rw [freeSlots, occupied_eq hr hw]
  unfold freeLen2
  split_ifs <;> omega

/-- Empty is `rd = wr` (10_state.md R21). -/
theorem occupied_eq_zero_iff (hr : rd < cap) (hw : wr < cap) : occupied cap rd wr = 0 ↔ rd = wr := by
  rw [occupied_eq hr hw]
  split_ifs <;> omega

/-- Full is `(wr + 1) mod CAP = rd` (10_state.md R21). -/
theorem freeSlots_eq_zero_iff (hr : rd < cap) (hw : wr < cap) :
    freeSlots cap rd wr = 0 ↔ ringFull cap rd wr := by
  have hnext : (wr + 1) % cap = _ := advance_eq_wrap (n := 1) hw (by omega)
  rw [ringFull, hnext, freeSlots, occupied_eq hr hw]
  split_ifs <;> omega

theorem occLen_eq_zero_iff (hr : rd < cap) (hw : wr < cap) : occLen cap rd wr = 0 ↔ rd = wr := by
  rw [occLen_eq_min hr hw, ← occupied_eq_zero_iff hr hw]
  omega

theorem freeLen_eq_zero_iff (hr : rd < cap) (hw : wr < cap) :
    freeLen cap wr rd = 0 ↔ ringFull cap rd wr := by
  rw [freeLen_eq_min hr hw, ← freeSlots_eq_zero_iff hr hw]
  omega

/-- Releasing bytes takes them off the occupied count. -/
theorem occupied_release (hr : rd < cap) (hw : wr < cap) {n : Nat} (hn : n ≤ occupied cap rd wr) :
    occupied cap (advance cap rd n) wr = occupied cap rd wr - n := by
  have hlt := occupied_lt hr wr
  rw [occupied_eq (advance_lt (by omega)) hw, advance_eq_wrap hr (by omega)]
  rw [occupied_eq hr hw] at hn ⊢
  split_ifs at * <;> omega

/-- Publishing bytes adds them to the occupied count. -/
theorem occupied_publish (hr : rd < cap) (hw : wr < cap) {n : Nat} (hn : n ≤ freeSlots cap rd wr) :
    occupied cap rd (advance cap wr n) = occupied cap rd wr + n := by
  unfold freeSlots at hn
  rw [occupied_eq hr (advance_lt (by omega)), advance_eq_wrap hw (by omega)]
  rw [occupied_eq hr hw] at hn ⊢
  split_ifs at * <;> omega

end

/-- The slots of a region of `n` slots that starts at `base`, cut at the end of storage: those whose distance from
`base` is below `n`. -/
theorem mem_windows_iff {cap base n : Nat} (hb : base < cap) (hn : n ≤ cap) (a : Nat) :
    (base ≤ a ∧ a < base + min n (cap - base)) ∨ a < n - (cap - base) ↔ a < cap ∧ (a + cap - base) % cap < n := by
  by_cases ha : a < cap
  · rw [distance_eq hb ha]
    split_ifs <;> omega
  · omega

/-- Settles O37: the windows of a region are that region, cut at the end of storage. -/
theorem twoWindowsCoverRegions : Obligations.TwoWindowsCoverRegions := by
  intro cap rd wr _ hr hw
  have hocc := occupied_lt hr wr
  have hfree : freeSlots cap rd wr ≤ cap := by unfold freeSlots; omega
  have hbehind : wr < rd → 1 ≤ occLen cap rd wr := fun hlt => by
    rw [Nat.one_le_iff_ne_zero, ne_eq, occLen_eq_zero_iff hr hw]
    omega
  refine ⟨?_, ?_, ?_, ?_, ?_, ?_, occLen_bound hr hw, freeLen_bound hr hw, hbehind, occupied_eq_zero_iff hr hw,
    freeSlots_eq_zero_iff hr hw⟩ <;>
    simp only [occLen_eq_min hr hw, occLen2_eq_sub hr hw, freeLen_eq_min hr hw, freeLen2_eq_sub hr hw]
  · exact mem_windows_iff hr hocc.le
  · exact mem_windows_iff hw hfree
  all_goals omega

/-! ## The bytes of a ring -/

/-- Releasing the oldest `n` bytes: only `rd` moves (43_transport_adapter.md R213, R226). -/
abbrev Ring.release (cap : Nat) (r : Ring) (n : Nat) : Ring := { r with rd := advance cap r.rd n }

/-- Storing a run of bytes from `wr` on and publishing it (43_transport_adapter.md R216, R223). -/
abbrev Ring.publish (cap : Nat) (r : Ring) (vs : Window) : Ring :=
  ⟨r.storage.writeRun r.wr vs, r.rd, advance cap r.wr vs.length⟩

section
variable {cap : Nat} {r : Ring}

/-- The bytes of the occupied region lie in the slots that follow `rd`, modulo `CAP`. -/
theorem pending_getElem? (h : RingInv cap r) (i : Nat) :
    (pending cap r)[i]? =
      if i < occupied cap r.rd r.wr then some (r.storage.read (advance cap r.rd i)) else none := by
  have hr := h.rd_lt
  have hlt := occupied_lt hr r.wr
  rw [pending, List.getElem?_append, slotBytes_length, slotBytes_getElem?, slotBytes_getElem?,
    occLen_eq_min hr h.wr_lt, occLen2_eq_sub hr h.wr_lt]
  by_cases hi : i < occupied cap r.rd r.wr
  · rw [if_pos hi, advance_eq_wrap hr (by omega)]
    by_cases hfirst : i < cap - r.rd
    · rw [if_pos (by omega), if_pos (by omega), if_pos (by omega)]
    · rw [if_neg (by omega), if_pos (by omega), if_neg (by omega)]
      congr 2
      omega
  · rw [if_neg hi, if_neg (by omega), if_neg (by omega)]

theorem length_pending (h : RingInv cap r) : (pending cap r).length = occupied cap r.rd r.wr := by
  rw [pending, List.length_append, slotBytes_length, slotBytes_length, occLen_eq_min h.rd_lt h.wr_lt,
    occLen2_eq_sub h.rd_lt h.wr_lt]
  omega

/-- The first slots of the first window hold the oldest bytes. -/
theorem slotBytes_eq_take {n : Nat} (hn : n ≤ occLen cap r.rd r.wr) :
    slotBytes r.storage r.rd n = (pending cap r).take n := by
  obtain ⟨k, hk⟩ := Nat.exists_eq_add_of_le hn
  rw [pending, hk, slotBytes_add, List.append_assoc, List.take_left' (slotBytes_length _ _ _)]

/-- What is unread after the oldest `n` bytes are released. -/
theorem pending_release (h : RingInv cap r) {n : Nat} (hn : n ≤ occupied cap r.rd r.wr) :
    pending cap (r.release cap n) = (pending cap r).drop n := by
  ext1 i
  have hslot : advance cap (advance cap r.rd n) i = advance cap r.rd (n + i) := by
    simp [advance, Nat.add_assoc]
  rw [List.getElem?_drop, pending_getElem? h, pending_getElem? (h.release n),
    occupied_release h.rd_lt h.wr_lt hn, hslot]
  simp only [Nat.lt_sub_iff_add_lt']

/-- A slot that is not among the run's, counted from `wr`, keeps its byte. -/
theorem read_publish_of_le (h : RingInv cap r) {vs : Window} {j : Nat} (hj : vs.length ≤ j) (hcap : j < cap) :
    (r.publish cap vs).storage.read (advance cap r.wr j) = r.storage.read (advance cap r.wr j) := by
  have hw := h.wr_lt
  rw [Memory.read_writeRun h.storage_wf, if_neg]
  rw [advance_eq_wrap hw hcap.le]
  split_ifs <;> omega

/-- The slots of the occupied region are none that a run published in the free region takes. -/
theorem advance_rd_not_free (h : RingInv cap r) {i n : Nat} (hi : i < occupied cap r.rd r.wr)
    (hn : n ≤ freeSlots cap r.rd r.wr) : ¬ (r.wr ≤ advance cap r.rd i ∧ advance cap r.rd i < r.wr + n) := by
  have hr := h.rd_lt
  have hw := h.wr_lt
  have hlt := occupied_lt hr r.wr
  unfold freeSlots at hn
  rw [advance_eq_wrap hr (by omega)]
  rw [occupied_eq hr hw] at hi hn
  split_ifs at * <;> omega

/-- The free region starts where the occupied one ends. -/
theorem advance_rd_free (h : RingInv cap r) {k : Nat} (hk : r.wr + k < cap) (hfree : k < freeSlots cap r.rd r.wr) :
    advance cap r.rd (occupied cap r.rd r.wr + k) = r.wr + k := by
  have hr := h.rd_lt
  have hw := h.wr_lt
  unfold freeSlots at hfree
  rw [advance_eq_wrap hr (by omega)]
  rw [occupied_eq hr hw] at hfree ⊢
  split_ifs at * <;> omega

/-- What is unread after a run of bytes is published. -/
theorem pending_publish (h : RingInv cap r) {vs : Window} (hend : r.wr + vs.length ≤ cap)
    (hfree : vs.length ≤ freeSlots cap r.rd r.wr) : pending cap (r.publish cap vs) = pending cap r ++ vs := by
  ext1 i
  rw [List.getElem?_append, length_pending h, pending_getElem? h, pending_getElem? (h.publish hend),
    occupied_publish h.rd_lt h.wr_lt hfree, Memory.read_writeRun h.storage_wf]
  by_cases hold : i < occupied cap r.rd r.wr
  · rw [if_pos hold, if_pos (by omega), if_pos hold, if_neg (advance_rd_not_free h hold hfree)]
  obtain ⟨k, rfl⟩ := Nat.exists_eq_add_of_le (Nat.le_of_not_lt hold)
  rw [if_neg hold, Nat.add_sub_cancel_left]
  by_cases hnew : k < vs.length
  · rw [if_pos (by omega), advance_rd_free h (by omega) (by omega), if_pos (by omega), Nat.add_sub_cancel_left,
      List.getElem?_eq_getElem hnew, List.getD_eq_getElem _ _ hnew]
  · rw [if_neg (by omega), List.getElem?_eq_none (by omega)]

end

end Sys2Proof.Machine

/-! SUPPORT. The ring primitives of `HOST` and the engines as equations, in states whose rings are in order
(43_transport_adapter.md sections 2 and 3). -/

namespace Sys2Proof.Machine

open Sys2Proof

/-! ## What fits a window -/

theorem le_occupied_of_le_occLen {cap : Nat} {r : Ring} (h : RingInv cap r) {n : Nat} (hn : n ≤ occLen cap r.rd r.wr) :
    n ≤ occupied cap r.rd r.wr := by
  rw [occLen_eq_min h.rd_lt h.wr_lt] at hn
  omega

theorem le_freeSlots_of_le_freeLen {cap : Nat} {r : Ring} (h : RingInv cap r) {n : Nat}
    (hn : n ≤ freeLen cap r.wr r.rd) : n ≤ freeSlots cap r.rd r.wr ∧ r.wr + n ≤ cap := by
  have := h.wr_lt
  rw [freeLen_eq_min h.rd_lt h.wr_lt] at hn
  omega

/-- What is unread after some of the first window is released. -/
theorem pending_release_window {cap : Nat} {r : Ring} (h : RingInv cap r) {n : Nat} (hn : n ≤ occLen cap r.rd r.wr) :
    pending cap (r.release cap n) = (pending cap r).drop n :=
  pending_release h (le_occupied_of_le_occLen h hn)

/-- What is unread after a run that fits the first free window is published. -/
theorem pending_publish_window {cap : Nat} {r : Ring} (h : RingInv cap r) {vs : Window}
    (hn : vs.length ≤ freeLen cap r.wr r.rd) : pending cap (r.publish cap vs) = pending cap r ++ vs := by
  obtain ⟨hfree, hend⟩ := le_freeSlots_of_le_freeLen h hn
  exact pending_publish h hend hfree

/-! ## The receive ring -/

section
variable {s : State}

/-- `RXR.WINDOW` on a ring that has not overrun: the oldest unread bytes. -/
theorem rxrWindow_eq (h : RingsInv s) (ho : s.rxrOvr = false) :
    rxrWindow s = .ok (⟨s.rxr.rd, occLen s.params.rxCap s.rxr.rd s.rxr.wr,
      (rxPending s).take (occLen s.params.rxCap s.rxr.rd s.rxr.wr), false⟩, s) := by
  obtain ⟨w, t, hw, -⟩ := rxrWindow_ok h
  rcases rxrWindow_cases hw with ⟨htrue, -, -⟩ | ⟨-, rfl, -, rfl⟩
  · simp [ho] at htrue
  · rw [hw, rxPending, slotBytes_eq_take le_rfl]

/-- `RXENG.PUT` on a ring with a free slot. -/
theorem rxengPut_of_free (h : RingsInv s) (v : Byte) (ho : s.rxrOvr = false)
    (hfree : ¬ ringFull s.params.rxCap s.rxr.rd s.rxr.wr) :
    rxengPut v s = .ok { s with rxr := s.rxr.publish s.params.rxCap [v] } := by
  obtain ⟨t, ht, -⟩ := rxengPut_ok h v
  rcases rxengPut_cases ht with ⟨htrue, -⟩ | ⟨-, hfull, -⟩ | ⟨-, -, -, rfl⟩
  · simp [ho] at htrue
  · exact absurd hfull hfree
  · exact ht

/-- `RXENG.PUT` on a full ring, and while the flag is set. -/
theorem rxengPut_of_full (v : Byte) (hfull : s.rxrOvr = true ∨ ringFull s.params.rxCap s.rxr.rd s.rxr.wr) :
    rxengPut v s = .ok (rxrUnspecified { s with rxrOvr := true }) := by
  unfold rxengPut
  split
  · next ho => rw [← ho]
  · next ho => rw [if_pos (hfull.resolve_left ho)]

theorem pending_put {cap : Nat} {r : Ring} (h : RingInv cap r) (hfree : ¬ ringFull cap r.rd r.wr) (v : Byte) :
    pending cap (r.publish cap [v]) = pending cap r ++ [v] := by
  refine pending_publish_window h ?_
  rw [List.length_singleton, Nat.one_le_iff_ne_zero, ne_eq, freeLen_eq_zero_iff h.rd_lt h.wr_lt]
  exact hfree

theorem exec_rxrCommit_of_le {n : Nat} (hn : n ≤ occLen s.params.rxCap s.rxr.rd s.rxr.wr) :
    exec (.rxrCommit n) s = .next ({ s with rxr := s.rxr.release s.params.rxCap n }.reply (.status .ok)) := by
  rcases rxrCommit_cases n s with ⟨hlong, -⟩ | ⟨-, he⟩
  · omega
  · exact congrArg (fun p => done (.status p.1) p.2) he

theorem exec_rxrCommit_of_lt {n : Nat} (hn : occLen s.params.rxCap s.rxr.rd s.rxr.wr < n) :
    exec (.rxrCommit n) s = .next (s.reply (.status .errRange)) := by
  rcases rxrCommit_cases n s with ⟨-, he⟩ | ⟨hshort, -⟩
  · exact congrArg (fun p => done (.status p.1) p.2) he
  · omega

/-! ## The transmit ring -/

/-- `TXR.COMMIT` of bytes that fit the first free window. -/
theorem txrCommit_of_fits (h : RingsInv s) {inp : Window} (hfits : inp.length ≤ txrWindowLen s) :
    txrCommit inp s = .ok (.ok, { s with txr := s.txr.publish s.params.txCap inp }) := by
  obtain ⟨st, t, ht, -⟩ := txrCommit_ok h inp
  rcases txrCommit_cases ht with ⟨hlong, -, -⟩ | ⟨-, -, rfl, rfl⟩
  · omega
  · exact ht

/-- `TXR.COMMIT` of more bytes than that. -/
theorem txrCommit_of_long {inp : Window} (hlong : txrWindowLen s < inp.length) :
    txrCommit inp s = .ok (.errRange, s) := if_pos hlong

/-- An enabled `TXENG.TAKE`: the oldest committed bytes go to the wire. -/
theorem txengTake_of_enabled (h : RingsInv s) {k : Nat} (hk : takeEnabled k s) :
    txengTake k s = .ok { s with
      wireTx := s.wireTx ++ (txPending s).take k
      txr := s.txr.release s.params.txCap k
      trace := s.trace ++ [.txComplete] } := by
  obtain ⟨t, ht, -⟩ := txengTake_ok h k
  rcases txengTake_cases ht with ⟨hnot, -⟩ | ⟨-, -, rfl⟩
  · exact absurd hk hnot
  · rw [ht, txPending, slotBytes_eq_take hk.2]

theorem takeEnabled_iff_busy (h : RingsInv s) : (∃ k, takeEnabled k s) ↔ s.txr.rd ≠ s.txr.wr := by
  rw [ne_eq, ← occLen_eq_zero_iff h.txr.rd_lt h.txr.wr_lt]
  constructor
  · rintro ⟨k, hpos, hle⟩
    omega
  · intro hpos
    exact ⟨1, le_rfl, Nat.one_le_iff_ne_zero.2 hpos⟩

/-! ## The engines' turns -/

theorem step_of_rxengPut {t : State} {v : Byte} {rest : List Turn} (hp : s.params.valid)
    (hs : s.sched = .rxeng v :: rest) (h : rxengPut v { s with sched := rest } = .ok t) : step s = .next t := by
  rw [step, if_pos hp, hs]
  exact engineTurn_next h

theorem step_of_txengTake {t : State} {k : Nat} {rest : List Turn} (hp : s.params.valid)
    (hs : s.sched = .txeng k :: rest) (h : txengTake k { s with sched := rest } = .ok t) : step s = .next t := by
  rw [step, if_pos hp, hs]
  exact engineTurn_next h

end

/-! ## The obligations -/

/-- Settles O35: the operation by its definition, and cursors that agree hold nothing. -/
theorem rxrResetEmpties : Obligations.RxrResetEmpties := fun _ => ⟨rfl, pending_eq_nil rfl⟩

/-- Settles O45: the operation by its definition, and cursors that agree hold nothing. -/
theorem txrResetEmpties : Obligations.TxrResetEmpties := fun _ => ⟨rfl, pending_eq_nil rfl⟩

/-- Settles O38: the window's bytes are the front of the unread ones. -/
theorem rxrWindowShowsPending : Obligations.RxrWindowShowsPending := by
  intro s hs ho
  have htake := slotBytes_eq_take (r := s.rxr) (cap := s.params.rxCap) le_rfl
  refine ⟨occLen s.params.rxCap s.rxr.rd s.rxr.wr, _, ?_, rfl, slotBytes_length s.rxr.storage s.rxr.rd _,
    fun j hj => ?_, htake ▸ List.take_prefix _ _, occLen_bound hs.rxr.rd_lt hs.rxr.wr_lt,
    occLen_eq_zero_iff hs.rxr.rd_lt hs.rxr.wr_lt⟩
  · show execRxrWindow s = _
    rw [execRxrWindow, rxrWindow_eq hs.rings ho, htake]
    rfl
  · rw [slotBytes_getElem?, if_pos hj]

/-- Settles O39, by the definition of the window while the flag is set. -/
theorem rxrWindowReportsOverrun : Obligations.RxrWindowReportsOverrun := by
  intro s ho
  refine ⟨Config.freeRxBase s.tick, Config.freeRxLen s.tick, Config.freeRxBytes s.tick, ?_⟩
  show execRxrWindow s = _
  rw [execRxrWindow, rxrWindow, if_pos ho]
  rfl

/-- Settles O40: the two answers of the primitive, and what is unread after a release. -/
theorem rxrCommitReleases : Obligations.RxrCommitReleases := by
  refine ⟨fun s n hs _ => ?_, fun s n hs _ => ⟨fun hn => ?_, fun hn => exec_rxrCommit_of_lt hn⟩⟩
  · rcases Nat.lt_or_ge (occLen s.params.rxCap s.rxr.rd s.rxr.wr) n with hn | hn
    · exact .inl (exec_rxrCommit_of_lt hn)
    · exact .inr ⟨_, advance_lt hs.rxr.cap_pos, exec_rxrCommit_of_le hn⟩
  · exact ⟨exec_rxrCommit_of_le hn, pending_release_window hs.rxr hn⟩

/-- Settles O41: the byte is published at `wr`. -/
theorem rxengPutAppends : Obligations.RxengPutAppends := by
  intro s v rest hs ho hfree hsched
  have hput := rxengPut_of_free (s := { s with sched := rest }) ⟨hs.rxr, hs.txr⟩ v ho hfree
  exact ⟨_, step_of_rxengPut hs.params hsched hput, rfl,
    fun a => Memory.read_write hs.rxr.storage_wf s.rxr.wr a v, pending_put hs.rxr hfree v⟩

/-- Settles O42: storage and `wr` become unspecified, `wr` within the ring. -/
theorem rxengPutOverruns : Obligations.RxengPutOverruns := by
  intro s v rest hs hfull hsched
  have hput := rxengPut_of_full (s := { s with sched := rest }) v hfull
  exact ⟨freeStorage s.tick s.params.rxCap, Config.freeRxCursor s.tick % s.params.rxCap,
    Nat.mod_lt _ hs.rxr.cap_pos, step_of_rxengPut hs.params hsched hput⟩

/-- Settles O46: the length is that of the first free window. -/
theorem txrWindowShowsFree : Obligations.TxrWindowShowsFree := fun _ hs =>
  ⟨_, rfl, rfl, freeLen_bound hs.txr.rd_lt hs.txr.wr_lt, freeLen_eq_zero_iff hs.txr.rd_lt hs.txr.wr_lt⟩

/-- Settles O47: bytes that fit are published, others refused. -/
theorem txrCommitStores : Obligations.TxrCommitStores := by
  intro s inp hs
  refine ⟨fun hfits => ⟨_, ?_, Memory.read_writeRun hs.txr.storage_wf s.txr.wr inp,
    pending_publish_window hs.txr hfits⟩, fun hlong => ?_⟩ <;> show execTxrCommit inp s = _ <;> rw [execTxrCommit]
  · rw [txrCommit_of_fits hs.rings hfits]
    rfl
  · rw [txrCommit_of_long hlong]
    rfl

/-- Settles O48: an enabled `TAKE` moves the front of the committed bytes to the wire. -/
theorem txengTakeSends : Obligations.TxengTakeSends := by
  intro s k rest hs hsched
  refine ⟨takeEnabled_iff_busy hs.rings, fun hk => ⟨?_, pending_release_window hs.txr hk.2⟩, fun hk => ?_⟩
  · exact step_of_txengTake hs.params hsched
      (txengTake_of_enabled (s := { s with sched := rest }) ⟨hs.rxr, hs.txr⟩ hk)
  · exact step_of_txengTake hs.params hsched (if_neg hk)

end Sys2Proof.Machine

/-! SUPPORT. The bytes that flow through the rings: each engine step, engine stretch and ring primitive of `HOST` keeps
account of what arrives, what is released, what is committed and what is sent (43_transport_adapter.md R217, R227). -/

namespace Sys2Proof.Machine

open Sys2Proof

/-! ## The account -/

/-- What the transmit ring has been given: what is on the wire, then what still waits (43_transport_adapter.md R227). -/
def txLine (s : State) : Window := s.wireTx ++ txPending s

/-- A stretch of an execution from `s` to `t` with both rings in order: while the receive ring has not overrun, the
bytes `arrived` join the unread ones at the end and the bytes `taken` leave them at the front; the transmit line grows
at its end by `put`, and the wire is not rewritten. -/
structure Flow (s t : State) (arrived taken put : Window) : Prop where
  rings : RingsInv t
  params : t.params = s.params
  wire : s.wireTx <+: t.wireTx
  line : txLine t = txLine s ++ put
  ovr : t.rxrOvr = false → s.rxrOvr = false
  unread : t.rxrOvr = false → rxPending s ++ arrived = taken ++ rxPending t

section
variable {s t u : State}

/-- Nothing flows while rings, flag and wire stay as they are. -/
theorem Flow.of_kept (h : RingsInv s) (hparams : t.params = s.params) (hrxr : t.rxr = s.rxr)
    (hovr : t.rxrOvr = s.rxrOvr) (htxr : t.txr = s.txr) (hwire : t.wireTx = s.wireTx) : Flow s t [] [] [] := by
  refine ⟨⟨?_, ?_⟩, hparams, ?_, ?_, ?_, ?_⟩
  · rw [hparams, hrxr]; exact h.rxr
  · rw [hparams, htxr]; exact h.txr
  · rw [hwire]
  · simp [txLine, txPending, hparams, htxr, hwire]
  · simp [hovr]
  · simp [rxPending, hparams, hrxr]

theorem Flow.refl (h : RingsInv s) : Flow s s [] [] [] := .of_kept h rfl rfl rfl rfl rfl

theorem Flow.trans {a a' k k' o o' : Window} (h : Flow s t a k o) (h' : Flow t u a' k' o') :
    Flow s u (a ++ a') (k ++ k') (o ++ o') := by
  refine ⟨h'.rings, h'.params.trans h.params, h.wire.trans h'.wire, ?_, fun hu => h.ovr (h'.ovr hu), fun hu => ?_⟩
  · rw [h'.line, h.line, List.append_assoc]
  · rw [← List.append_assoc, h.unread (h'.ovr hu), List.append_assoc, h'.unread hu, List.append_assoc]

/-! ## Engine steps -/

theorem rxengPut_flow {v : Byte} (h : RingsInv s) (ht : rxengPut v s = .ok t) : Flow s t [v] [] [] := by
  by_cases hfull : s.rxrOvr = true ∨ ringFull s.params.rxCap s.rxr.rd s.rxr.wr
  · obtain rfl := Except.ok.inj ((rxengPut_of_full v hfull).symm.trans ht)
    exact ⟨rxengPut_keeps_rings h ht, rfl, List.prefix_refl _, (List.append_nil _).symm, nofun, nofun⟩
  · obtain ⟨ho, hfree⟩ := not_or.1 hfull
    obtain rfl := Except.ok.inj ((rxengPut_of_free h v (by simpa using ho) hfree).symm.trans ht)
    exact ⟨rxengPut_keeps_rings h ht, rfl, List.prefix_refl _, (List.append_nil _).symm, id,
      fun _ => (pending_put h.rxr hfree v).symm⟩

theorem txengTake_flow {k : Nat} (h : RingsInv s) (ht : txengTake k s = .ok t) : Flow s t [] [] [] := by
  by_cases hk : takeEnabled k s
  · obtain rfl := Except.ok.inj ((txengTake_of_enabled h hk).symm.trans ht)
    refine ⟨txengTake_keeps_rings h ht, rfl, List.prefix_append _ _, ?_, id, fun _ => List.append_nil _⟩
    have hrest : txPending { s with txr := s.txr.release s.params.txCap k } = (txPending s).drop k :=
      pending_release_window h.txr hk.2
    show (s.wireTx ++ (txPending s).take k) ++ txPending { s with txr := s.txr.release s.params.txCap k } = _
    rw [hrest, List.append_assoc, List.take_append_drop, List.append_nil, txLine]
  · obtain rfl := Except.ok.inj (((if_neg hk : txengTake k s = .ok s)).symm.trans ht)
    exact .refl h

theorem arrivals_append (l l' : List Turn) : arrivals (l ++ l') = arrivals l ++ arrivals l' :=
  List.filterMap_append

/-- An engine stretch uses up a front part of the turns it is given, and the bytes that arrive are theirs. -/
theorem runEngines_flow {turns : List Turn} (h : RingsInv s) (ht : runEngines turns s = .ok t) :
    ∃ used, turns = used ++ t.sched ∧ Flow s t (arrivals used) [] [] := by
  induction turns generalizing s with
  | nil =>
    obtain rfl := Except.ok.inj ht
    exact ⟨[], rfl, .of_kept h rfl rfl rfl rfl rfl⟩
  | cons turn rest ih =>
    cases turn with
    | host =>
      obtain rfl := Except.ok.inj ht
      exact ⟨[.host], rfl, .of_kept h rfl rfl rfl rfl rfl⟩
    | rxeng v =>
      obtain ⟨s', h1, h2⟩ := bind_eq_ok.1 ht
      have hflow := rxengPut_flow h h1
      obtain ⟨used, rfl, hrest⟩ := ih hflow.rings h2
      exact ⟨.rxeng v :: used, rfl, hflow.trans hrest⟩
    | txeng k =>
      obtain ⟨s', h1, h2⟩ := bind_eq_ok.1 ht
      have hflow := txengTake_flow h h1
      obtain ⟨used, rfl, hrest⟩ := ih hflow.rings h2
      exact ⟨.txeng k :: used, rfl, hflow.trans hrest⟩

/-! ## Stretches that use up turns -/

/-- A stretch that uses up a front part of the schedule, the bytes that arrive being those of the turns used up. -/
def Spans (s t : State) (used : List Turn) (taken put : Window) : Prop :=
  s.sched = used ++ t.sched ∧ Flow s t (arrivals used) taken put

theorem Spans.trans {l l' : List Turn} {k k' o o' : Window} (h : Spans s t l k o) (h' : Spans t u l' k' o') :
    Spans s u (l ++ l') (k ++ k') (o ++ o') := by
  obtain ⟨hsched, hflow⟩ := h
  obtain ⟨hsched', hflow'⟩ := h'
  refine ⟨by rw [hsched, hsched', List.append_assoc], ?_⟩
  rw [arrivals_append]
  exact hflow.trans hflow'

/-- A primitive of `HOST` uses up no turn. -/
theorem Flow.spans {k o : Window} (h : Flow s t [] k o) (hsched : t.sched = s.sched) : Spans s t [] k o :=
  ⟨hsched.symm, h⟩

theorem Spans.of_kept (h : RingsInv s) (hsched : t.sched = s.sched) (hparams : t.params = s.params)
    (hrxr : t.rxr = s.rxr) (hovr : t.rxrOvr = s.rxrOvr) (htxr : t.txr = s.txr) (hwire : t.wireTx = s.wireTx) :
    Spans s t [] [] [] := (Flow.of_kept h hparams hrxr hovr htxr hwire).spans hsched

theorem interlude_spans (h : RingsInv s) (ht : interlude s = .ok t) : ∃ used, Spans s t used [] [] :=
  runEngines_flow h ht

theorem withDec_spans (h : RingsInv s) (d : Dec) : Spans s { s with dec := d } [] [] [] :=
  .of_kept h rfl rfl rfl rfl rfl rfl

theorem withEnc_spans (h : RingsInv s) (e : Enc) : Spans s { s with enc := e } [] [] [] :=
  .of_kept h rfl rfl rfl rfl rfl rfl

/-! ## Ring primitives of `HOST` -/

theorem rxrWindow_spans {w : RxWindow} (h : RingsInv s) (ht : rxrWindow s = .ok (w, t)) : Spans s t [] [] [] := by
  rcases rxrWindow_cases ht with ⟨-, -, rfl⟩ | ⟨-, rfl, -⟩
  · exact .of_kept h rfl rfl rfl rfl rfl rfl
  · exact (Flow.refl h).spans rfl

/-- `RXR.COMMIT n` releases the oldest `n` bytes, when they are in the first window. -/
theorem rxrCommit_spans {n : Nat} {taken : Window} (h : RingsInv s)
    (hn : s.rxrOvr = false → n ≤ occLen s.params.rxCap s.rxr.rd s.rxr.wr ∧ (rxPending s).take n = taken) :
    Spans s (rxrCommit n s).2 [] taken [] := by
  have hrings := rxrCommit_keeps_rings h n
  rcases rxrCommit_cases n s with ⟨hlong, he⟩ | ⟨hfits, he⟩ <;> rw [he] at hrings ⊢
  · refine Flow.spans ⟨hrings, rfl, List.prefix_refl _, (List.append_nil _).symm, id, fun ho => ?_⟩ rfl
    obtain ⟨hle, -⟩ := hn ho
    omega
  · refine Flow.spans ⟨hrings, rfl, List.prefix_refl _, (List.append_nil _).symm, id, fun ho => ?_⟩ rfl
    obtain ⟨-, rfl⟩ := hn ho
    have hrest : rxPending { s with rxr := s.rxr.release s.params.rxCap n } = (rxPending s).drop n :=
      pending_release_window h.rxr hfits
    rw [List.append_nil, hrest, List.take_append_drop]

theorem txrCommit_spans {o : Window} {st : Status} (h : RingsInv s) (hfits : o.length ≤ txrWindowLen s)
    (ht : txrCommit o s = .ok (st, t)) : Spans s t [] [] o := by
  have hrings := txrCommit_keeps_rings h ht
  cases Except.ok.inj ((txrCommit_of_fits h hfits).symm.trans ht)
  refine Flow.spans ⟨hrings, rfl, List.prefix_refl _, ?_, id, fun _ => List.append_nil _⟩ rfl
  have hcommitted : txPending { s with txr := s.txr.publish s.params.txCap o } = txPending s ++ o :=
    pending_publish_window h.txr hfits
  show s.wireTx ++ txPending { s with txr := s.txr.publish s.params.txCap o } = _
  rw [hcommitted, txLine, List.append_assoc]

/-! ## What the engines leave of a window sampled before them -/

/-- The first occupied window does not shrink while bytes only arrive. -/
theorem Flow.occLen_le {a o : Window} (h : Flow s t a [] o) (hs : RingsInv s) (hrd : t.rxr.rd = s.rxr.rd)
    (ho : t.rxrOvr = false) :
    occLen s.params.rxCap s.rxr.rd s.rxr.wr ≤ occLen t.params.rxCap t.rxr.rd t.rxr.wr := by
  have hlen : (rxPending s).length ≤ (rxPending t).length := by
    have := congrArg List.length (h.unread ho)
    simp only [List.length_append, List.length_nil] at this
    omega
  rw [rxPending, rxPending, length_pending hs.rxr, length_pending h.rings.rxr] at hlen
  rw [occLen_eq_min hs.rxr.rd_lt hs.rxr.wr_lt, occLen_eq_min h.rings.rxr.rd_lt h.rings.rxr.wr_lt]
  rw [h.params, hrd] at hlen ⊢
  omega

/-- The first free window does not shrink while bytes are only sent. -/
theorem Flow.txrWindowLen_le {a k : Window} (h : Flow s t a k []) (hs : RingsInv s) (hwr : t.txr.wr = s.txr.wr) :
    txrWindowLen s ≤ txrWindowLen t := by
  have hlen : (txPending t).length ≤ (txPending s).length := by
    have := congrArg List.length h.line
    have := h.wire.length_le
    simp only [txLine, List.length_append, List.length_nil] at *
    omega
  rw [txPending, txPending, length_pending hs.txr, length_pending h.rings.txr] at hlen
  rw [txrWindowLen, txrWindowLen, freeLen_eq_min hs.txr.rd_lt hs.txr.wr_lt,
    freeLen_eq_min h.rings.txr.rd_lt h.rings.txr.wr_lt]
  unfold freeSlots
  rw [h.params, hwr] at hlen ⊢
  omega

end

end Sys2Proof.Machine

/-! SUPPORT. `RXR.DECODE` under any engine turns (43_transport_adapter.md R230, R231): it acts as one `DEC.STEP` over
the bytes it releases. -/

namespace Sys2Proof.Machine

open Sys2Proof

/-! ## A call of `DEC.STEP` over the bytes it consumes -/

/-- The call acted as one `DEC.STEP` over the bytes it released: they are all consumed, and the output and the registers
are the same. The step over these bytes alone has no next byte to meet a full window with. -/
def DecActs (d : Dec) (taken : Window) (cap : Nat) (p : RxDecoded) : Prop :=
  ∃ st, decStep d taken cap = ⟨p.state.dec, taken.length, p.out, st⟩ ∧
    (st = p.status ∨ (p.status = .moreOutput ∧ st = .moreInput))

theorem decStep_nil_noRoom (d : Dec) :
    ∃ st, decStep d [] 0 = ⟨d, 0, [], st⟩ ∧ (st = .moreOutput ∨ st = .moreInput) := by
  cases hm : d.mode with
  | plain => exact ⟨_, decLoop_nil hm, .inr rfl⟩
  | reduced => exact ⟨_, decStep_noRoom (.inl hm), .inl rfl⟩

/-- Cut to the bytes it consumes, the window gives the same, but for the status of a full output window. -/
theorem decStep_take_consumed {d : Dec} {inp : Window} {cap : Nat} {r : DecResult} (hr : decStep d inp cap = r) :
    ∃ st, decStep d (inp.take r.consumed) cap = ⟨r.dec, r.consumed, r.out, st⟩ ∧
      (st = r.status ∨ (r.status = .moreOutput ∧ st = .moreInput)) := by
  have hruns := hr ▸ decStep_runs d inp cap
  clear hr
  induction hruns with
  | windowUsedUp hm => exact ⟨_, decLoop_nil hm, .inl rfl⟩
  | @noRoom d =>
    obtain ⟨st, hnil, hst⟩ := decStep_nil_noRoom d
    exact ⟨st, hnil, hst.imp id (⟨rfl, ·⟩)⟩
  | reducedOut hm hcap => exact ⟨_, decStep_reduced hm hcap, .inl rfl⟩
  | delim hm hr => exact ⟨_, decStep_delim hm hr, .inl rfl⟩
  | takes ht ho _ ih =>
    obtain ⟨st, hrest, hst⟩ := ih
    refine ⟨st, ?_, hst⟩
    rw [DecResult.after_consumed, Nat.add_comm, List.take_succ_cons, ht.decStep_eq ho, hrest]
    simp [DecResult.after, Nat.add_comm]

section
variable {d : Dec} {taken : Window} {cap : Nat} {p : RxDecoded}

/-- A second call goes on where the first used up its window. -/
theorem DecActs.append {p1 p2 : RxDecoded} {taken2 : Window} (h1 : DecActs d taken cap p1)
    (hst : p1.status = .moreInput) (h2 : DecActs p1.state.dec taken2 (cap - p1.out.length) p2) :
    DecActs d (taken ++ taken2) cap { p2 with out := p1.out ++ p2.out } := by
  obtain ⟨st1, hcall1, hst1⟩ := h1
  obtain ⟨st2, hcall2, hst2⟩ := h2
  obtain rfl : st1 = .moreInput := hst1.elim (·.trans hst) (·.2)
  have hjoined := decStep_resume hcall1 (by simp) taken2 0
  simp only [List.drop_length, List.nil_append, Nat.add_zero, hcall2] at hjoined
  exact ⟨st2, by simp [hjoined, DecResult.after], hst2⟩

theorem DecActs.out_le (h : DecActs d taken cap p) : p.out.length ≤ cap := by
  obtain ⟨st, hcall, -⟩ := h
  simpa [hcall] using decStep_out_le d taken cap

theorem DecActs.status (h : DecActs d taken cap p) :
    p.status = .moreInput ∨ p.status = .moreOutput ∨ p.status = .frameComplete := by
  obtain ⟨st, hcall, rfl | ⟨hout, -⟩⟩ := h
  · simpa [hcall] using (decStep_ends d taken cap).status
  · exact .inr (.inl hout)

/-- The step over the released bytes alone completes the frame exactly when the call does. -/
theorem DecActs.pays (h : DecActs d taken cap p) (y : Window) :
    decOwes d (taken ++ y) = p.out ++ (if p.status = .frameComplete then [] else decOwes p.state.dec y) ∧
    decAwaits d (taken ++ y) = taken.length + (if p.status = .frameComplete then 0 else decAwaits p.state.dec y) := by
  obtain ⟨st, hcall, hst⟩ := h
  have hiff : st = .frameComplete ↔ p.status = .frameComplete := by
    rcases hst with rfl | ⟨hout, rfl⟩
    · rfl
    · simp [hout]
  obtain ⟨hpaid, hawaited⟩ := decStep_pays d taken y cap
  simp only [hcall, List.drop_length, List.nil_append, hiff] at hpaid hawaited
  exact ⟨hpaid, hawaited⟩

/-- Where the frame's delimiter has been consumed, the released bytes end with it; where it was consumed before, there
are none (43_transport_adapter.md R231). -/
theorem DecActs.ends_at_delim (h : DecActs d taken cap p)
    (hend : p.status = .frameComplete ∨ p.state.dec.mode = .reduced) :
    if d.mode = .reduced then taken = [] else ∃ m, zeroFree m ∧ taken = m ++ [delim] := by
  have hawaits : decAwaits d taken = taken.length := by
    have hawaited := (h.pays []).2
    rw [List.append_nil] at hawaited
    rcases hend with hst | hm
    · simpa [hst] using hawaited
    · simpa [decAwaits, hm] using hawaited
  cases hm : d.mode with
  | reduced =>
    rw [decAwaits, if_pos hm] at hawaits
    exact List.length_eq_zero_iff.1 hawaits.symm
  | plain =>
    rw [if_neg (by simp)]
    rw [decAwaits_plain hm] at hawaits
    rcases zeroFree_or_delim taken with hfree | ⟨m, y, rfl, hfree⟩
    · rw [takeWhile_of_zeroFree hfree] at hawaits
      omega
    · rw [takeWhile_append_delim hfree] at hawaits
      obtain rfl : y = [] := by simpa using hawaits
      exact ⟨m, hfree, rfl⟩

end

/-! ## The passes -/

/-- What `RXR.DECODE` leaves alone, whatever the engines do meanwhile. -/
structure DecodeFrame (s t : State) : Prop where
  enc : t.enc = s.enc
  crc16 : t.crc16 = s.crc16
  crc32 : t.crc32 = s.crc32
  txr_wr : t.txr.wr = s.txr.wr

theorem DecodeFrame.trans {s t u : State} (h : DecodeFrame s t) (h' : DecodeFrame t u) : DecodeFrame s u :=
  ⟨h'.enc.trans h.enc, h'.crc16.trans h.crc16, h'.crc32.trans h.crc32, h'.txr_wr.trans h.txr_wr⟩

theorem EngineFrame.decodeFrame {s t : State} (h : EngineFrame s t) : DecodeFrame s t :=
  ⟨h.enc, h.crc16, h.crc32, h.txr_wr⟩

/-- All that `RXR.DECODE`, or a pass of it, comes to. -/
structure RxDecodes (cap : Nat) (s : State) (p : RxDecoded) (used : List Turn) (taken : Window) : Prop where
  spans : Spans s p.state used taken []
  frame : DecodeFrame s p.state
  acts : DecActs s.dec taken cap p

/-- A window's sample leaves what the engines leave. -/
theorem rxrWindow_frame {s t : State} {w : RxWindow} (h : rxrWindow s = .ok (w, t)) : EngineFrame s t := by
  rcases rxrWindow_cases h with ⟨-, -, rfl⟩ | ⟨-, rfl, -⟩
  · exact ⟨rfl, rfl, rfl, rfl, rfl, rfl, id, rfl, rfl, List.prefix_refl _, rfl⟩
  · exact .refl _

theorem rxrCommit_frame (n : Nat) (s : State) :
    DecodeFrame s (rxrCommit n s).2 ∧ (rxrCommit n s).2.dec = s.dec := by
  rcases rxrCommit_cases n s with ⟨-, e⟩ | ⟨-, e⟩ <;> rw [e] <;> exact ⟨⟨rfl, rfl, rfl, rfl⟩, rfl⟩

/-- The bytes of a window are still the oldest unread ones, and in the first window, after more have arrived. -/
theorem window_stays {s s1 t : State} {w : RxWindow} {arrived put : Window} (h : RingsInv s)
    (hw : rxrWindow s = .ok (w, s1)) (hflow : Flow s t arrived [] put) (hrd : t.rxr.rd = s.rxr.rd)
    (ho : t.rxrOvr = false) {n : Nat} (hn : n ≤ w.bytes.length) :
    n ≤ occLen t.params.rxCap t.rxr.rd t.rxr.wr ∧ (rxPending t).take n = w.bytes.take n := by
  cases Except.ok.inj ((rxrWindow_eq h (hflow.ovr ho)).symm.trans hw)
  obtain ⟨hlen, hpending⟩ : n ≤ occLen s.params.rxCap s.rxr.rd s.rxr.wr ∧ n ≤ (rxPending s).length := by
    simpa using hn
  refine ⟨hlen.trans (hflow.occLen_le h hrd ho), ?_⟩
  rw [← List.nil_append (rxPending t), ← hflow.unread ho, List.take_append_of_le_length hpending, List.take_take,
    Nat.min_eq_left hlen]

theorem rxrDecodePass_decodes {cap : Nat} {s : State} {p : RxDecoded} (h : RingsInv s)
    (hp : rxrDecodePass cap s = .ok p) : ∃ used taken, RxDecodes cap s p used taken := by
  obtain ⟨w, s1, s2, s3, e1, e2, e3, rfl⟩ := rxrDecodePass_eq_ok.1 hp
  have h1 := rxrWindow_spans h e1
  obtain ⟨used2, h2⟩ := interlude_spans h1.2.rings e2
  have hd := withDec_spans h2.2.rings (decStep s2.dec w.bytes cap).dec
  obtain ⟨used3, h3⟩ := interlude_spans hd.2.rings e3
  have hspans : Spans s s3 (used2 ++ used3) [] [] := h1.trans (h2.trans (hd.trans h3))
  have hframe2 := (rxrWindow_frame e1).trans (interlude_frame e2).2
  have hframe3 := (interlude_frame e3).2
  obtain ⟨hcommit, hdec⟩ := rxrCommit_frame (decStep s2.dec w.bytes cap).consumed s3
  have hconsumed := (decStep_ends s2.dec w.bytes cap).consumed_le
  have hrelease := rxrCommit_spans hspans.2.rings fun ho =>
    window_stays h e1 hspans.2 (hframe3.rxr_rd.trans hframe2.rxr_rd) ho hconsumed
  refine ⟨used2 ++ used3 ++ [], _, hspans.trans hrelease, ?_, ?_⟩
  · exact hframe2.decodeFrame.trans (.trans ⟨hframe3.enc, hframe3.crc16, hframe3.crc32, hframe3.txr_wr⟩ hcommit)
  · obtain ⟨st, hcall, hst⟩ := decStep_take_consumed (r := decStep s2.dec w.bytes cap) rfl
    refine ⟨st, ?_, hst⟩
    rw [← hframe2.dec, List.nil_append, hcall, hdec, hframe3.dec, List.length_take_of_le hconsumed]

theorem rxrDecode_decodes {cap : Nat} {s : State} {p : RxDecoded} (h : RingsInv s)
    (hp : rxrDecode cap s = .ok p) : ∃ used taken, RxDecodes cap s p used taken := by
  rcases rxrDecode_cases hp with ⟨e, -⟩ | ⟨p1, s', p2, e1, hst, e', e2, rfl⟩
  · exact rxrDecodePass_decodes h e
  · obtain ⟨used1, taken1, h1⟩ := rxrDecodePass_decodes h e1
    obtain ⟨-, hframe⟩ := interlude_frame e'
    obtain ⟨used, hspans⟩ := interlude_spans h1.spans.2.rings e'
    obtain ⟨used2, taken2, h2⟩ := rxrDecodePass_decodes hspans.2.rings e2
    exact ⟨_, _, h1.spans.trans (hspans.trans h2.spans), h1.frame.trans (hframe.decodeFrame.trans h2.frame),
      h1.acts.append hst (hframe.dec ▸ h2.acts)⟩

theorem exec_rxrDecode {cap : Nat} {s : State} {p : RxDecoded} (hp : rxrDecode cap s = .ok p) :
    exec (.rxrDecode cap) s =
      .next ((rxrDecodeReturn cap p).state.reply (.out (rxrDecodeReturn cap p).out p.status)) := by
  show execRxrDecode cap s = _
  rw [execRxrDecode, hp, orFault_ok, done_eq]

/-- Settles O44: the call acts as one step over what it releases; an overrun leaves the frame and the status. -/
theorem rxrDecodeUnderArrivals : Obligations.RxrDecodeUnderArrivals := by
  intro s cap hs _
  obtain ⟨p, hp, -⟩ := rxrDecode_ok hs.rings cap
  obtain ⟨used, taken, ⟨hsched, hflow⟩, hframe, hacts⟩ := rxrDecode_decodes hs.rings hp
  refine ⟨_, _, p.status, used, exec_rxrDecode hp, ?_, by simp, rxrDecodeReturn_out_le hacts.out_le, hacts.status, ?_⟩
  all_goals rcases rxrDecodeReturn_cases cap p with ⟨ho, he⟩ | ⟨ho, he⟩ <;> rw [he]
  · exact hsched
  · exact hsched
  · have hunread := hflow.unread ho
    refine ⟨hframe.enc, hframe.crc16, hframe.crc32, hframe.txr_wr, fun _ => ⟨⟨taken, hunread, ?_, hacts.ends_at_delim⟩,
      fun y => ?_⟩⟩
    · obtain ⟨st, hcall, hst⟩ := hacts
      exact ⟨_, rfl, by rw [hcall]; rfl, by rw [hcall], by rw [hcall], by rw [hcall]; exact hst⟩
    · rw [hunread, List.append_assoc]
      exact (hacts.pays _).1
  · exact ⟨hframe.enc, hframe.crc16, hframe.crc32, hframe.txr_wr, fun hno => absurd (ho.symm.trans hno) (by simp)⟩

end Sys2Proof.Machine

/-! SUPPORT. `TXR.ENCODE` under any engine turns (43_transport_adapter.md R233, R234): it acts as one `ENC.STEP`, whose
output joins the transmit line; and the transmit line under every operation (R227). -/

namespace Sys2Proof.Machine

open Sys2Proof

/-! ## What a call of `ENC.STEP` consumes once the final flush has begun -/

section
variable {last : Bool} {inp y owed : Window} {cap : Nat} {c c' : EncLoop} {r : EncResult}

/-- The final flush begins at the end of the message only (41_cobsr_encoder.md R131 (d)). -/
theorem EncGoesOn.final_at_end (h : EncGoesOn last c c') (hc : c.enc.final = true → c.rest = [])
    (hf : c'.enc.final = true) : c'.rest = [] := by
  cases h with
  | codeOut | dataOut => exact hc hf
  | runClosed =>
    refine hc ?_
    unfold encCloseRun at hf
    split at hf <;> exact hf
  | runFull | zeroTaken => simp at hf
  | byteTaken _ _ _ hrest => simp [hc hf] at hrest
  | messageEnded _ hrest => exact hrest

/-- A call that ends the frame, or that leaves the final flush begun, has its window used up. -/
theorem EncReturns.final_at_end (h : EncReturns last c r) (hinv : EncInv c.enc) (hc : c.enc.final = true → c.rest = [])
    (hend : r.status = .frameComplete ∨ r.enc.final = true) : c.rest = [] ∧ r.consumed = c.taken := by
  cases h with
  | noRoom => exact ⟨hc (hend.resolve_left (by simp)), rfl⟩
  | delimOut hp => exact ⟨hc (hinv.in_delim hp), rfl⟩
  | windowUsedUp _ hrest => exact ⟨hrest, rfl⟩

theorem encRunOut_consumes_all (h : EncUnderWay inp y cap owed c) (hy : last = true → y = [])
    (hc : c.enc.final = true → c.rest = [])
    (hend : (encRunOut last c).status = .frameComplete ∨ (encRunOut last c).enc.final = true) :
    (encRunOut last c).consumed = inp.length := by
  revert h hc hend
  refine encRunOut_induct (P := fun c r => EncUnderWay inp y cap owed c → (c.enc.final = true → c.rest = []) →
    r.status = .frameComplete ∨ r.enc.final = true → r.consumed = inp.length) (fun c r ha h hc hend => ?_)
    (fun c c' r ha ih h hc => ih (h.again hy ha) ((encArm_again ha).final_at_end hc)) c
  obtain ⟨hrest, hconsumed⟩ := (encArm_ret ha).final_at_end h.inv hc hend
  rw [h.rest_eq, List.drop_eq_nil_iff] at hrest
  exact hconsumed.trans (Nat.le_antisymm h.taken_le hrest)

/-- What a call consumes that ends the frame or leaves the final flush begun: nothing when the flush had begun before
(41_cobsr_encoder.md R135), otherwise its whole window. -/
theorem encStep_consumed_of_final {e : Enc} (h : EncInv e)
    (hend : (encStep e inp last cap).status = .frameComplete ∨ (encStep e inp last cap).enc.final = true) :
    (encStep e inp last cap).consumed = if e.final then 0 else inp.length := by
  rw [encStep_eq_runOut] at hend ⊢
  split
  · next hf => exact (FinalFlush.runOut (h.finalFlush_begun hf) last []).2
  · next hf =>
    exact encRunOut_consumes_all (y := []) ⟨h, Nat.zero_le _, rfl, Nat.zero_add _, rfl⟩ (fun _ => rfl)
      (fun htrue => absurd htrue hf) hend

end

/-! ## The passes -/

/-- What `TXR.ENCODE` leaves alone, whatever the engines do meanwhile. -/
structure EncodeFrame (s t : State) : Prop where
  dec : t.dec = s.dec
  crc16 : t.crc16 = s.crc16
  crc32 : t.crc32 = s.crc32
  rxr_rd : t.rxr.rd = s.rxr.rd

theorem EncodeFrame.trans {s t u : State} (h : EncodeFrame s t) (h' : EncodeFrame t u) : EncodeFrame s u :=
  ⟨h'.dec.trans h.dec, h'.crc16.trans h.crc16, h'.crc32.trans h.crc32, h'.rxr_rd.trans h.rxr_rd⟩

theorem EngineFrame.encodeFrame {s t : State} (h : EngineFrame s t) : EncodeFrame s t :=
  ⟨h.dec, h.crc16, h.crc32, h.rxr_rd⟩

theorem txrCommit_frame {o : Window} {s t : State} {st : Status} (h : txrCommit o s = .ok (st, t)) :
    EncodeFrame s t ∧ t.enc = s.enc := by
  rcases txrCommit_cases h with ⟨-, -, rfl⟩ | ⟨-, -, -, rfl⟩ <;> exact ⟨⟨rfl, rfl, rfl, rfl⟩, rfl⟩

/-- All that `TXR.ENCODE`, or a pass of it, comes to: one `ENC.STEP` with `cap` output slots, whose output `put` is
committed. -/
structure TxEncodes (inp : Window) (last : Bool) (cap : Nat) (s : State) (p : TxEncoded) (used : List Turn)
    (put : Window) : Prop where
  spans : Spans s p.state used [] put
  frame : EncodeFrame s p.state
  acts : encStep s.enc inp last cap = ⟨p.state.enc, p.consumed, put, p.status⟩

theorem txrEncodePass_encodes {inp : Window} {last : Bool} {s : State} {p : TxEncoded} (h : RingsInv s)
    (hp : txrEncodePass inp last s = .ok p) : ∃ used put, TxEncodes inp last (txrWindowLen s) s p used put := by
  obtain ⟨s1, s2, st, s3, e1, e2, e3, rfl⟩ := txrEncodePass_eq_ok.1 hp
  obtain ⟨used1, h1⟩ := interlude_spans h e1
  have he := withEnc_spans h1.2.rings (encStep s1.enc inp last (txrWindowLen s)).enc
  obtain ⟨used2, h2⟩ := interlude_spans he.2.rings e2
  have hspans : Spans s s2 (used1 ++ used2) [] [] := h1.trans (he.trans h2)
  have hframe1 := (interlude_frame e1).2
  have hframe2 := (interlude_frame e2).2
  obtain ⟨hcommit, henc⟩ := txrCommit_frame e3
  have hfits : (encStep s1.enc inp last (txrWindowLen s)).out.length ≤ txrWindowLen s2 :=
    (encStep_ends _ _ _ _).out_le.trans (hspans.2.txrWindowLen_le h (hframe2.txr_wr.trans hframe1.txr_wr))
  refine ⟨used1 ++ used2 ++ [], _, hspans.trans (txrCommit_spans hspans.2.rings hfits e3), ?_, ?_⟩
  · exact hframe1.encodeFrame.trans (.trans ⟨hframe2.dec, hframe2.crc16, hframe2.crc32, hframe2.rxr_rd⟩ hcommit)
  · rw [henc, hframe2.enc, ← hframe1.enc, List.nil_append]

theorem txrEncode_encodes {inp : Window} {last : Bool} {s : State} {p : TxEncoded} (h : RingsInv s)
    (hp : txrEncode inp last s = .ok p) : ∃ cap used put, TxEncodes inp last cap s p used put := by
  rcases txrEncode_cases hp with ⟨e, -⟩ | ⟨p1, s', p2, e1, hst, e', e2, rfl⟩
  · exact ⟨_, txrEncodePass_encodes h e⟩
  · obtain ⟨used1, put1, h1⟩ := txrEncodePass_encodes h e1
    obtain ⟨-, hframe⟩ := interlude_frame e'
    obtain ⟨used, hspans⟩ := interlude_spans h1.spans.2.rings e'
    obtain ⟨used2, put2, h2⟩ := txrEncodePass_encodes hspans.2.rings e2
    have hfilled : put1.length = txrWindowLen s := (h1.acts ▸ encStep_ends _ _ _ _).out_eq hst
    have hjoined := encStep_resume h1.acts (by simp [hst]) (txrWindowLen s') (.inr ⟨rfl, rfl⟩)
    have hcall2 := hframe.enc ▸ h2.acts
    simp only [hfilled, List.append_nil, Nat.sub_self, Nat.zero_add, hcall2] at hjoined
    exact ⟨_, _, _, h1.spans.trans (hspans.trans h2.spans), h1.frame.trans (hframe.encodeFrame.trans h2.frame), hjoined⟩

theorem exec_txrEncode {inp : Window} {last : Bool} {s : State} {p : TxEncoded} (hp : txrEncode inp last s = .ok p) :
    exec (.txrEncode inp last) s = .next (p.state.reply (.consumed p.consumed p.status)) := by
  show execTxrEncode inp last s = _
  rw [execTxrEncode, hp, orFault_ok, done_eq]

/-- Settles O50: the call is one `ENC.STEP` with some capacity, whose output joins the transmit line. -/
theorem txrEncodeUnderTakes : Obligations.TxrEncodeUnderTakes := by
  intro s inp y last hs hy
  obtain ⟨p, hp, -⟩ := txrEncode_ok hs.rings inp last
  obtain ⟨cap, used, put, ⟨hsched, hflow⟩, hframe, hacts⟩ := txrEncode_encodes hs.rings hp
  have hpays := encStep_pays (last := last) hs.enc inp hy cap
  have hconsumed := encStep_consumed_of_final (inp := inp) (last := last) (cap := cap) hs.enc
  rw [hacts] at hpays hconsumed
  refine ⟨_, _, put, _, used, exec_txrEncode hp, hsched, by simp, hpays.consumed_le, hpays.status, hframe.dec,
    hframe.crc16, hframe.crc32, hframe.rxr_rd, hflow.line, hconsumed, hpays.paid⟩

/-! ## The transmit line under every operation -/

/-- The wire is not rewritten, and the transmit line only grows at its end (43_transport_adapter.md R227). -/
structure TxOrder (s t : State) : Prop where
  wire : s.wireTx <+: t.wireTx
  line : txLine s <+: txLine t

theorem TxOrder.trans {s t u : State} (h : TxOrder s t) (h' : TxOrder t u) : TxOrder s u :=
  ⟨h.wire.trans h'.wire, h.line.trans h'.line⟩

theorem TxOrder.of_kept {s t : State} (hparams : t.params = s.params) (htxr : t.txr = s.txr)
    (hwire : t.wireTx = s.wireTx) : TxOrder s t :=
  ⟨by rw [hwire], by rw [txLine, txLine, txPending, txPending, hparams, htxr, hwire]⟩

theorem Flow.order {s t : State} {a k o : Window} (h : Flow s t a k o) : TxOrder s t :=
  ⟨h.wire, h.line ▸ List.prefix_append _ _⟩

theorem rxrCommit_order (n : Nat) (s : State) : TxOrder s (rxrCommit n s).2 := by
  rcases rxrCommit_cases n s with ⟨-, e⟩ | ⟨-, e⟩ <;> rw [e] <;> exact .of_kept rfl rfl rfl

theorem rxrDecodeReturn_order (cap : Nat) (p : RxDecoded) : TxOrder p.state (rxrDecodeReturn cap p).state := by
  rcases rxrDecodeReturn_cases cap p with ⟨-, e⟩ | ⟨-, e⟩ <;> rw [e] <;> exact .of_kept rfl rfl rfl

theorem txrCommit_order {inp : Window} {s t : State} {st : Status} (h : RingsInv s)
    (ht : txrCommit inp s = .ok (st, t)) : TxOrder s t := by
  rcases Nat.lt_or_ge (txrWindowLen s) inp.length with hlong | hfits
  · cases Except.ok.inj ((txrCommit_of_long hlong).symm.trans ht)
    exact .of_kept rfl rfl rfl
  · exact (txrCommit_spans h hfits ht).2.order

theorem TxOrder.of_done {s s' t : State} {r : Response} (h : TxOrder s s') (ht : done r s' = .next t) :
    TxOrder s t := by
  cases ht
  exact h.trans (.of_kept rfl rfl rfl)

/-- Every operation but `TXR.RESET` keeps the order of what is sent. -/
theorem exec_txOrder {i : Instr} {s t : State} (hs : RingsInv s) (hi : i ≠ .txrReset) (h : exec i s = .next t) :
    TxOrder s t := by
  cases i with
  | txrReset => exact absurd rfl hi
  | crc16Updb | crc16Upd | crc16Final =>
    obtain ⟨a, -, hk⟩ := withCrc16_eq_next.1 h
    cases hk
    exact .of_kept rfl rfl rfl
  | crc32Updb | crc32Upd | crc32Final =>
    obtain ⟨a, -, hk⟩ := withCrc32_eq_next.1 h
    cases hk
    exact .of_kept rfl rfl rfl
  | rxrWindow =>
    obtain ⟨_, e, hk⟩ := orFault_eq_next.1 h
    exact (rxrWindow_spans hs e).2.order.of_done hk
  | rxrCommit n => exact (rxrCommit_order n s).of_done h
  | rxrDecode cap =>
    obtain ⟨p, e, hk⟩ := orFault_eq_next.1 h
    obtain ⟨_, _, hdecodes⟩ := rxrDecode_decodes hs e
    exact (hdecodes.spans.2.order.trans (rxrDecodeReturn_order cap p)).of_done hk
  | txrCommit inp =>
    obtain ⟨_, e, hk⟩ := orFault_eq_next.1 h
    exact (txrCommit_order hs e).of_done hk
  | txrEncode inp last =>
    obtain ⟨p, e, hk⟩ := orFault_eq_next.1 h
    obtain ⟨_, _, _, hencodes⟩ := txrEncode_encodes hs e
    exact hencodes.spans.2.order.of_done hk
  | _ =>
    cases h
    exact .of_kept rfl rfl rfl

/-- An engine's turn only moves bytes from the ring to the wire. -/
theorem step_engine_line {s t : State} {turn : Turn} {rest : List Turn} (hs : RingsInv s)
    (hsched : s.sched = turn :: rest) (hturn : turn.isEngine = true) (h : step s = .next t) :
    s.wireTx <+: t.wireTx ∧ txLine t = txLine s := by
  have hrings : RingsInv { s with sched := rest } := ⟨hs.rxr, hs.txr⟩
  obtain ⟨arrived, hflow⟩ : ∃ arrived, Flow { s with sched := rest } t arrived [] [] := by
    cases turn with
    | host => cases hturn
    | rxeng v => exact ⟨_, rxengPut_flow hrings (rxengPut_of_step hsched h)⟩
    | txeng k => exact ⟨_, txengTake_flow hrings (txengTake_of_step hsched h)⟩
  exact ⟨hflow.wire, hflow.line.trans (List.append_nil _)⟩

/-- Settles O51: `TXR.RESET` leaves the wire, every other operation the order, and an engine's turn the line. -/
theorem transmitOrderKept : Obligations.TransmitOrderKept := by
  intro s t hs
  refine ⟨fun i h => ?_, fun turn rest hsched hturn h => step_engine_line hs.rings hsched hturn h⟩
  by_cases hi : i = .txrReset
  · subst hi
    cases h
    exact ⟨List.prefix_refl _, fun hne => absurd rfl hne⟩
  · have horder := exec_txOrder hs.rings hi h
    exact ⟨horder.wire, fun _ => horder.line⟩

end Sys2Proof.Machine

/-! SUPPORT. The two composites with no engine step inside (43_transport_adapter.md R230, R233): two passes over the two
windows of a region act as one step of the codec unit over the whole region. -/

namespace Sys2Proof.Machine

open Sys2Proof

/-! ## Calls that did not stop for want of what is added -/

/-- A call that does not ask for more input does not look at what follows its window. -/
theorem decStep_more_input {d : Dec} {inp : Window} {cap : Nat} {r : DecResult} (hr : decStep d inp cap = r)
    (hst : r.status ≠ .moreInput) (more : Window) : decStep d (inp ++ more) cap = r := by
  have hruns := hr ▸ decStep_runs d inp cap
  clear hr
  induction hruns with
  | windowUsedUp => exact absurd rfl hst
  | noRoom howed =>
    refine decStep_noRoom (howed.imp id fun ⟨hm, b, hb, howes⟩ => ⟨hm, b, ?_, howes⟩)
    simp [hb]
  | reducedOut hm hcap => exact decStep_reduced hm hcap
  | delim hm hr => exact decStep_delim hm hr
  | takes ht ho _ ih => rw [List.cons_append, ht.decStep_eq ho, ih hst]

/-- A call that does not ask for more space does not look at how much is left. -/
theorem encStep_more_space {e : Enc} {inp : Window} {last : Bool} {cap : Nat} {r : EncResult}
    (hr : encStep e inp last cap = r) (hst : r.status ≠ .moreOutput) (space : Nat) :
    encStep e inp last (cap + space) = r := by
  subst hr
  revert hst
  have hgrow : EncLoop.mk e inp 0 [] (cap + space) = (EncLoop.mk e inp 0 [] cap).grow [] space := by
    simp [EncLoop.grow]
  rw [encStep_eq_runOut, encStep_eq_runOut, hgrow]
  refine encRunOut_induct (P := fun c r => r.status ≠ .moreOutput → encRunOut last (c.grow [] space) = r)
    (fun c r ha hst => ?_) (fun c c' r ha ih hst => ?_) _ <;> rw [encRunOut_eq]
  · cases encArm_ret ha with
    | noRoom => exact absurd rfl hst
    | delimOut hp hroom => simp [encArm, encArmDelim, EncLoop.grow, encReturn, hp, hroom]
    | windowUsedUp hp hrest hlast => simp [encArm, encArmAccum, EncLoop.grow, encReturn, hp, hrest, hlast]
  · rw [encArm_grow space (encArm_again ha) fun _ => .inr ⟨rfl, rfl⟩]
    exact ih hst

/-! ## The second window -/

theorem advance_advance (cap p n m : Nat) : advance cap (advance cap p n) m = advance cap p (n + m) := by
  simp [advance, Nat.add_assoc]

/-- After the first occupied window is released, the unread bytes are all in the first window. -/
theorem occLen_release_first {cap : Nat} {r : Ring} (h : RingInv cap r) :
    occLen cap (advance cap r.rd (occLen cap r.rd r.wr)) r.wr =
      occupied cap (advance cap r.rd (occLen cap r.rd r.wr)) r.wr := by
  have hrd := advance_lt (p := r.rd) (n := occLen cap r.rd r.wr) h.cap_pos
  have hlt := occupied_lt h.rd_lt r.wr
  rw [occLen_eq_min hrd h.wr_lt, occupied_release h.rd_lt h.wr_lt (le_occupied_of_le_occLen h le_rfl),
    advance_eq (occLen_bound h.rd_lt h.wr_lt), occLen_eq_min h.rd_lt h.wr_lt]
  have := h.rd_lt
  split_ifs <;> omega

/-- After the first free window is published, the free slots are all in the first window, and that many fewer. -/
theorem freeLen_publish_first {cap : Nat} {r : Ring} (h : RingInv cap r) :
    freeLen cap (advance cap r.wr (freeLen cap r.wr r.rd)) r.rd =
      freeSlots cap r.rd r.wr - freeLen cap r.wr r.rd := by
  have hlt := advance_lt (p := r.wr) (n := freeLen cap r.wr r.rd) h.cap_pos
  have hfits := (le_freeSlots_of_le_freeLen h (n := freeLen cap r.wr r.rd) le_rfl).1
  have hfree : freeSlots cap r.rd (advance cap r.wr (freeLen cap r.wr r.rd)) =
      freeSlots cap r.rd r.wr - freeLen cap r.wr r.rd := by
    rw [freeSlots, occupied_publish h.rd_lt h.wr_lt hfits, freeSlots]
    omega
  rw [freeLen_eq_min h.rd_lt hlt, hfree, advance_eq (freeLen_bound h.rd_lt h.wr_lt), freeLen_eq_min h.rd_lt h.wr_lt]
  have := h.wr_lt
  have : freeSlots cap r.rd r.wr ≤ cap := by unfold freeSlots; omega
  split_ifs <;> omega

/-! ## `RXR.DECODE` -/

section
variable {s : State}

theorem quiet_drop {turns : List Turn} (h : quiet turns) (k : Nat) : quiet (turns.drop k) := fun t ht =>
  h t (List.mem_of_mem_drop ht)

theorem interlude_quiet_drop (hq : quiet s.sched) : interlude s = .ok { s with sched := s.sched.drop 1 } := by
  rw [interlude_quiet hq, List.drop_one]

/-- The length of the first occupied window, as `RXR.WINDOW` returns it. -/
abbrev rxrWindowLen (s : State) : Nat := occLen s.params.rxCap s.rxr.rd s.rxr.wr

/-- The state with the decoder's registers `d`, `n` more bytes released and `k` turns used up. -/
def decodeLeaves (s : State) (d : Dec) (n k : Nat) : State :=
  { s with dec := d, rxr := s.rxr.release s.params.rxCap n, sched := s.sched.drop k }

theorem decodeLeaves_twice (s : State) (d d' : Dec) (n n' k k' : Nat) :
    decodeLeaves (decodeLeaves s d n k) d' n' k' = decodeLeaves s d' (n + n') (k + k') := by
  simp [decodeLeaves, advance_advance]

theorem interlude_decodeLeaves (hq : quiet s.sched) (d : Dec) (n k : Nat) :
    interlude (decodeLeaves s d n k) = .ok (decodeLeaves s d n (k + 1)) := by
  rw [interlude_quiet_drop (quiet_drop hq k)]
  simp [decodeLeaves]

theorem decodeLeaves_rings (h : RingsInv s) (d : Dec) (n k : Nat) : RingsInv (decodeLeaves s d n k) :=
  ⟨h.rxr.release n, h.txr⟩

/-- One pass: a step over the bytes of the first window. -/
theorem rxrDecodePass_quiet (h : RingsInv s) (ho : s.rxrOvr = false) (hq : quiet s.sched) {cap : Nat} {r : DecResult}
    (hr : decStep s.dec ((rxPending s).take (rxrWindowLen s)) cap = r) :
    rxrDecodePass cap s = .ok ⟨r.out, r.status, decodeLeaves s r.dec r.consumed 2⟩ := by
  have hconsumed : r.consumed ≤ rxrWindowLen s := by
    have := (hr ▸ decStep_ends s.dec _ cap).consumed_le
    rw [List.length_take] at this
    omega
  have hsecond : interlude { s with dec := r.dec, sched := s.sched.drop 1 } =
      .ok { s with dec := r.dec, sched := s.sched.drop 2 } := by
    rw [interlude_quiet_drop (quiet_drop hq 1)]
    simp
  refine rxrDecodePass_eq_ok.2 ⟨_, _, _, _, rxrWindow_eq h ho, interlude_quiet_drop hq, hr.symm ▸ hsecond, ?_⟩
  simp only [hr]
  rcases rxrCommit_cases r.consumed { s with dec := r.dec, sched := s.sched.drop 2 } with ⟨hlong, -⟩ | ⟨-, he⟩
  · exact absurd hconsumed (Nat.not_le.2 hlong)
  · rw [he]
    rfl

/-- The second pass, over what the first window left: all that is unread. -/
theorem rxrDecodePass_second (h : RingsInv s) (ho : s.rxrOvr = false) (hq : quiet s.sched) {d : Dec} {k cap : Nat}
    {r : DecResult} (hr : decStep d ((rxPending s).drop (rxrWindowLen s)) cap = r) :
    rxrDecodePass cap (decodeLeaves s d (rxrWindowLen s) k) =
      .ok ⟨r.out, r.status, decodeLeaves s r.dec (rxrWindowLen s + r.consumed) (k + 2)⟩ := by
  have hrings := decodeLeaves_rings h d (rxrWindowLen s) k
  rw [← decodeLeaves_twice]
  refine rxrDecodePass_quiet hrings ho (quiet_drop hq k) ?_
  have hunread : rxPending (decodeLeaves s d (rxrWindowLen s) k) = (rxPending s).drop (rxrWindowLen s) :=
    pending_release_window h.rxr le_rfl
  have hwhole : (rxPending (decodeLeaves s d (rxrWindowLen s) k)).length ≤
      rxrWindowLen (decodeLeaves s d (rxrWindowLen s) k) :=
    ((length_pending hrings.rxr).trans (occLen_release_first h.rxr).symm).le
  rw [List.take_of_length_le hwhole, hunread]
  exact hr

/-- With no engine step inside, the two passes are one step over all the unread bytes. -/
theorem rxrDecode_quiet (h : RingsInv s) (ho : s.rxrOvr = false) (hq : quiet s.sched) {cap : Nat} {r : DecResult}
    (hr : decStep s.dec (rxPending s) cap = r) :
    ∃ k, rxrDecode cap s = .ok ⟨r.out, r.status, decodeLeaves s r.dec r.consumed k⟩ := by
  rw [← List.take_append_drop (rxrWindowLen s) (rxPending s)] at hr
  generalize hr1 : decStep s.dec ((rxPending s).take (rxrWindowLen s)) cap = r1
  have hpass1 := rxrDecodePass_quiet h ho hq hr1
  by_cases hst : r1.status = .moreInput
  · have hfirst : rxrWindowLen s ≤ (rxPending s).length :=
      (le_occupied_of_le_occLen h.rxr le_rfl).trans (length_pending h.rxr).ge
    have hends := hr1 ▸ decStep_ends s.dec ((rxPending s).take (rxrWindowLen s)) cap
    have hused : r1.consumed = rxrWindowLen s := (hends.more_input hst).1.trans (List.length_take_of_le hfirst)
    have hjoined := decStep_resume hr1 (by simp [hst]) ((rxPending s).drop (rxrWindowLen s)) 0
    rw [hused, List.drop_eq_nil_of_le (List.length_take_le _ _), List.nil_append, Nat.add_zero,
      Nat.add_zero, hr] at hjoined
    subst hjoined
    have hpass2 := rxrDecodePass_second h ho hq (d := r1.dec) (k := 3) (cap := cap - r1.out.length) rfl
    exact ⟨5, by simp [rxrDecode, hpass1, hst, hused, interlude_decodeLeaves hq, hpass2]⟩
  · obtain rfl := (decStep_more_input hr1 hst _).symm.trans hr
    exact ⟨2, by simp [rxrDecode, hpass1, hst]⟩

end

/-- Settles O43, by the two passes as one step; the bytes consumed are released. -/
theorem rxrDecodeQuietly : Obligations.RxrDecodeQuietly := by
  intro s cap hs ho hq
  obtain ⟨k, hk⟩ := rxrDecode_quiet hs.rings ho hq (cap := cap) rfl
  have hconsumed := (decStep_ends s.dec (rxPending s) cap).consumed_le
  refine ⟨k, ?_, pending_release hs.rxr (hconsumed.trans (length_pending hs.rxr).le)⟩
  rw [exec_rxrDecode hk, rxrDecodeReturn, if_neg (by simpa [decodeLeaves] using ho)]
  rfl

/-! ## `TXR.ENCODE` -/

/-- A ring that has grown by the bytes `vs`: they are published after the others, and the slots that are not theirs,
counted from `wr`, keep their bytes. -/
structure Ring.GrownBy (cap : Nat) (r r' : Ring) (vs : Window) : Prop where
  rd : r'.rd = r.rd
  wr : r'.wr = advance cap r.wr vs.length
  pending : pending cap r' = pending cap r ++ vs
  others : ∀ j, vs.length ≤ j → j < cap → r'.storage.read (advance cap r.wr j) = r.storage.read (advance cap r.wr j)

theorem Ring.GrownBy.publish {cap : Nat} {r : Ring} (h : RingInv cap r) {vs : Window}
    (hfits : vs.length ≤ freeLen cap r.wr r.rd) : r.GrownBy cap (r.publish cap vs) vs :=
  ⟨rfl, rfl, pending_publish_window h hfits, fun _ => read_publish_of_le h⟩

theorem Ring.GrownBy.trans {cap : Nat} {r r' r'' : Ring} {vs vs' : Window} (h : r.GrownBy cap r' vs)
    (h' : r'.GrownBy cap r'' vs') : r.GrownBy cap r'' (vs ++ vs') := by
  refine ⟨h'.rd.trans h.rd, ?_, ?_, fun j hj hcap => ?_⟩
  · rw [h'.wr, h.wr, advance_advance, List.length_append]
  · rw [h'.pending, h.pending, List.append_assoc]
  · rw [List.length_append] at hj
    have hother := h'.others (j - vs.length) (by omega) (by omega)
    rw [h.wr, advance_advance, Nat.add_sub_cancel' (by omega)] at hother
    exact hother.trans (h.others j (by omega) hcap)

section
variable {s : State} {inp : Window} {last : Bool}

/-- The state with the encoder's registers `e`, the bytes `put` published and `k` turns used up. -/
def encodeLeaves (s : State) (e : Enc) (put : Window) (k : Nat) : State :=
  { s with enc := e, txr := s.txr.publish s.params.txCap put, sched := s.sched.drop k }

theorem encodeLeaves_twice (s : State) (e e' : Enc) (put put' : Window) (k k' : Nat) :
    encodeLeaves (encodeLeaves s e put k) e' put' k' = { s with
      enc := e'
      txr := (s.txr.publish s.params.txCap put).publish s.params.txCap put'
      sched := s.sched.drop (k + k') } := by
  simp [encodeLeaves]

theorem interlude_encodeLeaves (hq : quiet s.sched) (e : Enc) (put : Window) (k : Nat) :
    interlude (encodeLeaves s e put k) = .ok (encodeLeaves s e put (k + 1)) := by
  rw [interlude_quiet_drop (quiet_drop hq k)]
  simp [encodeLeaves]

/-- One pass: a step into the slots of the first window. -/
theorem txrEncodePass_quiet (h : RingsInv s) (hq : quiet s.sched) {r : EncResult}
    (hr : encStep s.enc inp last (txrWindowLen s) = r) :
    txrEncodePass inp last s = .ok ⟨r.consumed, r.status, encodeLeaves s r.enc r.out 2⟩ := by
  have hfits : r.out.length ≤ txrWindowLen s := (hr ▸ encStep_ends s.enc inp last (txrWindowLen s)).out_le
  have hsecond : interlude { s with enc := r.enc, sched := s.sched.drop 1 } =
      .ok { s with enc := r.enc, sched := s.sched.drop 2 } := by
    rw [interlude_quiet_drop (quiet_drop hq 1)]
    simp
  have hcommit := txrCommit_of_fits (s := { s with enc := r.enc, sched := s.sched.drop 2 }) ⟨h.rxr, h.txr⟩ hfits
  exact txrEncodePass_eq_ok.2 ⟨_, _, _, _, interlude_quiet_drop hq, hr.symm ▸ hsecond, hr.symm ▸ hcommit, hr ▸ rfl⟩

/-- The second pass, when the first filled its window: a step into all that is still free. -/
theorem txrEncodePass_second (h : RingsInv s) (hq : quiet s.sched) {e : Enc} {put : Window} {k second : Nat}
    (hfilled : put.length = txrWindowLen s)
    (hsecond : freeSlots s.params.txCap s.txr.rd s.txr.wr = txrWindowLen s + second) {r : EncResult}
    (hr : encStep e inp last second = r) :
    txrEncodePass inp last (encodeLeaves s e put k) =
        .ok ⟨r.consumed, r.status, encodeLeaves (encodeLeaves s e put k) r.enc r.out 2⟩ ∧
      (s.txr.publish s.params.txCap put).GrownBy s.params.txCap
        ((s.txr.publish s.params.txCap put).publish s.params.txCap r.out) r.out := by
  have hrings : RingsInv (encodeLeaves s e put k) := ⟨h.rxr, h.txr.publish (hfilled ▸ txrWindowLen_bound h)⟩
  have hlen : txrWindowLen (encodeLeaves s e put k) = second := by
    show freeLen s.params.txCap (advance s.params.txCap s.txr.wr put.length) s.txr.rd = second
    rw [hfilled]
    exact (freeLen_publish_first h.txr).trans (hsecond ▸ Nat.add_sub_cancel_left _ _)
  rw [← hlen] at hr
  have hends := hr ▸ encStep_ends e inp last (txrWindowLen (encodeLeaves s e put k))
  exact ⟨txrEncodePass_quiet hrings (quiet_drop hq k) hr, .publish hrings.txr hends.out_le⟩

/-- With no engine step inside, the two passes are one step into all the free slots. -/
theorem txrEncode_quiet (h : RingsInv s) (hq : quiet s.sched) {r : EncResult}
    (hr : encStep s.enc inp last (freeSlots s.params.txCap s.txr.rd s.txr.wr) = r) :
    ∃ ring k, txrEncode inp last s =
        .ok ⟨r.consumed, r.status, { s with enc := r.enc, txr := ring, sched := s.sched.drop k }⟩ ∧
      s.txr.GrownBy s.params.txCap ring r.out := by
  have hfree : txrWindowLen s ≤ freeSlots s.params.txCap s.txr.rd s.txr.wr :=
    (le_freeSlots_of_le_freeLen h.txr le_rfl).1
  obtain ⟨second, hsecond⟩ := Nat.exists_eq_add_of_le hfree
  rw [hsecond] at hr
  generalize hr1 : encStep s.enc inp last (txrWindowLen s) = r1
  have hends := hr1 ▸ encStep_ends s.enc inp last (txrWindowLen s)
  have hgrown1 : s.txr.GrownBy s.params.txCap _ r1.out := .publish h.txr hends.out_le
  have hpass1 := txrEncodePass_quiet h hq hr1
  by_cases hst : r1.status = .moreOutput
  · have hfilled := hends.out_eq hst
    have hjoined := encStep_resume hr1 (by simp [hst]) second (.inr ⟨rfl, rfl⟩)
    rw [List.append_nil, List.append_nil, hfilled, Nat.sub_self, Nat.zero_add, hr] at hjoined
    subst hjoined
    obtain ⟨hpass2, hgrown2⟩ := txrEncodePass_second h hq (k := 3) hfilled hsecond rfl
    exact ⟨_, 5, by simp [txrEncode, hpass1, hst, interlude_encodeLeaves hq, hpass2, EncResult.after,
      encodeLeaves_twice], hgrown1.trans hgrown2⟩
  · obtain rfl := (encStep_more_space hr1 hst second).symm.trans hr
    exact ⟨_, 2, by simp [txrEncode, hpass1, hst, encodeLeaves], hgrown1⟩

end

/-- Settles O49, by the two passes as one step; the ring grows by what it put out. -/
theorem txrEncodeQuietly : Obligations.TxrEncodeQuietly := by
  intro s inp last hs hq
  obtain ⟨⟨storage, rd, wr⟩, k, hk, hgrown⟩ := txrEncode_quiet hs.rings hq (inp := inp) (last := last) rfl
  obtain ⟨rfl, rfl, hpending, hothers⟩ := hgrown
  exact ⟨storage, k, exec_txrEncode hk, hpending, hothers⟩

end Sys2Proof.Machine

/-! SUPPORT. Global reset (70_reset_and_hazards.md R280), and that no step writes a parameter (R283, 10_state.md
R28). -/

namespace Sys2Proof.Machine

open Sys2Proof

/-! ## Global reset -/

theorem encInv_atReset : EncInv Enc.atReset :=
  encInv_encReset (e := Enc.atReset) List.length_replicate

theorem decInv_atReset : DecInv Dec.atReset := .reset Dec.atReset

theorem ringInv_atReset {cap : Nat} (h : 2 ≤ cap) : RingInv cap Ring.atReset :=
  ⟨Nat.zero_lt_of_lt h, Nat.zero_lt_of_lt h, Memory.wf_nil, nofun⟩

theorem inv_resetWith {p : Params} (h : p.valid) : Inv (State.resetWith p) :=
  ⟨h, encInv_atReset, decInv_atReset, ringInv_atReset h.1, ringInv_atReset h.2⟩

/-- Settles O52, register by register, by the definition of the state after reset. -/
theorem globalResetLeaves : Obligations.GlobalResetLeaves := fun _ =>
  ⟨rfl, rfl, ⟨rfl, rfl, rfl, rfl, rfl, rfl, rfl⟩, ⟨rfl, rfl, rfl⟩, ⟨rfl, rfl, rfl, rfl⟩, ⟨rfl, rfl⟩, rfl⟩

/-- Settles O53: each unit's reset state meets that unit's invariant, and the default capacities are a configuration. -/
theorem resetMeetsInvariant : Obligations.ResetMeetsInvariant :=
  ⟨inv_resetWith (by decide), fun _ => inv_resetWith⟩

/-! ## The parameters -/

theorem rxrCommit_params (n : Nat) (s : State) : (rxrCommit n s).2.params = s.params := by
  rcases rxrCommit_cases n s with ⟨-, e⟩ | ⟨-, e⟩ <;> rw [e]

theorem txrCommit_params {inp : Window} {s t : State} {st : Status} (h : txrCommit inp s = .ok (st, t)) :
    t.params = s.params := by
  rcases txrCommit_cases h with ⟨-, -, rfl⟩ | ⟨-, -, -, rfl⟩ <;> rfl

theorem interlude_params {s t : State} (h : interlude s = .ok t) : t.params = s.params := (interlude_frame h).2.params

theorem rxrDecodePass_params {cap : Nat} {s : State} {p : RxDecoded} (h : rxrDecodePass cap s = .ok p) :
    p.state.params = s.params := by
  obtain ⟨w, s1, s2, s3, e1, e2, e3, rfl⟩ := rxrDecodePass_eq_ok.1 h
  calc (rxrCommit (decStep s2.dec w.bytes cap).consumed s3).2.params
    _ = s3.params := rxrCommit_params _ s3
    _ = s2.params := (interlude_params e3 :)
    _ = s1.params := interlude_params e2
    _ = s.params := (rxrWindow_frame e1).params

theorem rxrDecode_params {cap : Nat} {s : State} {p : RxDecoded} (h : rxrDecode cap s = .ok p) :
    p.state.params = s.params := by
  rcases rxrDecode_cases h with ⟨e, -⟩ | ⟨p1, s', p2, e1, -, e', e2, rfl⟩
  · exact rxrDecodePass_params e
  · exact (rxrDecodePass_params e2).trans ((interlude_params e').trans (rxrDecodePass_params e1))

theorem rxrDecodeReturn_params (cap : Nat) (p : RxDecoded) :
    (rxrDecodeReturn cap p).state.params = p.state.params := by
  rcases rxrDecodeReturn_cases cap p with ⟨-, e⟩ | ⟨-, e⟩ <;> rw [e]

theorem txrEncodePass_params {inp : Window} {last : Bool} {s : State} {p : TxEncoded}
    (h : txrEncodePass inp last s = .ok p) : p.state.params = s.params := by
  obtain ⟨s1, s2, st, s3, e1, e2, e3, rfl⟩ := txrEncodePass_eq_ok.1 h
  calc s3.params
    _ = s2.params := txrCommit_params e3
    _ = s1.params := (interlude_params e2 :)
    _ = s.params := interlude_params e1

theorem txrEncode_params {inp : Window} {last : Bool} {s : State} {p : TxEncoded}
    (h : txrEncode inp last s = .ok p) : p.state.params = s.params := by
  rcases txrEncode_cases h with ⟨e, -⟩ | ⟨p1, s', p2, e1, -, e', e2, rfl⟩
  · exact txrEncodePass_params e
  · exact (txrEncodePass_params e2).trans ((interlude_params e').trans (txrEncodePass_params e1))

theorem done_params {r : Response} {s s' t : State} (h : done r s' = .next t) (hp : s'.params = s.params) :
    t.params = s.params := by
  cases h
  exact hp

/-- No operation writes a parameter. -/
theorem exec_params {i : Instr} {s t : State} (h : exec i s = .next t) : t.params = s.params := by
  cases i with
  | crc16Updb | crc16Upd | crc16Final =>
    obtain ⟨a, -, hk⟩ := withCrc16_eq_next.1 h
    exact done_params hk rfl
  | crc32Updb | crc32Upd | crc32Final =>
    obtain ⟨a, -, hk⟩ := withCrc32_eq_next.1 h
    exact done_params hk rfl
  | rxrWindow =>
    obtain ⟨_, e, hk⟩ := orFault_eq_next.1 h
    exact done_params hk (rxrWindow_frame e).params
  | rxrCommit n => exact done_params h (rxrCommit_params n s)
  | rxrDecode cap =>
    obtain ⟨p, e, hk⟩ := orFault_eq_next.1 h
    exact done_params hk ((rxrDecodeReturn_params cap p).trans (rxrDecode_params e))
  | txrCommit inp =>
    obtain ⟨_, e, hk⟩ := orFault_eq_next.1 h
    exact done_params hk (txrCommit_params e)
  | txrEncode inp last =>
    obtain ⟨_, e, hk⟩ := orFault_eq_next.1 h
    exact done_params hk (txrEncode_params e)
  | _ => exact done_params h rfl

theorem hostTurn_params {s t : State} (h : hostTurn s = .next t) : t.params = s.params := by
  unfold hostTurn at h
  split at h
  · cases h
    rfl
  · next hf =>
    obtain ⟨rest, -, rfl⟩ := fetchRequest_eq_some.1 hf
    split at h
    · exact (exec_params h :)
    · exact done_params h rfl

/-- Settles O58, by whose turn it is. -/
theorem parametersNeverChange : Obligations.ParametersNeverChange := by
  intro s t h
  cases hs : s.sched with
  | nil => exact (hostTurn_params ((step_host (valid_of_step_next h) (.inl hs)).symm.trans h) :)
  | cons turn rest =>
    cases turn with
    | host => exact (hostTurn_params ((step_host (valid_of_step_next h) (.inr ⟨rest, hs⟩)).symm.trans h) :)
    | rxeng v => exact (rxengPut_frame (rxengPut_of_step hs h)).params
    | txeng k => exact (txengTake_frame (txengTake_of_step hs h)).params

end Sys2Proof.Machine

/-! SUPPORT. Bytes that no rule reads (10_state.md R32, R34; 93_implementation_defined.md U2): two states that differ
only in them take the same steps and again differ only in them. The relation holds through an overrun as well, since
what an overrun leaves is the same free value in both; `RXR.ovr` is no hypothesis here. -/

namespace Sys2Proof.Machine

open Sys2Proof

/-! ## The encoder -/

/-- Registers that differ only in bytes of `e_buf` at or above `e_len`. -/
inductive Enc.Alike (e : Enc) : Enc → Prop where
  | mk {b : List Byte} (size : b.length = e.buf.length) (held : b.take e.len = e.buf.take e.len) :
    Enc.Alike e { e with buf := b }

/-- The bytes of the run held are the same. -/
theorem Enc.Alike.encBufAt_eq {e e' : Enc} (h : e.Alike e') {i : Nat} (hi : i < e.len) :
    encBufAt e' i = encBufAt e i := by
  obtain ⟨-, held⟩ := h
  have hget := congrArg (·[i]?) held
  simp only [List.getElem?_take_of_lt hi] at hget
  simp only [encBufAt, List.getD_eq_getElem?_getD, hget]

theorem Enc.Alike.reset {e e' : Enc} (h : e.Alike e') : (encReset e).Alike (encReset e') := by
  obtain ⟨size, -⟩ := h
  exact ⟨size, rfl⟩

theorem Enc.Alike.startFlush {e e' : Enc} (h : e.Alike e') (code : Byte) (n : Nat) (final : Bool) (mode : RunMode) :
    (startFlush e code n final mode).Alike (startFlush e' code n final mode) := by
  obtain ⟨size, held⟩ := h
  exact ⟨size, held⟩

theorem Enc.Alike.closeRun {e e' : Enc} (h : e.Alike e') : (encCloseRun e).Alike (encCloseRun e') := by
  obtain ⟨size, -⟩ := h
  unfold encCloseRun
  split <;> exact ⟨size, rfl⟩

/-- The same byte joins both runs. -/
theorem Enc.Alike.push {e e' : Enc} (h : e.Alike e') (hlt : e.len < e.buf.length) (v : Byte) :
    Enc.Alike { e with buf := e.buf.set e.len v, len := e.len + 1 }
      { e' with buf := e'.buf.set e'.len v, len := e'.len + 1 } := by
  obtain @⟨b, size, held⟩ := h
  have hpush : encRunHeld _ = b.take e.len ++ [v] := encRunHeld_push (e := { e with buf := b }) (size.symm ▸ hlt) v
  exact ⟨by simpa using size, hpush.trans (held ▸ (encRunHeld_push hlt v).symm)⟩

/-- Whether the final run is reduced is read off its last byte, which both hold. -/
theorem Enc.Alike.finalFlush {e e' : Enc} (h : e.Alike e') : (encFinalFlush e).Alike (encFinalFlush e') := by
  have hlen : e'.len = e.len := by
    cases h
    rfl
  unfold encFinalFlush
  rw [hlen]
  by_cases hpos : 1 ≤ e.len
  · rw [h.encBufAt_eq (by omega)]
    split <;> exact h.startFlush ..
  · rw [if_neg fun hr => hpos hr.1, if_neg fun hr => hpos hr.1]
    exact h.startFlush ..

section
variable {last : Bool} {c : EncLoop}

/-- A repetition that goes on does so from registers alike, to registers alike. -/
theorem EncGoesOn.alike {c1 : EncLoop} {e : Enc} (hgo : EncGoesOn last c c1) (hinv : EncInv c.enc)
    (he : c.enc.Alike e) : ∃ e1, encArm last { c with enc := e } = .again { c1 with enc := e1 } ∧ c1.enc.Alike e1 := by
  have halike := he
  obtain ⟨size, held⟩ := he
  cases hgo with
  | codeOut hp hroom => exact ⟨_, by simp [encArm, encArmCode, encEmit, hp, hroom], .mk size held⟩
  | dataOut hp hpos hroom =>
    obtain ⟨-, hn, -⟩ := hinv.in_run (.inr hp)
    have hread := halike.encBufAt_eq (hpos.trans_le hn)
    exact ⟨_, by simpa [encArm, encArmData, encEmit, hp, hpos, hroom] using hread, .mk size held⟩
  | runClosed hp hpos => exact ⟨_, by simp [encArm, encArmData, hp, hpos], halike.closeRun⟩
  | runFull hp hlen hrest => exact ⟨_, by simp [encArm, encArmAccum, hp, hlen, hrest], halike.startFlush ..⟩
  | zeroTaken hp hlen hrest => exact ⟨_, by simp [encArm, encArmAccum, hp, hlen, hrest], halike.startFlush ..⟩
  | byteTaken hp hlen hb hrest =>
    have hlt : c.enc.len < c.enc.buf.length := hinv.buf_size ▸ Nat.lt_of_le_of_ne hinv.len_le hlen
    exact ⟨_, by simp [encArm, encArmAccum, hp, hlen, hb, hrest], halike.push hlt _⟩
  | messageEnded hp hrest hlast =>
    exact ⟨_, by simp [encArm, encArmAccum, hp, hrest, hlast], halike.finalFlush⟩

/-- A repetition that returns returns the same from registers alike. -/
theorem EncReturns.alike {r : EncResult} {e : Enc} (hr : EncReturns last c r) (he : c.enc.Alike e) :
    ∃ e1, encArm last { c with enc := e } = .ret { r with enc := e1 } ∧ r.enc.Alike e1 := by
  have halike := he
  obtain ⟨size, held⟩ := he
  cases hr with
  | noRoom hroom hp =>
    refine ⟨_, ?_, halike⟩
    rcases hp with hp | ⟨hp, hpos⟩ | hp
    · simp [encArm, encArmCode, encReturn, hp, hroom]
    · simp [encArm, encArmData, encReturn, hp, hpos, hroom]
    · simp [encArm, encArmDelim, encReturn, hp, hroom]
  | delimOut hp hroom => exact ⟨_, by simp [encArm, encArmDelim, encReturn, encEmit, hp, hroom], halike.reset⟩
  | windowUsedUp hp hrest hlast => exact ⟨_, by simp [encArm, encArmAccum, encReturn, hp, hrest, hlast], halike⟩

theorem encRunOut_alike {e : Enc} (hinv : EncInv c.enc) (he : c.enc.Alike e) :
    ∃ e1, encRunOut last { c with enc := e } = { encRunOut last c with enc := e1 } ∧
      (encRunOut last c).enc.Alike e1 := by
  refine encRunOut_induct (P := fun c r => ∀ e, EncInv c.enc → c.enc.Alike e →
    ∃ e1, encRunOut last { c with enc := e } = { r with enc := e1 } ∧ r.enc.Alike e1)
    (fun c r ha e hinv he => ?_) (fun c c1 r ha ih e hinv he => ?_) c e hinv he
  · obtain ⟨e1, h1, he1⟩ := (encArm_ret ha).alike he
    exact ⟨e1, by rw [encRunOut_eq, h1], he1⟩
  · obtain ⟨e1, h1, he1⟩ := (encArm_again ha).alike hinv he
    have hinv1 : EncInv c1.enc := by simpa [ha, EncTurn.enc] using encArm_keeps_inv last hinv
    rw [encRunOut_eq, h1]
    exact ih e1 hinv1 he1

end

/-- `ENC.STEP` returns the same from registers alike, and leaves registers alike. -/
theorem encStep_alike {e e' : Enc} (hinv : EncInv e) (he : e.Alike e') (inp : Window) (last : Bool) (cap : Nat) :
    ∃ e1, encStep e' inp last cap = { encStep e inp last cap with enc := e1 } ∧
      (encStep e inp last cap).enc.Alike e1 := by
  simp only [encStep_eq_runOut]
  exact encRunOut_alike (c := ⟨e, inp, 0, [], cap⟩) hinv he

/-! ## The rings -/

/-- Rings that differ only in slots outside the occupied region. -/
inductive Ring.Alike (cap : Nat) (r : Ring) : Ring → Prop where
  | mk {m : Memory} (inv : RingInv cap r) (inv' : RingInv cap { r with storage := m })
    (unread : pending cap { r with storage := m } = pending cap r) : Ring.Alike cap r { r with storage := m }

section
variable {cap : Nat} {r r' : Ring}

theorem Ring.Alike.refl (h : RingInv cap r) : r.Alike cap r := .mk h h rfl

theorem Ring.Alike.unread_eq (h : r.Alike cap r') : pending cap r' = pending cap r := by
  obtain ⟨-, -, unread⟩ := h
  exact unread

/-- Bytes of the first occupied window are released from both. -/
theorem Ring.Alike.release (h : r.Alike cap r') {n : Nat} (hn : n ≤ occLen cap r.rd r.wr) :
    (r.release cap n).Alike cap (r'.release cap n) := by
  obtain ⟨inv, inv', unread⟩ := h
  refine .mk (inv.release n) (inv'.release n) ?_
  exact (pending_release_window inv' hn).trans (unread ▸ (pending_release_window inv hn).symm)

/-- Bytes that fit the first free window are published in both. -/
theorem Ring.Alike.publish (h : r.Alike cap r') {vs : Window} (hn : vs.length ≤ freeLen cap r.wr r.rd) :
    (r.publish cap vs).Alike cap (r'.publish cap vs) := by
  obtain ⟨inv, inv', unread⟩ := h
  have hend := (le_freeSlots_of_le_freeLen inv hn).2
  refine .mk (inv.publish hend) (inv'.publish hend) ?_
  exact (pending_publish_window inv' hn).trans (unread ▸ (pending_publish_window inv hn).symm)

theorem Ring.Alike.emptied (h : r.Alike cap r') :
    Ring.Alike cap { r with rd := 0, wr := 0 } { r' with rd := 0, wr := 0 } := by
  obtain ⟨inv, inv', -⟩ := h
  exact .mk inv.emptied inv'.emptied ((pending_eq_nil rfl).trans (pending_eq_nil rfl).symm)

end

/-! ## The state -/

/-- States that differ only in bytes that no rule reads, with what of the invariant the accesses to the others rest
on. -/
inductive State.Alike (s : State) : State → Prop where
  | mk {e : Enc} {r w : Ring} (inv : EncInv s.enc) (enc : s.enc.Alike e) (rxr : s.rxr.Alike s.params.rxCap r)
    (txr : s.txr.Alike s.params.txCap w) : State.Alike s { s with enc := e, rxr := r, txr := w }

theorem AgreeOnRead.alike {s s' : State} (h : AgreeOnRead s s') (hs : Inv s) (hs' : Inv s') : s.Alike s' := by
  obtain ⟨rest, held, rx, tx⟩ := h
  generalize s'.enc.buf = b, s'.rxr.storage = m, s'.txr.storage = n at rest
  subst rest
  exact .mk hs.enc (.mk (hs'.enc.buf_size.trans hs.enc.buf_size.symm) held) (.mk hs.rxr hs'.rxr rx)
    (.mk hs.txr hs'.txr tx)

section
variable {s s' : State}

theorem State.Alike.agreeOnRead (h : s.Alike s') : AgreeOnRead s s' := by
  obtain ⟨-, ⟨-, held⟩, ⟨-, -, rx⟩, ⟨-, -, tx⟩⟩ := h
  exact ⟨rfl, held, rx, tx⟩

theorem State.Alike.rings (h : s.Alike s') : RingsInv s ∧ RingsInv s' := by
  obtain ⟨-, -, ⟨rx, rx', -⟩, ⟨tx, tx', -⟩⟩ := h
  exact ⟨⟨rx, tx⟩, ⟨rx', tx'⟩⟩

theorem State.Alike.params_eq (h : s.Alike s') : s'.params = s.params := by cases h; rfl
theorem State.Alike.crc16_eq (h : s.Alike s') : s'.crc16 = s.crc16 := by cases h; rfl
theorem State.Alike.crc32_eq (h : s.Alike s') : s'.crc32 = s.crc32 := by cases h; rfl
theorem State.Alike.dec_eq (h : s.Alike s') : s'.dec = s.dec := by cases h; rfl
theorem State.Alike.rxrOvr_eq (h : s.Alike s') : s'.rxrOvr = s.rxrOvr := by cases h; rfl
theorem State.Alike.requests_eq (h : s.Alike s') : s'.requests = s.requests := by cases h; rfl
theorem State.Alike.sched_eq (h : s.Alike s') : s'.sched = s.sched := by cases h; rfl
theorem State.Alike.tick_eq (h : s.Alike s') : s'.tick = s.tick := by cases h; rfl

theorem State.Alike.rxCursors (h : s.Alike s') : s'.rxr.rd = s.rxr.rd ∧ s'.rxr.wr = s.rxr.wr := by
  obtain ⟨-, -, ⟨-, -, -⟩, -⟩ := h
  exact ⟨rfl, rfl⟩

theorem State.Alike.txCursors (h : s.Alike s') : s'.txr.rd = s.txr.rd ∧ s'.txr.wr = s.txr.wr := by
  obtain ⟨-, -, -, ⟨-, -, -⟩⟩ := h
  exact ⟨rfl, rfl⟩

theorem State.Alike.rxPending_eq (h : s.Alike s') : rxPending s' = rxPending s := h.agreeOnRead.rx

theorem State.Alike.txPending_eq (h : s.Alike s') : txPending s' = txPending s := h.agreeOnRead.tx

/-! ## Fields outside the encoder and the rings -/

theorem State.Alike.withDec (h : s.Alike s') (d : Dec) : State.Alike { s with dec := d } { s' with dec := d } := by
  obtain ⟨inv, enc, rxr, txr⟩ := h
  exact .mk inv enc rxr txr

theorem State.Alike.withCrcs (h : s.Alike s') (x : Option (BitVec 16)) (y : Option (BitVec 32)) :
    (s.withCrcs x y).Alike (s'.withCrcs x y) := by
  obtain ⟨inv, enc, rxr, txr⟩ := h
  exact .mk inv enc rxr txr

theorem State.Alike.withRxrOvr (h : s.Alike s') (o : Bool) :
    State.Alike { s with rxrOvr := o } { s' with rxrOvr := o } := by
  obtain ⟨inv, enc, rxr, txr⟩ := h
  exact .mk inv enc rxr txr

theorem State.Alike.withRequests (h : s.Alike s') (rs : List Request) :
    State.Alike { s with requests := rs } { s' with requests := rs } := by
  obtain ⟨inv, enc, rxr, txr⟩ := h
  exact .mk inv enc rxr txr

theorem State.Alike.withSched (h : s.Alike s') (turns : List Turn) :
    State.Alike { s with sched := turns } { s' with sched := turns } := by
  obtain ⟨inv, enc, rxr, txr⟩ := h
  exact .mk inv enc rxr txr

theorem State.Alike.nextTick (h : s.Alike s') :
    State.Alike { s with tick := s.tick + 1 } { s' with tick := s'.tick + 1 } := by
  obtain ⟨inv, enc, rxr, txr⟩ := h
  exact .mk inv enc rxr txr

theorem State.Alike.reply (h : s.Alike s') (r : Response) : (s.reply r).Alike (s'.reply r) := by
  obtain ⟨inv, enc, rxr, txr⟩ := h
  exact .mk inv enc rxr txr

/-! ## The encoder and the rings of the state -/

/-- A call of `ENC.STEP` returns the same and leaves states alike. -/
theorem State.Alike.encStep (h : s.Alike s') (inp : Window) (last : Bool) (cap : Nat) :
    ∃ e, Machine.encStep s'.enc inp last cap = { Machine.encStep s.enc inp last cap with enc := e } ∧
      State.Alike { s with enc := (Machine.encStep s.enc inp last cap).enc } { s' with enc := e } := by
  obtain ⟨inv, enc, rxr, txr⟩ := h
  obtain ⟨e, he, halike⟩ := encStep_alike inv enc inp last cap
  exact ⟨e, he, .mk (encStep_keeps_inv inv inp last cap) halike rxr txr⟩

theorem State.Alike.encReset (h : s.Alike s') :
    State.Alike { s with enc := encReset s.enc } { s' with enc := encReset s'.enc } := by
  obtain ⟨inv, enc, rxr, txr⟩ := h
  exact .mk inv.reset enc.reset rxr txr

theorem State.Alike.rxrRelease (h : s.Alike s') {n : Nat} (hn : n ≤ rxrWindowLen s) :
    State.Alike { s with rxr := s.rxr.release s.params.rxCap n }
      { s' with rxr := s'.rxr.release s'.params.rxCap n } := by
  obtain ⟨inv, enc, rxr, txr⟩ := h
  exact .mk inv enc (rxr.release hn) txr

theorem State.Alike.rxrPublish (h : s.Alike s') {vs : Window}
    (hn : vs.length ≤ freeLen s.params.rxCap s.rxr.wr s.rxr.rd) :
    State.Alike { s with rxr := s.rxr.publish s.params.rxCap vs }
      { s' with rxr := s'.rxr.publish s'.params.rxCap vs } := by
  obtain ⟨inv, enc, rxr, txr⟩ := h
  exact .mk inv enc (rxr.publish hn) txr

theorem State.Alike.txrRelease (h : s.Alike s') {n : Nat} (hn : n ≤ occLen s.params.txCap s.txr.rd s.txr.wr) :
    State.Alike { s with txr := s.txr.release s.params.txCap n }
      { s' with txr := s'.txr.release s'.params.txCap n } := by
  obtain ⟨inv, enc, rxr, txr⟩ := h
  exact .mk inv enc rxr (txr.release hn)

theorem State.Alike.txrPublish (h : s.Alike s') {vs : Window} (hn : vs.length ≤ txrWindowLen s) :
    State.Alike { s with txr := s.txr.publish s.params.txCap vs }
      { s' with txr := s'.txr.publish s'.params.txCap vs } := by
  obtain ⟨inv, enc, rxr, txr⟩ := h
  exact .mk inv enc rxr (txr.publish hn)

theorem State.Alike.rxrEmptied (h : s.Alike s') :
    State.Alike { s with rxr := { s.rxr with rd := 0, wr := 0 } }
      { s' with rxr := { s'.rxr with rd := 0, wr := 0 } } := by
  obtain ⟨inv, enc, rxr, txr⟩ := h
  exact .mk inv enc rxr.emptied txr

theorem State.Alike.txrEmptied (h : s.Alike s') :
    State.Alike { s with txr := { s.txr with rd := 0, wr := 0 } }
      { s' with txr := { s'.txr with rd := 0, wr := 0 } } := by
  obtain ⟨inv, enc, rxr, txr⟩ := h
  exact .mk inv enc rxr txr.emptied

/-- An overrun leaves the same storage and `wr` in both: free values numbered by the counter. -/
theorem State.Alike.rxrUnspecified (h : s.Alike s') : (rxrUnspecified s).Alike (rxrUnspecified s') := by
  have hr := rxrUnspecified_keeps_rings h.rings.1
  obtain ⟨inv, enc, ⟨-, -, -⟩, txr⟩ := h
  exact .mk inv enc (.refl hr.rxr) txr

end

/-! ## Two computations side by side -/

/-- Both computations answer, and the answers are related. -/
def BothAnswer {α : Type} (R : α → α → Prop) (x x' : Except Fault α) : Prop :=
  ∃ a a', x = .ok a ∧ x' = .ok a' ∧ R a a'

theorem BothAnswer.bind {α β : Type} {R : α → α → Prop} {Q : β → β → Prop} {x x' : Except Fault α}
    {f f' : α → Except Fault β} (h : BothAnswer R x x') (hf : ∀ a a', R a a' → BothAnswer Q (f a) (f' a')) :
    BothAnswer Q (x >>= f) (x' >>= f') := by
  obtain ⟨a, a', rfl, rfl, ha⟩ := h
  exact hf a a' ha

theorem BothAnswer.ok {α : Type} {R : α → α → Prop} {a a' : α} (h : R a a') : BothAnswer R (.ok a) (.ok a') :=
  ⟨a, a', rfl, rfl, h⟩

/-- The same value beside states alike. -/
def ResultAlike {α : Type} (a a' : α × State) : Prop := a'.1 = a.1 ∧ a.2.Alike a'.2

section
variable {s s' : State}

/-! ## Engine steps -/

theorem rxengPut_alike (h : s.Alike s') (v : Byte) : BothAnswer State.Alike (rxengPut v s) (rxengPut v s') := by
  obtain ⟨hrings, hrings'⟩ := h.rings
  obtain ⟨hrd, hwr⟩ := h.rxCursors
  have hcond : (s'.rxrOvr = true ∨ ringFull s'.params.rxCap s'.rxr.rd s'.rxr.wr) ↔
      (s.rxrOvr = true ∨ ringFull s.params.rxCap s.rxr.rd s.rxr.wr) := by
    rw [h.rxrOvr_eq, h.params_eq, hrd, hwr]
  by_cases hfull : s.rxrOvr = true ∨ ringFull s.params.rxCap s.rxr.rd s.rxr.wr
  · rw [rxengPut_of_full v hfull, rxengPut_of_full v (hcond.2 hfull)]
    exact .ok (h.withRxrOvr true).rxrUnspecified
  · obtain ⟨ho, hfree⟩ := not_or.1 hfull
    obtain ⟨ho', hfree'⟩ := not_or.1 (mt hcond.1 hfull)
    rw [rxengPut_of_free hrings v (Bool.eq_false_iff.2 ho) hfree,
      rxengPut_of_free hrings' v (Bool.eq_false_iff.2 ho') hfree']
    refine .ok (h.rxrPublish (Nat.one_le_iff_ne_zero.2 ?_))
    rwa [ne_eq, freeLen_eq_zero_iff hrings.rxr.rd_lt hrings.rxr.wr_lt]

theorem txengTake_alike (h : s.Alike s') (k : Nat) : BothAnswer State.Alike (txengTake k s) (txengTake k s') := by
  obtain ⟨hrings, hrings'⟩ := h.rings
  obtain ⟨hrd, hwr⟩ := h.txCursors
  have hcond : takeEnabled k s' ↔ takeEnabled k s := by rw [takeEnabled, takeEnabled, h.params_eq, hrd, hwr]
  by_cases hk : takeEnabled k s
  · rw [txengTake_of_enabled hrings hk, txengTake_of_enabled hrings' (hcond.2 hk), h.txPending_eq]
    obtain ⟨inv, enc, rxr, txr⟩ := h
    exact .ok (.mk inv enc rxr (txr.release hk.2))
  · rw [txengTake, if_neg hk, txengTake, if_neg (mt hcond.1 hk)]
    exact .ok h

theorem runEngines_alike (h : s.Alike s') (turns : List Turn) :
    BothAnswer State.Alike (runEngines turns s) (runEngines turns s') := by
  induction turns generalizing s s' with
  | nil => exact .ok (h.withSched [])
  | cons turn rest ih =>
    cases turn with
    | host => exact .ok (h.withSched rest)
    | rxeng v => exact (rxengPut_alike h v).bind fun _ _ h1 => ih h1
    | txeng k => exact (txengTake_alike h k).bind fun _ _ h1 => ih h1

theorem interlude_alike (h : s.Alike s') : BothAnswer State.Alike (interlude s) (interlude s') := by
  rw [interlude, interlude, h.sched_eq]
  exact runEngines_alike h _

/-! ## Ring primitives of `HOST` -/

/-- The window shows unread bytes, or free values numbered by the counter. -/
theorem rxrWindow_alike (h : s.Alike s') : BothAnswer ResultAlike (rxrWindow s) (rxrWindow s') := by
  obtain ⟨hrings, hrings'⟩ := h.rings
  cases ho : s.rxrOvr with
  | true =>
    rw [rxrWindow, if_pos ho, rxrWindow, if_pos (h.rxrOvr_eq.trans ho), h.tick_eq]
    exact .ok ⟨rfl, h.tick_eq ▸ h.nextTick⟩
  | false =>
    obtain ⟨hrd, hwr⟩ := h.rxCursors
    rw [rxrWindow_eq hrings ho, rxrWindow_eq hrings' (h.rxrOvr_eq.trans ho), h.rxPending_eq, h.params_eq, hrd, hwr]
    exact .ok ⟨rfl, h⟩

theorem State.Alike.rxrWindowLen_eq (h : s.Alike s') : rxrWindowLen s' = rxrWindowLen s := by
  obtain ⟨hrd, hwr⟩ := h.rxCursors
  rw [rxrWindowLen, h.params_eq, hrd, hwr]

theorem rxrCommit_alike (h : s.Alike s') (n : Nat) : ResultAlike (rxrCommit n s) (rxrCommit n s') := by
  have hlen := h.rxrWindowLen_eq
  rcases rxrCommit_cases n s with ⟨hn, e⟩ | ⟨hn, e⟩ <;> rw [e]
  · rw [rxrCommit, if_pos (hlen.trans_lt hn)]
    exact ⟨rfl, h⟩
  · rw [rxrCommit, if_neg (Nat.not_lt.2 (hn.trans_eq hlen.symm))]
    exact ⟨rfl, h.rxrRelease hn⟩

theorem State.Alike.txrWindowLen_eq (h : s.Alike s') : txrWindowLen s' = txrWindowLen s := by
  obtain ⟨hrd, hwr⟩ := h.txCursors
  rw [txrWindowLen, txrWindowLen, h.params_eq, hrd, hwr]

theorem txrCommit_alike (h : s.Alike s') (inp : Window) :
    BothAnswer ResultAlike (txrCommit inp s) (txrCommit inp s') := by
  obtain ⟨hrings, hrings'⟩ := h.rings
  have hlen := h.txrWindowLen_eq
  rcases Nat.lt_or_ge (txrWindowLen s) inp.length with hlong | hfits
  · rw [txrCommit_of_long hlong, txrCommit_of_long (hlen ▸ hlong)]
    exact .ok ⟨rfl, h⟩
  · rw [txrCommit_of_fits hrings hfits, txrCommit_of_fits hrings' (hlen ▸ hfits)]
    exact .ok ⟨rfl, h.txrPublish hfits⟩

/-! ## Composites -/

/-- What passes of `RXR.DECODE` gave from states alike. -/
structure RxDecoded.Alike (p p' : RxDecoded) : Prop where
  out : p'.out = p.out
  status : p'.status = p.status
  state : p.state.Alike p'.state

/-- What passes of `TXR.ENCODE` gave from states alike. -/
structure TxEncoded.Alike (p p' : TxEncoded) : Prop where
  consumed : p'.consumed = p.consumed
  status : p'.status = p.status
  state : p.state.Alike p'.state

theorem rxrDecodePass_alike (h : s.Alike s') (cap : Nat) :
    BothAnswer RxDecoded.Alike (rxrDecodePass cap s) (rxrDecodePass cap s') := by
  refine (rxrWindow_alike h).bind ?_
  rintro ⟨_, s1⟩ ⟨w, s1'⟩ ⟨rfl, h1⟩
  refine (interlude_alike h1).bind fun s2 s2' h2 => ?_
  rw [h2.dec_eq]
  refine (interlude_alike (h2.withDec (decStep s2.dec w.bytes cap).dec)).bind fun s3 s3' h3 => ?_
  exact .ok ⟨rfl, rfl, (rxrCommit_alike h3 _).2⟩

theorem rxrDecode_alike (h : s.Alike s') (cap : Nat) :
    BothAnswer RxDecoded.Alike (rxrDecode cap s) (rxrDecode cap s') := by
  refine (rxrDecodePass_alike h cap).bind fun p1 p1' h1 => ?_
  rw [h1.status, h1.out]
  split
  · exact .ok h1
  · refine (interlude_alike h1.state).bind fun t t' ht => ?_
    refine (rxrDecodePass_alike ht _).bind fun p2 p2' h2 => ?_
    exact .ok ⟨congrArg (p1.out ++ ·) h2.out, h2.status, h2.state⟩

theorem rxrDecodeReturn_alike {p p' : RxDecoded} (h : p.Alike p') (cap : Nat) :
    (rxrDecodeReturn cap p).Alike (rxrDecodeReturn cap p') := by
  unfold rxrDecodeReturn
  rw [h.state.rxrOvr_eq]
  split
  · exact ⟨by rw [h.state.tick_eq], h.status, h.state.nextTick⟩
  · exact h

theorem txrEncodePass_alike (h : s.Alike s') (inp : Window) (last : Bool) :
    BothAnswer TxEncoded.Alike (txrEncodePass inp last s) (txrEncodePass inp last s') := by
  refine (interlude_alike h).bind fun s1 s1' h1 => ?_
  obtain ⟨e, he, halike⟩ := h1.encStep inp last (txrWindowLen s)
  rw [h.txrWindowLen_eq, he]
  refine (interlude_alike halike).bind fun s2 s2' h2 => ?_
  refine (txrCommit_alike h2 _).bind ?_
  rintro ⟨st, s3⟩ ⟨_, s3'⟩ ⟨rfl, h3⟩
  exact .ok ⟨rfl, rfl, h3⟩

theorem txrEncode_alike (h : s.Alike s') (inp : Window) (last : Bool) :
    BothAnswer TxEncoded.Alike (txrEncode inp last s) (txrEncode inp last s') := by
  refine (txrEncodePass_alike h inp last).bind fun p1 p1' h1 => ?_
  rw [h1.status, h1.consumed]
  split
  · exact .ok h1
  · refine (interlude_alike h1.state).bind fun t t' ht => ?_
    refine (txrEncodePass_alike ht _ last).bind fun p2 p2' h2 => ?_
    exact .ok ⟨congrArg (p1.consumed + ·) h2.consumed, h2.status, h2.state⟩

end

/-! ## Outcomes -/

/-- Where the first outcome is a next state, so is the second, and the states are alike. -/
def OutcomeAlike (o o' : Out) : Prop := ∀ t, o = .next t → ∃ t', o' = .next t' ∧ t.Alike t'

section
variable {s s' : State}

theorem outcomeAlike_next (h : s.Alike s') : OutcomeAlike (.next s) (.next s') := by
  rintro t ⟨⟩
  exact ⟨s', rfl, h⟩

theorem outcomeAlike_done (h : s.Alike s') (r : Response) : OutcomeAlike (done r s) (done r s') :=
  outcomeAlike_next (h.reply r)

theorem outcomeAlike_orFault {α : Type} {R : α → α → Prop} {x x' : Except Fault α} {k k' : α → Out}
    (h : BothAnswer R x x') (hk : ∀ a a', R a a' → OutcomeAlike (k a) (k' a')) :
    OutcomeAlike (orFault x k) (orFault x' k') := by
  obtain ⟨a, a', rfl, rfl, ha⟩ := h
  exact hk a a' ha

theorem outcomeAlike_withCrc16 (h : s.Alike s') {k k' : BitVec 16 → Out} (hk : ∀ a, OutcomeAlike (k a) (k' a)) :
    OutcomeAlike (withCrc16 s k) (withCrc16 s' k') := by
  intro t ht
  obtain ⟨a, ha, hka⟩ := withCrc16_eq_next.1 ht
  obtain ⟨t', ht', halike⟩ := hk a t hka
  exact ⟨t', withCrc16_eq_next.2 ⟨a, h.crc16_eq.trans ha, ht'⟩, halike⟩

theorem outcomeAlike_withCrc32 (h : s.Alike s') {k k' : BitVec 32 → Out} (hk : ∀ a, OutcomeAlike (k a) (k' a)) :
    OutcomeAlike (withCrc32 s k) (withCrc32 s' k') := by
  intro t ht
  obtain ⟨a, ha, hka⟩ := withCrc32_eq_next.1 ht
  obtain ⟨t', ht', halike⟩ := hk a t hka
  exact ⟨t', withCrc32_eq_next.2 ⟨a, h.crc32_eq.trans ha, ht'⟩, halike⟩

/-- Every operation returns the same from states alike, and leaves states alike. -/
theorem exec_alike (h : s.Alike s') (i : Instr) : OutcomeAlike (exec i s) (exec i s') := by
  cases i with
  | crc16Init | crc32Init =>
    have halike := h
    cases h
    exact outcomeAlike_done (halike.withCrcs _ _) _
  | crc16Updb | crc16Upd =>
    refine outcomeAlike_withCrc16 h fun a => ?_
    have halike := h
    cases h
    exact outcomeAlike_done (halike.withCrcs _ _) _
  | crc16Final =>
    refine outcomeAlike_withCrc16 h fun a => ?_
    rw [h.params_eq]
    exact outcomeAlike_done h _
  | crc32Updb | crc32Upd =>
    refine outcomeAlike_withCrc32 h fun a => ?_
    have halike := h
    cases h
    exact outcomeAlike_done (halike.withCrcs _ _) _
  | crc32Final =>
    refine outcomeAlike_withCrc32 h fun a => ?_
    rw [h.params_eq]
    exact outcomeAlike_done h _
  | decReset | decStep | decStep2 | decOneshot =>
    have halike := h
    cases h
    exact outcomeAlike_done (halike.withDec _) _
  | encReset => exact outcomeAlike_done h.encReset _
  | encStep inp last cap =>
    obtain ⟨e, he, halike⟩ := h.encStep inp last cap
    show OutcomeAlike _ (execEncStep inp last cap s')
    rw [execEncStep, he]
    exact outcomeAlike_done halike _
  | encStep2 in0 in1 last cap0 cap1 =>
    obtain ⟨e, he, halike⟩ := h.encStep (joinWindows in0 in1) last (cap0 + cap1)
    show OutcomeAlike _ (execEncStep2 in0 in1 last cap0 cap1 s')
    rw [execEncStep2, he]
    exact outcomeAlike_done halike _
  | encOneshot inp cap =>
    obtain ⟨e, he, halike⟩ := h.encReset.encStep inp true cap
    show OutcomeAlike _ (execEncOneshot inp cap s')
    rw [execEncOneshot, he]
    exact outcomeAlike_done halike.encReset _
  | rxrReset => exact outcomeAlike_done (h.rxrEmptied.withRxrOvr false) _
  | rxrWindow =>
    refine outcomeAlike_orFault (rxrWindow_alike h) ?_
    rintro ⟨_, t⟩ ⟨w, t'⟩ ⟨rfl, ht⟩
    exact outcomeAlike_done ht _
  | rxrCommit n =>
    obtain ⟨hst, ht⟩ := rxrCommit_alike h n
    show OutcomeAlike _ (execRxrCommit n s')
    rw [execRxrCommit, hst]
    exact outcomeAlike_done ht _
  | rxrDecode cap =>
    refine outcomeAlike_orFault (rxrDecode_alike h cap) fun p p' hp => ?_
    have hreturn := rxrDecodeReturn_alike hp cap
    rw [hreturn.out, hp.status]
    exact outcomeAlike_done hreturn.state _
  | txrReset => exact outcomeAlike_done h.txrEmptied _
  | txrWindow =>
    show OutcomeAlike _ (execTxrWindow s')
    rw [execTxrWindow, h.txCursors.2, h.txrWindowLen_eq]
    exact outcomeAlike_done h _
  | txrCommit inp =>
    refine outcomeAlike_orFault (txrCommit_alike h inp) ?_
    rintro ⟨_, t⟩ ⟨st, t'⟩ ⟨rfl, ht⟩
    exact outcomeAlike_done ht _
  | txrEncode inp last =>
    refine outcomeAlike_orFault (txrEncode_alike h inp last) fun p p' hp => ?_
    rw [hp.consumed, hp.status]
    exact outcomeAlike_done hp.state _

/-! ## A step -/

theorem hostTurn_alike (h : s.Alike s') : OutcomeAlike (hostTurn s) (hostTurn s') := by
  unfold hostTurn fetchRequest
  rw [h.requests_eq]
  cases s.requests with
  | nil => exact outcomeAlike_next h
  | cons r rest =>
    cases hd : decode r with
    | ok i => simpa [hd] using exec_alike (h.withRequests rest) i
    | error e => simpa [hd, illegalOp] using outcomeAlike_done (h.withRequests rest) (.status .errIllegalOp)

theorem engineTurn_alike {x x' : Except Fault State} (h : BothAnswer State.Alike x x') :
    OutcomeAlike (engineTurn x) (engineTurn x') :=
  outcomeAlike_orFault h fun _ _ => outcomeAlike_next

theorem step_alike (h : s.Alike s') : OutcomeAlike (step s) (step s') := by
  unfold step
  by_cases hp : s.params.valid
  · rw [if_pos hp, if_pos (h.params_eq ▸ hp), h.sched_eq]
    split
    · exact engineTurn_alike (rxengPut_alike (h.withSched _) _)
    · exact engineTurn_alike (txengTake_alike (h.withSched _) _)
    · exact hostTurn_alike (h.withSched _)
    · exact hostTurn_alike h
  · rw [if_neg hp]
    nofun

end

/-- Settles O59: a step leaves states alike, which have the same `RXR.ovr`. -/
theorem unreadBytesUnobservable : Obligations.UnreadBytesUnobservable := by
  intro s s' t hs hs' hagree _ ht
  obtain ⟨t', ht', halike⟩ := step_alike (hagree.alike hs hs') t ht
  exact ⟨t', ht', halike.rxrOvr_eq, fun _ => halike.agreeOnRead⟩

end Sys2Proof.Machine
